-- ==== Sys2Proof/Word.lean ====
section
/-! DEFINITION. The words of the command port, the sample buffer and the delay memories
(spec/00_scope.md R6: a word is 32 bits; the sample-rate operand of EPREP is 64 bits). -/

namespace Sys2Proof

/-- A 32-bit word (R6): a command word, a `uint32`, or the bit pattern of a binary32 value. -/
abbrev Word := BitVec 32

/-- A 64-bit pattern (R6, R72): the binary64 sample rate `FS64`. -/
abbrev DWord := BitVec 64

/-- `hi :: lo` (R6): concatenation, `hi` in the more significant position. -/
abbrev joinWords (hi lo : Word) : DWord := hi ++ lo

end Sys2Proof
end

