-- ==== Sys2Proof/Config.lean ====
section
/-! DEFINITION. What an implementation fixes and what the spec leaves free: the configuration record `Cfg`
(spec/00_scope.md R5, R10) and the free values (R13, R26). The two worked instances of `Cfg`, and the one the
machine is built with, are in Machine/Configs.lean. -/

namespace Sys2Proof

/-- The numerics record `Num` (R10): functions that are not IEEE basic operations. Its fifth field, the
square root, is fixed by R10 to the IEEE operation and stands in Machine/Binary32.lean. -/
structure Num where
  /-- sin x, x in radians -/
  sin : Word → Word
  /-- tan x -/
  tan : Word → Word
  /-- e^x -/
  exp : Word → Word
  /-- 10^x -/
  pow10 : Word → Word

/-- A weight of the stereo sums (R5: +1 or −1). -/
inductive Sign where
  | plus | minus
  deriving DecidableEq, Repr

/-- The implementation parameters of R5 that are OPEN. `sample rates` are binary64 patterns. -/
structure Cfg where
  /-- `LREF[0..7]`, reference lengths of the network lines in samples at 48 kHz -/
  lref : Vector Nat 8
  /-- `APREF[0..7]`, reference lengths of the diffusers: left chain 0..3, right chain 4..7 -/
  apref : Vector Nat 8
  /-- `MODMASK_VARIANT`: true is variant 1 -/
  modmaskVariant1 : Bool
  /-- `SMOOTH_SECONDS`, binary32 -/
  smoothSeconds : Word
  /-- `WM[0..7]` -/
  wm : Vector Sign 8
  /-- `WS[0..7]` -/
  ws : Vector Sign 8
  /-- `PERM[0..7]` -/
  perm : Vector (Fin 8) 8
  /-- `PhaseInit(seed, i)` -/
  phaseInit : Word → Fin 8 → Word
  /-- `JitInit(seed, i)` -/
  jitInit : Word → Fin 8 → Word
  /-- `Jitter(js)`: the value and the next generator state -/
  jitter : Word → Word × Word
  /-- `Num` -/
  num : Num
  /-- `CAP_MAX`, words -/
  capMax : Nat
  /-- `FS_MIN`, binary64 -/
  fsMin : DWord
  /-- `FS_MAX`, binary64 -/
  fsMax : DWord
  /-- `BLOCK_MAX` -/
  blockMax : Nat
  /-- `bufAddr` of a block: arguments `MAXBLOCK`, numChannels, channel, sample (spec/20_memory.md R51) -/
  bufAddr : Nat → Nat → Nat → Nat → Nat

/-! ## Free values -/

/-- The places a computed binary32 value is stored; together with the draw counter of State it names one
production of a NaN. -/
inductive Loc where
  /-- result register `RES[i]` -/
  | res (i : Nat)
  /-- the word a push writes into `DLRAM[u]` -/
  | ram (u : Nat)
  /-- `LP[f].G` -/
  | lpCoef (f : Nat)
  /-- `LP[f].s` -/
  | lpState (f : Nat)
  /-- `LFO[i].inc` -/
  | lfoInc (i : Nat)
  /-- `LFO[i].phase` -/
  | lfoPhase (i : Nat)
  /-- `FSR` -/
  | fsr
  /-- `XF_ALPHA` -/
  | xfAlpha
  /-- `FDN.xf` -/
  | xf
  /-- `SM[k].step` -/
  | smStep (k : Nat)
  /-- `SM[k].cur` -/
  | smCur (k : Nat)
  /-- `BUF` channel c -/
  | buf (c : Nat)
  deriving DecidableEq, Repr

/-- FREE VALUE (R13, U4: "its sign and payload are not specified"): the sign, and the fraction field less one,
of the NaN stored at a place while the draw counter has a value. Nothing constrains it. -/
opaque Config.freeNaN : Nat → Loc → Bool × Fin 8388607

/-- FREE VALUE (R26, U2: "any word while `PVALID` = 0"): what a host read of `PRM[k]` returns then. -/
opaque Config.freePortWord : Nat → Nat → Word

/-- FREE VALUE (R10 names a result of `Num.tan` for a NaN and for 0 < x ≤ 0.49·PI, and none for an infinity): what the default `Num.tan` answers for an infinity, by its sign (true is negative). It depends on
the operand alone, as R10 says of every field (DESIGN CHOICE, log 24). -/
opaque Config.tanOfInfinity : Bool → Word

end Sys2Proof
end

