-- ==== Sys2Proof/Machine/Binary32.lean ====
section
/-! DEFINITION. IEEE 754 binary32 arithmetic, round to nearest, ties to even (spec/00_scope.md R6, R8, R11,
R12, R13), and the two uses of binary64 (R24, R72).

A finite binary32 value is an integer number of units of 2^−149. Every operation computes exactly on those
integers and narrows once at the end (`roundTo`). An invalid operation answers the marker `aNaN`; which NaN
is stored is a free value drawn where it is stored (`sealNaN`), and no operation looks at a NaN's payload. -/

namespace Sys2Proof.Machine

/-! ## Fields (R6) -/

/-- Bit 31, the sign: true is negative. -/
def signOf (w : Word) : Bool := w.msb
/-- Bits 30:23. -/
def expOf (w : Word) : Nat := (w.extractLsb 30 23).toNat
/-- Bits 22:0. -/
def fracOf (w : Word) : Nat := (w.extractLsb 22 0).toNat

/-- A NaN: exponent all ones, fraction not zero. -/
def isNaN (w : Word) : Bool := expOf w == 255 && fracOf w != 0
/-- An infinity. -/
def isInf (w : Word) : Bool := expOf w == 255 && fracOf w == 0
/-- `isFinite` (R13): neither a NaN nor an infinity. -/
def isFinite (w : Word) : Bool := expOf w != 255

/-- The magnitude in units of 2^−149. An infinity gets 2^277, above every finite magnitude. -/
def magOf (w : Word) : Nat :=
  if expOf w = 0 then fracOf w else (2 ^ 23 + fracOf w) * 2 ^ (expOf w - 1)

/-- The signed value in units of 2^−149 (a NaN has none: callers test first). -/
def unitsOf (w : Word) : Int := if signOf w then -(magOf w : Int) else (magOf w : Int)

/-- Positive zero. -/
abbrev posZero : Word := 0x00000000#32
/-- Negative zero. -/
abbrev negZero : Word := 0x80000000#32
/-- Positive infinity. -/
abbrev posInf : Word := 0x7F800000#32
/-- The marker for "some NaN" inside a computation (R13): the payload carries no meaning. -/
abbrev aNaN : Word := 0x7FC00000#32

/-- A word with a sign and a 31-bit magnitude pattern. -/
def withSign (neg : Bool) (pattern : Nat) : Word :=
  BitVec.ofNat 32 (if neg then 2 ^ 31 + pattern else pattern)

/-! ## Rounding (R8) -/

/-- n / 2^q to the nearest integer, ties to even. -/
def divNearestEven (n q : Nat) : Nat :=
  let d := n / 2 ^ q
  let r := n % 2 ^ q
  if 2 * r < 2 ^ q then d
  else if 2 ^ q < 2 * r then d + 1
  else if q = 0 then d
  else d + d % 2

/-- The magnitude pattern (bits 30:0) nearest to n · 2^−u, for u ≥ 149. The grid step is 2^(q − u): 24
significant bits, or the subnormal step 2^−149; a value that rounds to 2^128 or more becomes infinity. A
carry out of the significand moves into the exponent field by itself. -/
def roundMag (n u : Nat) : Nat :=
  let q := max (Nat.log2 n - 23) (u - 149)
  min ((q - (u - 149)) * 2 ^ 23 + divNearestEven n q) 0x7F800000

/-- The binary32 value nearest to ±n · 2^−u (R8: nearest, ties to even, subnormals kept, overflow to infinity). -/
def roundTo (neg : Bool) (n u : Nat) : Word := withSign neg (roundMag n u)

/-- A quotient or root kept with a sticky bit: exact when `inexact` is false, strictly between n and n + 1 else. -/
def sticky (n : Nat) (inexact : Bool) : Nat := 2 * n + inexact.toNat

/-! ## The operators of R8 -/

/-- −a: the sign bit flipped. -/
def fneg (a : Word) : Word := a ^^^ 0x80000000#32

/-- a + b. An exact zero sum is +0 unless both operands are −0. -/
def fadd (a b : Word) : Word :=
  if isNaN a || isNaN b then aNaN
  else if isInf a then (if isInf b && signOf a != signOf b then aNaN else a)
  else if isInf b then b
  else
    let x := unitsOf a + unitsOf b
    if x = 0 then (if signOf a && signOf b then negZero else posZero)
    else roundTo (decide (x < 0)) x.natAbs 149

/-- a − b. -/
def fsub (a b : Word) : Word := fadd a (fneg b)

/-- a · b. -/
def fmul (a b : Word) : Word :=
  let neg := signOf a != signOf b
  if isNaN a || isNaN b then aNaN
  else if isInf a || isInf b then
    (if magOf a = 0 || magOf b = 0 then aNaN else withSign neg 0x7F800000)
  else roundTo neg (magOf a * magOf b) 298

/-- a / b. -/
def fdiv (a b : Word) : Word :=
  let neg := signOf a != signOf b
  if isNaN a || isNaN b then aNaN
  else if isInf a then (if isInf b then aNaN else withSign neg 0x7F800000)
  else if isInf b then withSign neg 0
  else if magOf b = 0 then (if magOf a = 0 then aNaN else withSign neg 0x7F800000)
  else
    let n := magOf a * 2 ^ 152
    roundTo neg (sticky (n / magOf b) (n % magOf b != 0)) 153

/-- The integer square root by its binary digits, from bit k − 1 down. -/
def sqrtDigits (n : Nat) : Nat → Nat → Nat
  | 0, r => r
  | k + 1, r =>
    let t := r + 2 ^ k
    sqrtDigits n k (if t * t ≤ n then t else r)

/-- The greatest r with r · r ≤ n. -/
def natSqrt (n : Nat) : Nat := sqrtDigits n (Nat.log2 n / 2 + 1) 0

/-- `Num.sqrt` (R10): the IEEE 754 correctly rounded square root. -/
def fsqrt (a : Word) : Word :=
  if isNaN a then aNaN
  else if magOf a = 0 then a
  else if signOf a then aNaN
  else if isInf a then a
  else
    let n := magOf a * 2 ^ 155
    let r := natSqrt n
    roundTo false (sticky r (r * r != n)) 153

/-! ## Comparisons (IEEE: false on a NaN, −0 = +0) -/

/-- a < b -/
def flt (a b : Word) : Bool := !isNaN a && !isNaN b && decide (unitsOf a < unitsOf b)
/-- a = b -/
def feq (a b : Word) : Bool := !isNaN a && !isNaN b && decide (unitsOf a = unitsOf b)
/-- a ≥ b -/
def fge (a b : Word) : Bool := !isNaN a && !isNaN b && decide (unitsOf b ≤ unitsOf a)

/-! ## Clamps, rounding to integers and back (R11, R12) -/

/-- `clamp(x, lo, hi)` (R11): a NaN gives `lo`. Where hi < lo, which R11 does not cover, the tests are made in R11's
order, so that x < lo answers lo and any other x hi: DESIGN CHOICE, log 23. A cutoff (R106) reaches it under a `Cfg` with
`FS_MIN` below 1/0.49 Hz, and no run does under `Cfg.DEFAULT`. R11 speaks of finite bounds; an infinite hi is treated alike
(log 23). -/
def fclamp (x lo hi : Word) : Word :=
  if isNaN x then lo else if flt x lo then lo else if flt hi x then hi else x

/-- `clampInt(k, lo, hi)` (R11). For lo ≤ hi it is R11's; where lo > hi, which R11 does not cover, it
answers `hi`, the reading that keeps R99's `base` ≤ `cap` − 4 (DEDUCED, log 7). -/
def clampInt (k lo hi : Nat) : Nat := min hi (max lo k)

/-- `floor(x)` of a finite x ≥ 0 (R12); the rules apply it to nothing else. -/
def ffloor (x : Word) : Nat := magOf x / 2 ^ 149

/-- `rnd(x)` (R12): floor of the exact x + 1/2; 0 for a NaN, an infinity or a negative value. -/
def rnd (x : Word) : Nat :=
  if !isFinite x || decide (unitsOf x < 0) then 0 else (magOf x + 2 ^ 148) / 2 ^ 149

/-- `float(k)` (R12): exact for 0 ≤ k ≤ 2^24, the range the rules use. -/
def floatOf (k : Nat) : Word := roundTo false (k * 2 ^ 149) 149

/-- `nextPow2(k)` (R12): the least 2^e with 2^e ≥ k, for k ≥ 1. -/
def nextPow2 (k : Nat) : Nat := if k ≤ 1 then 1 else 2 ^ (Nat.log2 (k - 1) + 1)

/-! ## binary64 (R24, R72): a range check and one narrowing -/

/-- Bits 62:52 of a binary64. -/
def expOf64 (w : DWord) : Nat := (w.extractLsb 62 52).toNat
/-- Bits 51:0 of a binary64. -/
def fracOf64 (w : DWord) : Nat := (w.extractLsb 51 0).toNat
/-- A binary64 NaN. -/
def isNaN64 (w : DWord) : Bool := expOf64 w == 2047 && fracOf64 w != 0
/-- The magnitude of a binary64 in units of 2^−1074; an infinity gets a value above every finite one. -/
def magOf64 (w : DWord) : Nat :=
  if expOf64 w = 0 then fracOf64 w else (2 ^ 52 + fracOf64 w) * 2 ^ (expOf64 w - 1)
/-- The signed value of a binary64 in units of 2^−1074. -/
def unitsOf64 (w : DWord) : Int := if w.msb then -(magOf64 w : Int) else (magOf64 w : Int)
/-- a < b on binary64 values. -/
def flt64 (a b : DWord) : Bool := !isNaN64 a && !isNaN64 b && decide (unitsOf64 a < unitsOf64 b)

/-- A binary64 value rounded to binary32, nearest, ties to even (R24, R146). -/
def narrow64 (w : DWord) : Word :=
  if isNaN64 w then aNaN
  else if expOf64 w = 2047 then withSign w.msb 0x7F800000
  else roundTo w.msb (magOf64 w) 1074

/-! ## NaN payloads (R13) -/

/-- Every word that is a NaN, by its sign and its fraction field less one. -/
def nanWord (p : Bool × Fin 8388607) : Word := withSign p.1 (0x7F800000 + (p.2.val + 1))

/-- A computed value as it is stored: a NaN gets a free sign and payload (R13, U4), any other value is itself. -/
def sealNaN (draw : Nat) (l : Loc) (w : Word) : Word :=
  if isNaN w then nanWord (Config.freeNaN draw l) else w

/-! ## The literals of R9, as the words its table gives -/

/-- `PI` -/
abbrev litPi : Word := 0x40490FDB#32
/-- `TWO_PI` -/
abbrev litTwoPi : Word := 0x40C90FDB#32
/-- `HALF_PI` -/
abbrev litHalfPi : Word := 0x3FC90FDB#32
/-- `INV_SQRT8` -/
abbrev litInvSqrt8 : Word := 0x3EB504F3#32
/-- 0.6 (`AP_G0`) -/
abbrev lit0_6 : Word := 0x3F19999A#32
/-- 0.35 (`AP_G1`) -/
abbrev lit0_35 : Word := 0x3EB33333#32
/-- 0.15 (`ER_GAIN`) -/
abbrev lit0_15 : Word := 0x3E19999A#32
/-- 1.2 (`WET_COMP`) -/
abbrev lit1_2 : Word := 0x3F99999A#32
/-- 0.99 (`G_MAX`) -/
abbrev lit0_99 : Word := 0x3F7D70A4#32
/-- 0.999 (`AP_G_MAX`) -/
abbrev lit0_999 : Word := 0x3F7FBE77#32
/-- 0.99995 (`G_FRZ`) -/
abbrev lit0_99995 : Word := 0x3F7FFCB9#32
/-- 0.03 (`DETUNE`) -/
abbrev lit0_03 : Word := 0x3CF5C28F#32
/-- 1e-4 (`JIT_AMP`) -/
abbrev lit1e_4 : Word := 0x38D1B717#32
/-- 0.075 (`XF_TAU`) -/
abbrev lit0_075 : Word := 0x3D99999A#32
/-- 0.49 -/
abbrev lit0_49 : Word := 0x3EFAE148#32
/-- 0.05 -/
abbrev lit0_05 : Word := 0x3D4CCCCD#32
/-- 0.1 -/
abbrev lit0_1 : Word := 0x3DCCCCCD#32
/-- 0.25 (`MIXNORM`) -/
abbrev lit0_25 : Word := 0x3E800000#32
/-- 0.5 -/
abbrev lit0_5 : Word := 0x3F000000#32
/-- 1 -/
abbrev lit1 : Word := 0x3F800000#32
/-- −1 -/
abbrev litNeg1 : Word := 0xBF800000#32
/-- 1.5 -/
abbrev lit1_5 : Word := 0x3FC00000#32
/-- 2 -/
abbrev lit2 : Word := 0x40000000#32
/-- 3 -/
abbrev lit3 : Word := 0x40400000#32
/-- −3 -/
abbrev litNeg3 : Word := 0xC0400000#32
/-- 6 -/
abbrev lit6 : Word := 0x40C00000#32
/-- 8 (`CUBIC_THR_REF`) -/
abbrev lit8 : Word := 0x41000000#32
/-- 10 -/
abbrev lit10 : Word := 0x41200000#32
/-- 60 -/
abbrev lit60 : Word := 0x42700000#32
/-- 100 -/
abbrev lit100 : Word := 0x42C80000#32
/-- 200 -/
abbrev lit200 : Word := 0x43480000#32
/-- 1000 -/
abbrev lit1000 : Word := 0x447A0000#32
/-- 16000 -/
abbrev lit16000 : Word := 0x467A0000#32
/-- 48000 (`FS_REF`) -/
abbrev lit48000 : Word := 0x473B8000#32

end Sys2Proof.Machine
end

