-- ==== Sys2Proof/Machine/Elementary.lean ====
section
/-! DEFINITION. The default instance of the numerics record `Num` (spec/00_scope.md R10: "the binary32 value
nearest to the exact mathematical result"): sine, tangent, exponential and 10^x by fixed-point series.

The series work on naturals scaled by a power of two and carry more than 150 correct bits of the result; a
binary32 value of these functions never lies closer than about 2^−70 (relative) to a rounding boundary, so
narrowing the approximation with `roundTo` narrows the exact result (UNVERIFIED in Lean, log 5). -/

namespace Sys2Proof.Machine

/-! ## Constants, as integers -/

/-- ⌊π · 2^640⌋ -/
def piScaled : Nat :=
  14333329926761567455775730701799299831126131522901418329710873694248203755857903894978459978948837038337184470360789102305252273090192709030764248428292776480232102476327552185579501988876367276

/-- ⌊ln 10 · 2^400⌋ -/
def ln10Scaled : Nat :=
  5945850075668607545276740987126418034450993105374485089202387333560957154966180253082624741004236853955608023250084344200

/-! ## Sine, cosine, tangent: 640 fractional bits -/

/-- One in the scale of the trigonometric series. -/
def trigOne : Nat := 2 ^ 640

/-- t − t·r²/((k+1)(k+2)) + … : an alternating Taylor tail from the term t of degree k, `r2` = r² scaled. -/
def trigTail (r2 : Nat) : Nat → Nat → Nat → Nat
  | 0, _, _ => 0
  | fuel + 1, k, t => t - trigTail r2 fuel (k + 2) (t * r2 / trigOne / ((k + 1) * (k + 2)))

/-- The magnitude |x| split at multiples of π/2: the quotient and the scaled remainder. -/
def trigReduce (x : Word) : Nat × Nat :=
  let n := magOf x * 2 ^ 491
  (2 * n / piScaled, (2 * n - 2 * n / piScaled * piScaled) / 2)

/-- sin r for a scaled r in [0, π/2), at most one. -/
def sinScaled (r : Nat) : Nat := min trigOne (trigTail (r * r / trigOne) 48 1 r)

/-- cos r for a scaled r in [0, π/2), at most one. -/
def cosScaled (r : Nat) : Nat := min trigOne (trigTail (r * r / trigOne) 48 0 trigOne)

/-- `Num.sin` (R10), correctly rounded. -/
def numSin (x : Word) : Word :=
  if !isFinite x then aNaN
  else if magOf x = 0 then x
  else
    let (q, r) := trigReduce x
    let v := if q % 2 = 0 then sinScaled r else cosScaled r
    roundTo (signOf x != decide (2 ≤ q % 4)) v 640

/-- `Num.tan` (R10), correctly rounded. R10 gives no result for an infinity, which has no tangent: the value there is free
(DESIGN CHOICE, log 24). LPSETC reaches it only under a `Cfg` whose `FS_MIN` is so small that PI·hc / FS overflows (R106),
never in a run under `Cfg.DEFAULT`. -/
def numTan (x : Word) : Word :=
  if isNaN x then aNaN
  else if !isFinite x then Config.tanOfInfinity (signOf x)
  else if magOf x = 0 then x
  else
    let (q, r) := trigReduce x
    if q % 2 = 0 then roundTo (signOf x) (sinScaled r * trigOne / cosScaled r) 640
    else roundTo (!signOf x) (cosScaled r * trigOne / sinScaled r) 640

/-! ## Exponentials: 320 fractional bits -/

/-- One in the scale of the exponential series. -/
def expOne : Nat := 2 ^ 320

/-- t + t·r/(k+1) + … : the Taylor tail of e^r from the term t of degree k. -/
def expTail (r : Nat) : Nat → Nat → Nat → Nat
  | 0, _, _ => 0
  | fuel + 1, k, t => t + expTail r fuel (k + 1) (t * r / expOne / (k + 1))

/-- v^(2^m), scaled. -/
def squareTimes : Nat → Nat → Nat
  | 0, v => v
  | m + 1, v => squareTimes m (v * v / expOne)

/-- e^y for a scaled y ≥ 0: the series at y / 2^8, then eight squarings. -/
def expScaled (y : Nat) : Nat := squareTimes 8 (expTail (y / 2 ^ 8) 50 0 expOne)

/-- e^(±y) rounded, y ≥ 0 scaled. Beyond 105 the result is infinity or zero at binary32. An infinity is scaled beyond it, so
that it gets the limit of the function, which R10 does not state (DEDUCED, log 24). -/
def expRounded (neg : Bool) (y : Nat) : Word :=
  if 105 * expOne ≤ y then (if neg then posZero else posInf)
  else if neg then roundTo false (expOne * expOne / expScaled y) 320
  else roundTo false (expScaled y) 320

/-- `Num.exp` (R10), correctly rounded. R10 states no result for a NaN: a NaN (DEDUCED, log 24). -/
def numExp (x : Word) : Word :=
  if isNaN x then aNaN else expRounded (signOf x) (magOf x * 2 ^ 171)

/-- `Num.pow10` (R10), correctly rounded: 10^x = e^(x ln 10). -/
def numPow10 (x : Word) : Word :=
  if isNaN x then aNaN else expRounded (signOf x) (magOf x * ln10Scaled / 2 ^ 229)

/-- The default instance of `Num` (R10). -/
def numDefault : Num := { sin := numSin, tan := numTan, exp := numExp, pow10 := numPow10 }

end Sys2Proof.Machine
end

