-- ==== Sys2Proof/Syntax.lean ====
section
/-! DEFINITION. The 32 commands of the opcode map (spec/30_encoding.md R73), one constructor a row.
An operand word that the rules read as binary32 is kept as the word itself (R72: every bit pattern is accepted). -/

namespace Sys2Proof

/-- A command with its head fields and operand words, in the order R73 sends them.
`u`, `a`, `f`, `i`, `k` are the head word's `UNIT` field (an index above the unit's range is a legal
encoding and faults when executed, R74); `nch` is `IMM16[1:0]`; `mode` and `on` are `IMM16[0]`. -/
inductive Instr where
  /-- EPREP #nch, FS_HI, FS_LO, MAXBLOCK (R146) -/
  | eprep (nch : Nat) (fsHi fsLo maxBlock : Word)
  /-- ERST (R147) -/
  | erst
  /-- ESETP p0, …, p12 (R148) -/
  | esetp (p : Vector Word 13)
  /-- EPROC #nch, numSamples (R151) -/
  | eproc (nch : Nat) (numSamples : Word)
  /-- DLPREP u, maxDelaySamples (R90) -/
  | dlprep (u : Nat) (maxDelay : Word)
  /-- DLRST u (R92) -/
  | dlrst (u : Nat)
  /-- DLSETD u, delay (R94) -/
  | dlsetd (u : Nat) (delay : Word)
  /-- DLPUSH u, x (R95) -/
  | dlpush (u : Nat) (x : Word)
  /-- DLRDLIN u, delay, modOffset (R96) -/
  | dlrdlin (u : Nat) (delay modOffset : Word)
  /-- DLRDLAG u, delay, modOffset (R97) -/
  | dlrdlag (u : Nat) (delay modOffset : Word)
  /-- DLPROC u, #mode, x, delay, modOffset (R98); `mode` true is cubic -/
  | dlproc (u : Nat) (mode : Bool) (x delay modOffset : Word)
  /-- APPREP a, length (R100) -/
  | apprep (a : Nat) (length : Word)
  /-- APRST a (R101) -/
  | aprst (a : Nat)
  /-- APSETG a, g (R102) -/
  | apsetg (a : Nat) (g : Word)
  /-- APPROC a, x (R103) -/
  | approc (a : Nat) (x : Word)
  /-- LPRST f (R105) -/
  | lprst (f : Nat)
  /-- LPSETC f, hz (R106) -/
  | lpsetc (f : Nat) (hz : Word)
  /-- LPPROC f, x (R107) -/
  | lpproc (f : Nat) (x : Word)
  /-- LFOSEED i, seed (R111) -/
  | lfoseed (i : Nat) (seed : Word)
  /-- LFOSETR i, rateHz (R113) -/
  | lfosetr (i : Nat) (rateHz : Word)
  /-- LFOSETD i, depthSamples (R114) -/
  | lfosetd (i : Nat) (depthSamples : Word)
  /-- LFONEXT i (R115) -/
  | lfonext (i : Nat)
  /-- FSETSIZE scale (R124) -/
  | fsetsize (scale : Word)
  /-- FSETRT60 seconds (R125) -/
  | fsetrt60 (seconds : Word)
  /-- FSETDAMP hz (R126) -/
  | fsetdamp (hz : Word)
  /-- FSETMOD rateHz, depthMs (R127) -/
  | fsetmod (rateHz depthMs : Word)
  /-- FSETFRZ #on (R128) -/
  | fsetfrz (on : Bool)
  /-- FTICK xIn (R129) -/
  | ftick (xIn : Word)
  /-- FMIX v[0..7], width (R132) -/
  | fmix (v : Vector Word 8) (width : Word)
  /-- SMSET k, target (R141) -/
  | smset (k : Nat) (target : Word)
  /-- SMNEXT k (R142) -/
  | smnext (k : Nat)
  /-- SMSNAP k (R143) -/
  | smsnap (k : Nat)
  deriving DecidableEq, Repr

/-- The rows of the opcode map without their operands. -/
inductive Op where
  | eprep | erst | esetp | eproc
  | dlprep | dlrst | dlsetd | dlpush | dlrdlin | dlrdlag | dlproc
  | apprep | aprst | apsetg | approc
  | lprst | lpsetc | lpproc
  | lfoseed | lfosetr | lfosetd | lfonext
  | fsetsize | fsetrt60 | fsetdamp | fsetmod | fsetfrz | ftick | fmix
  | smset | smnext | smsnap
  deriving DecidableEq, Repr

/-- The head-word formats of R71. -/
inductive Format where
  /-- neither `UNIT` nor `IMM16` -/
  | z
  /-- `UNIT` only -/
  | u
  /-- `IMM16` only -/
  | i
  /-- both -/
  | ui
  deriving DecidableEq, Repr

/-- The pseudo-commands of R78, each an alias of one command. -/
abbrev Instr.freeze : Instr := .fsetfrz true
/-- `UNFREEZE` (R78). -/
abbrev Instr.unfreeze : Instr := .fsetfrz false
/-- `DLPROCL u, x, d, m` (R78). -/
abbrev Instr.dlprocl (u : Nat) (x d m : Word) : Instr := .dlproc u false x d m
/-- `DLPROCC u, x, d, m` (R78). -/
abbrev Instr.dlprocc (u : Nat) (x d m : Word) : Instr := .dlproc u true x d m

end Sys2Proof
end

