-- ==== Sys2Proof/Machine/State.lean ====
section
/-! DEFINITION. The state of the core (spec/10_state.md), plain data, and its value after hardware reset
(R36). A binary32 value is held as its word. Where the spec gives no reset value the model names zero
(DESIGN CHOICE, log 1). -/

namespace Sys2Proof.Machine

/-- A word-indexed memory (spec/20_memory.md R50, R53: one word is the only access size): pairs of a word index
and the word there, indexes strictly rising, no entry equal to what an unlisted index reads as. -/
abbrev Mem := List (Nat × Word)

/-- The fault causes of spec/60_exceptions.md R166. -/
inductive Cause where
  /-- code 0: no fault -/
  | noFault
  /-- code 1: the decoder, on an illegal head word (R75) -/
  | illegalCommand
  /-- code 2: every command except EPREP while `PREPARED` = 0 (R168) -/
  | notPrepared
  /-- code 3: EPROC while `PVALID` = 0 (R151) -/
  | noParams
  /-- code 4: EPREP, DLPREP, APPREP (R146, R90, R100) -/
  | badConfig
  /-- code 5: a `UNIT` above the range of its unit kind (R74) -/
  | badUnit
  /-- code 6: EPROC (R151) -/
  | badCount
  deriving DecidableEq, Repr

/-- `STATUS` (R23). The word the host reads is computed from it (Machine/Flags.lean). -/
structure Status where
  /-- bit 0: PREPARE has completed -/
  prepared : Bool
  /-- bit 1: a parameter snapshot has been delivered -/
  pvalid : Bool
  /-- bit 2: no snapshot has been applied since the last EPREP -/
  first : Bool
  /-- bit 3: a fault has been raised -/
  err : Bool
  /-- bits 7:4: the first fault -/
  cause : Cause
  deriving DecidableEq, Repr

/-- DelayLine instance (R28), with its memory `DLRAM[u]` (R52). -/
structure DelayLine where
  /-- `cap`: 0 (unprepared) or a power of two, unbounded like every stored integer (log 26) -/
  cap : Nat
  /-- `w`: the index the next push writes -/
  w : Nat
  /-- `base`: the base delay -/
  base : Nat
  /-- `DLRAM[u]` -/
  ram : Mem
  deriving DecidableEq, Repr

/-- OnePoleLP instance (R30). -/
structure OnePole where
  /-- `G`: the coefficient -/
  G : Word
  /-- `s`: the state word -/
  s : Word
  deriving DecidableEq, Repr

/-- Modulator instance (R31). -/
structure Lfo where
  phase : Word
  rate : Word
  inc : Word
  depth : Word
  /-- `js`: the jitter generator's state, a `uint32` -/
  js : Word
  deriving DecidableEq, Repr

/-- The network's own fields (R32). Its lines, filters and modulators are `DL[10 + i]`, `LP[i]`, `LFO[i]`. -/
structure Fdn where
  /-- `g[0..7]`: the stored feedback gains -/
  g : Vector Word 8
  /-- `mode[0..7]`: true is cubic -/
  mode : Vector Bool 8
  /-- `xf`: the freeze crossfade -/
  xf : Word
  /-- `xfT`: its target -/
  xfT : Word
  /-- `scale`: the last size applied -/
  scale : Word
  /-- `rt60`: the last decay time applied -/
  rt60 : Word
  deriving DecidableEq, Repr

/-- Smoother instance (R33). -/
structure Smoother where
  cur : Word
  target : Word
  step : Word
  count : Nat
  deriving DecidableEq, Repr

/-- The whole state. -/
structure State where
  /-- `RES[0..7]`, the result registers (R21) -/
  res : Vector Word 8
  /-- `STATUS` (R23) -/
  status : Status
  /-- `FS64`, binary64 (R24) -/
  fs64 : DWord
  /-- `FS`, binary32 (R24) -/
  fs : Word
  /-- `FSR`, binary32 (R24) -/
  fsr : Word
  /-- `MAXBLOCK`, `uint32` (R24) -/
  maxBlock : Word
  /-- `NCH`, `uint32` (R24) -/
  nch : Word
  /-- `XF_ALPHA`, binary32 (R25) -/
  xfAlpha : Word
  /-- `SM_N`, `uint32` (R25), unbounded here (log 26) -/
  smN : Nat
  /-- `PRM[0..12]`, the parameter registers (R27) -/
  prm : Vector Word 13
  /-- `DL[0..17]` (R28, R34) -/
  dl : Vector DelayLine 18
  /-- `AP[0..7].g` (R29); the line of `AP[a]` is `DL[2 + a]` -/
  apG : Vector Word 8
  /-- `LP[0..9]` (R30, R34) -/
  lp : Vector OnePole 10
  /-- `LFO[0..7]` (R31) -/
  lfo : Vector Lfo 8
  /-- the network's own fields (R32) -/
  fdn : Fdn
  /-- `SM[0..1]` (R33) -/
  sm : Vector Smoother 2
  /-- the sample counter `n`, which exists only while EPROC runs (R22) -/
  n : Option Nat
  /-- `BUF`, the host's sample buffer, by the word index `bufAddr` gives (R51) -/
  buf : Mem
  /-- the words that have arrived at the command port and are not consumed, oldest first (R70) -/
  cmd : List Word
  /-- THE MODEL'S OWN: counts commands and samples, so that every stored NaN draws a payload of its own (R13) -/
  draws : Nat
  deriving DecidableEq, Repr

/-- Reasons the machine stops. There are none: a protocol violation sets `STATUS.ERR`, after which the core
discards every word (R167), and that is a next state. -/
inductive Fault where
  deriving DecidableEq, Repr

/-- Reasons the model has no answer. -/
inductive Refusal where
  /-- raised by exec's arm of a command that has no meaning in the model yet (no arm raises it); safe -/
  | notModelled (mnemonic : String)
  deriving DecidableEq, Repr

/-- What a command answers. -/
abbrev Result := Host.Outcome State Fault Refusal

/-- A delay line before its first EPREP (R36: `cap` 0; `w`, `base`, contents unspecified, named 0). -/
def DelayLine.reset : DelayLine := { cap := 0, w := 0, base := 0, ram := [] }
/-- A filter before its first EPREP (R36: unspecified, named +0.0). -/
def OnePole.reset : OnePole := { G := 0, s := 0 }
/-- A modulator before its first EPREP (R36: unspecified, named 0). -/
def Lfo.reset : Lfo := { phase := 0, rate := 0, inc := 0, depth := 0, js := 0 }
/-- The network's fields before the first EPREP (R36: unspecified, named 0). -/
def Fdn.reset : Fdn :=
  { g := Vector.replicate 8 0, mode := Vector.replicate 8 false, xf := 0, xfT := 0, scale := 0, rt60 := 0 }
/-- A smoother before its first EPREP (R36: unspecified, named 0). -/
def Smoother.reset : Smoother := { cur := 0, target := 0, step := 0, count := 0 }

/-- `STATUS` after hardware reset (R36): 0. -/
def Status.reset : Status :=
  { prepared := false, pvalid := false, first := false, err := false, cause := .noFault }

/-- The state after hardware reset (R36): `STATUS` and the configuration registers 0, every `cap` 0, no command
under way, and every register R36 leaves unspecified at zero. -/
def State.reset : State where
  res := Vector.replicate 8 0
  status := Status.reset
  fs64 := 0
  fs := 0
  fsr := 0
  maxBlock := 0
  nch := 0
  xfAlpha := 0
  smN := 0
  prm := Vector.replicate 13 0
  dl := Vector.replicate 18 DelayLine.reset
  apG := Vector.replicate 8 0
  lp := Vector.replicate 10 OnePole.reset
  lfo := Vector.replicate 8 Lfo.reset
  fdn := Fdn.reset
  sm := Vector.replicate 2 Smoother.reset
  n := none
  buf := []
  cmd := []
  draws := 0

end Sys2Proof.Machine
end

