-- ==== Sys2Proof/Machine/Flags.lean ====
section
/-! DEFINITION. The `STATUS` word (spec/10_state.md R23) and the changes of its bits. No arithmetic sets a flag. -/

namespace Sys2Proof.Machine

/-- The code `STATUS.CAUSE` records (spec/60_exceptions.md R166). -/
def Cause.code : Cause → Nat
  | .noFault => 0
  | .illegalCommand => 1
  | .notPrepared => 2
  | .noParams => 3
  | .badConfig => 4
  | .badUnit => 5
  | .badCount => 6

/-- `STATUS` as the host reads it (R23): PREPARED, PVALID, FIRST, ERR, CAUSE in bits 7:4, zeros above. R35 lists `FIRST`
among the state that is not readable on the status port, and R23, R26 and the vectors V10 make it bit 2 of this word:
the model follows these and makes it readable (DESIGN CHOICE, log 22). -/
def Status.word (t : Status) : Word :=
  BitVec.ofNat 32
    (t.prepared.toNat + 2 * t.pvalid.toNat + 4 * t.first.toNat + 8 * t.err.toNat + 16 * t.cause.code)

/-- `ERR` ← 1, `CAUSE` ← c (R167). -/
def Status.withFault (t : Status) (c : Cause) : Status := { t with err := true, cause := c }

/-- EPREP's change (R146): `PREPARED` ← 1, `PVALID` ← 0, `FIRST` ← 1. -/
def Status.afterPrepare (t : Status) : Status := { t with prepared := true, pvalid := false, first := true }

/-- ESETP's change (R148): `PVALID` ← 1. -/
def Status.afterParams (t : Status) : Status := { t with pvalid := true }

/-- The change at the first snapshot application (R150): `FIRST` ← 0. -/
def Status.afterFirst (t : Status) : Status := { t with first := false }

end Sys2Proof.Machine
end

