-- ==== Sys2Proof/Machine/Operands.lean ====
section
/-! DEFINITION. The operand forms of the commands (spec/30_encoding.md R72, R74): unit indexes, `uint32` words,
the binary64 pair; and the unit numbering of spec/10_state.md R34. A binary32 operand is its word. -/

namespace Sys2Proof.Machine

/-- A `UNIT` value as an index of its unit kind, if it is in range (R74). -/
def unitIndex (limit u : Nat) : Option (Fin limit) := if h : u < limit then some ⟨u, h⟩ else none

/-- A `uint32` operand (R72): the word itself, never signed. -/
abbrev u32 (w : Word) : Nat := w.toNat

/-- How many instances of each unit kind there are (R34, R74). -/
abbrev numDL : Nat := 18
/-- Allpass instances. -/
abbrev numAP : Nat := 8
/-- OnePoleLP instances. -/
abbrev numLP : Nat := 10
/-- Modulator instances. -/
abbrev numLFO : Nat := 8
/-- Smoother instances. -/
abbrev numSM : Nat := 2

/-- The delay line of `AP[a]`: `DL[2 + a]` (R29). -/
def apLine (a : Fin 8) : Fin 18 := ⟨2 + a.val, by omega⟩
/-- The delay line of network lane i: `DL[10 + i]` (R32). -/
def fdnLine (i : Fin 8) : Fin 18 := ⟨10 + i.val, by omega⟩
/-- The damping filter of network lane i: `LP[i]` (R32). -/
def dampLP (i : Fin 8) : Fin 10 := ⟨i.val, by omega⟩

end Sys2Proof.Machine
end

