-- ==== Sys2Proof/Machine/Ops.lean ====
section
/-! DEFINITION. The named operations over memory, registers and unit banks, raising a fault, and the checks
every command makes first (spec/20_memory.md, spec/60_exceptions.md). -/

namespace Sys2Proof.Machine

/-! ## Word memories (R50, R55) -/

/-- What an unlisted index reads as: +0.0. For `DLRAM` it is the zero fill of R90 and R92; for `BUF` words the
host has not placed it is the model's choice (DESIGN CHOICE, log 2). -/
def memUnlisted : Word := 0

/-- `MemRead(space, a)` (R7). -/
def memRead : Mem → Nat → Word
  | [], _ => memUnlisted
  | (b, v) :: t, a => if a = b then v else memRead t a

/-- `MemWrite(space, a, v)` (R7), keeping the canonical form. -/
def memWrite : Mem → Nat → Word → Mem
  | [], a, v => if v = memUnlisted then [] else [(a, v)]
  | (b, x) :: t, a, v =>
    if a < b then (if v = memUnlisted then (b, x) :: t else (a, v) :: (b, x) :: t)
    else if a = b then (if v = memUnlisted then t else (b, v) :: t)
    else (b, x) :: memWrite t a v

/-- The canonical form from a bound up: every index at or above `lo`, strictly rising, no listed unlisted value. -/
def memWfFrom (lo : Nat) : Mem → Bool
  | [] => true
  | (a, v) :: t => decide (lo ≤ a) && v != memUnlisted && memWfFrom (a + 1) t

/-- The canonical form of a memory. -/
def Memory.wf (m : Mem) : Bool := memWfFrom 0 m

/-! ## Banks of registers and units -/

/-- `RES[i] <- v` for a computed v (R21, R79): a NaN is stored with a free payload. -/
def State.putRes (s : State) (i : Fin 8) (v : Word) : State :=
  { s with res := s.res.set i (sealNaN s.draws (.res i) v) }

/-- `RES[0..7] <- v[0..7]` for computed values (R129 step 5). -/
def State.putAllRes (s : State) (v : Vector Word 8) : State :=
  { s with res := Vector.ofFn fun i => sealNaN s.draws (.res i) v[i] }

/-- `RES[i] <- w` where w is a copy of a stored word: bit for bit. -/
def State.copyRes (s : State) (i : Fin 8) (w : Word) : State := { s with res := s.res.set i w }

/-- `DL[u] <- d`. -/
def State.setDL (s : State) (u : Fin 18) (d : DelayLine) : State := { s with dl := s.dl.set u d }
/-- `AP[a].g <- g`. -/
def State.setAPg (s : State) (a : Fin 8) (g : Word) : State := { s with apG := s.apG.set a g }
/-- `LP[f] <- p`. -/
def State.setLP (s : State) (f : Fin 10) (p : OnePole) : State := { s with lp := s.lp.set f p }
/-- `LFO[i] <- l`. -/
def State.setLFO (s : State) (i : Fin 8) (l : Lfo) : State := { s with lfo := s.lfo.set i l }
/-- `SM[k] <- m`. -/
def State.setSM (s : State) (k : Fin 2) (m : Smoother) : State := { s with sm := s.sm.set k m }
/-- The network's own fields. -/
def State.setFdn (s : State) (f : Fdn) : State := { s with fdn := f }
/-- `STATUS`. -/
def State.setStatus (s : State) (t : Status) : State := { s with status := t }

/-! ## Faults (R165 to R171) -/

/-- `raise Fault(cause)` (R167): `ERR` and `CAUSE` are written, the command ends, nothing else is saved or changed.
There is no return from it: only hardware reset clears `ERR` (R171). -/
def raise (c : Cause) (s : State) : State := s.setStatus (s.status.withFault c)

/-- The check every command except EPREP makes first (R168, R169 item 3). -/
def whenPrepared (s : State) (k : State) : State :=
  if s.status.prepared then k else raise .notPrepared s

/-- The checks of a unit command (R169 items 3 and 4): prepared, then `UNIT` in range (R74). -/
def onUnit (limit u : Nat) (s : State) (k : Fin limit → State) : State :=
  whenPrepared s <|
    match unitIndex limit u with
    | some i => k i
    | none => raise .badUnit s

end Sys2Proof.Machine
end

