-- ==== Sys2Proof/Machine/Modulator.lean ====
section
/-! DEFINITION. Modulator, the sinusoidal LFO with dither (spec/43_modulator.md R110 to R116). -/

namespace Sys2Proof.Machine

/-! ## The default generator (R112), arithmetic modulo 2^32 -/

/-- `lcg(s)`. -/
def lcg (s : Word) : Word := 1664525#32 * s + 1013904223#32

/-- `u24(s)`: bits 31:8 as a fraction of 2^24, exact. -/
def u24 (s : Word) : Word := fdiv (floatOf (s.extractLsb 31 8).toNat) 0x4B800000#32

/-- `s0(seed, i)`. -/
def seedMix (seed : Word) (i : Fin 8) : Word := seed ^^^ (0x9E3779B9#32 * BitVec.ofNat 32 (i.val + 1))

/-- `JitInit(seed, i)`. -/
def jitInitDefault (seed : Word) (i : Fin 8) : Word := lcg (seedMix seed i)

/-- `PhaseInit(seed, i)`. -/
def phaseInitDefault (seed : Word) (i : Fin 8) : Word := u24 (jitInitDefault seed i)

/-- `Jitter(js)`: the difference of two uniforms times `JIT_AMP`, and the next state. -/
def jitterDefault (js : Word) : Word × Word :=
  let a := lcg js
  let b := lcg a
  (fmul (fsub (u24 a) (u24 b)) lit1e_4, b)

/-! ## The unit -/

/-- LFOSEED on lane i (R111). -/
def Lfo.seeded (cfg : Cfg) (i : Fin 8) (seed : Word) (l : Lfo) : Lfo :=
  { l with phase := cfg.phaseInit seed i, js := cfg.jitInit seed i }

/-- LFOSETR on lane i (R113). -/
def Lfo.withRate (d : Nat) (i : Nat) (fs rateHz : Word) (l : Lfo) : Lfo :=
  let rate := fclamp rateHz posZero (fmul lit0_5 fs)
  { l with rate := rate, inc := sealNaN d (.lfoInc i) (fdiv rate fs) }

/-- The depth LFOSETD stores (R114). -/
def depthStored (depth : Word) : Word := if isNaN depth || flt depth posZero then posZero else depth

/-- LFOSETD (R114). -/
def Lfo.withDepth (depth : Word) (l : Lfo) : Lfo := { l with depth := depthStored depth }

/-- `out` of R115: sin(2π·phase)·depth + jitter, on the phase before the advance. -/
def Lfo.offset (cfg : Cfg) (l : Lfo) : Word :=
  fadd (fmul (cfg.num.sin (fmul litTwoPi l.phase)) l.depth) (cfg.jitter l.js).1

/-- The phase advance of R115, wrapped by one subtraction. -/
def phaseAdvanced (phase inc : Word) : Word :=
  let p := fadd phase inc
  if fge p lit1 then fsub p lit1 else p

/-- The modulator after LFONEXT (R115). -/
def Lfo.after (cfg : Cfg) (d : Nat) (i : Nat) (l : Lfo) : Lfo :=
  { l with js := (cfg.jitter l.js).2, phase := sealNaN d (.lfoPhase i) (phaseAdvanced l.phase l.inc) }

/-! ## The commands -/

/-- LFOSEED (R111). -/
def lfoseed (cfg : Cfg) (i : Nat) (seed : Word) (s : State) : State :=
  onUnit numLFO i s fun k => s.setLFO k (s.lfo[k].seeded cfg k seed)

/-- LFOSETR (R113). -/
def lfosetr (i : Nat) (rateHz : Word) (s : State) : State :=
  onUnit numLFO i s fun k => s.setLFO k (s.lfo[k].withRate s.draws k s.fs rateHz)

/-- LFOSETD (R114). -/
def lfosetd (i : Nat) (depthSamples : Word) (s : State) : State :=
  onUnit numLFO i s fun k => s.setLFO k (s.lfo[k].withDepth depthSamples)

/-- LFONEXT (R115). -/
def lfonext (cfg : Cfg) (i : Nat) (s : State) : State :=
  onUnit numLFO i s fun k =>
    let y := s.lfo[k].offset cfg
    (s.setLFO k (s.lfo[k].after cfg s.draws k)).putRes 0 y

end Sys2Proof.Machine
end

