-- ==== Sys2Proof/Machine/Configs.lean ====
section
/-! DEFINITION. The two worked instances of `Cfg` (spec/00_scope.md R5; spec/95_test_vectors.md section 0), the two
named buffer layouts (spec/20_memory.md R51), and the instance the machine is built with. -/

namespace Sys2Proof.Machine

/-- `PLANAR` (R51): c·MAXBLOCK + n. -/
def planarAddr (maxBlock _nch c n : Nat) : Nat := c * maxBlock + n

/-- `INTERLEAVED` (R51): n·numChannels + c. -/
def interleavedAddr (_maxBlock nch c n : Nat) : Nat := n * nch + c

/-- `Cfg.DEFAULT` (R5). -/
def cfgDefault : Cfg where
  lref := #v[1103, 1301, 1531, 1801, 2113, 2477, 2903, 3407]
  apref := #v[113, 163, 241, 347, 127, 179, 257, 367]
  modmaskVariant1 := false
  smoothSeconds := lit0_05
  wm := Vector.replicate 8 .plus
  ws := #v[.plus, .minus, .plus, .minus, .plus, .minus, .plus, .minus]
  perm := #v[0, 2, 4, 6, 1, 3, 5, 7]
  phaseInit := phaseInitDefault
  jitInit := jitInitDefault
  jitter := jitterDefault
  num := numDefault
  capMax := 2 ^ 20
  fsMin := 0x40BF400000000000#64
  fsMax := 0x4107700000000000#64
  blockMax := 2 ^ 24 - 1
  bufAddr := planarAddr

/-- `Cfg.TINY` (spec/95_test_vectors.md section 0). -/
def cfgTiny : Cfg :=
  { cfgDefault with
    lref := #v[3, 5, 7, 11, 13, 17, 19, 23]
    apref := #v[1, 2, 3, 5, 1, 2, 3, 5]
    smoothSeconds := 0x38A7C5AC#32
    phaseInit := fun _ _ => posZero
    jitInit := fun _ _ => 0
    jitter := fun js => (posZero, js) }

/-- The instance the fixed machine (`exec`, `step`) is built with: `Cfg.DEFAULT` (DESIGN CHOICE, log 3). Every
operation takes its `Cfg` as an argument, so `execIn` and `stepIn` run any other. -/
def cfg : Cfg := cfgDefault

end Sys2Proof.Machine
end

