-- ==== Sys2Proof/Machine/DelayLine.lean ====
section
/-! DEFINITION. DelayLine, the fractional-delay interpolator (spec/40_delayline.md R90 to R99). -/

namespace Sys2Proof.Machine

/-! ## The unit -/

/-- A line sized for `maxDelay` samples (R90): zero-filled, so nothing is listed. R5 bounds `CAP_MAX` below
only: a capacity of 2^32 or more is kept whole (DESIGN CHOICE, log 26). -/
def DelayLine.prepared (maxDelay : Nat) : DelayLine :=
  { cap := nextPow2 (maxDelay + 4), w := 0, base := 0, ram := [] }

/-- `tap(u, k)` (R91): the word k places before the cursor, modulo the capacity. -/
def DelayLine.tap (d : DelayLine) (k : Nat) : Word := memRead d.ram (((d.w : Int) - k) % d.cap).toNat

/-- DLRST (R92): zero fill and cursor 0; `cap` and `base` stay. -/
def DelayLine.cleared (d : DelayLine) : DelayLine := { d with w := 0, ram := [] }

/-- `D` of R93: delay + modOffset clamped into [1, cap − 3]. -/
def DelayLine.totalDelay (d : DelayLine) (delay modOffset : Word) : Word :=
  fclamp (fadd delay modOffset) lit1 (floatOf (d.cap - 3))

/-- `Df` of R93: the fraction of a total delay. -/
def delayFraction (D : Word) : Word := fsub D (floatOf (ffloor D))

/-- DLSETD (R94). -/
def DelayLine.withBase (d : DelayLine) (delay : Nat) : DelayLine := { d with base := min delay (d.cap - 4) }

/-- DLPUSH (R95): the word is stored unchanged. -/
def DelayLine.push (d : DelayLine) (x : Word) : DelayLine :=
  { d with ram := memWrite d.ram d.w x, w := (d.w + 1) % d.cap }

/-- The y of R96: a + Df · (b − a). -/
def linearInterp (a b df : Word) : Word := fadd a (fmul df (fsub b a))

/-- The y of R97 from the four taps and the fraction d. -/
def lagrangeInterp (xm1 x0 x1 x2 d : Word) : Word :=
  let dm1 := fsub d lit1
  let dm2 := fsub d lit2
  let dp1 := fadd d lit1
  let p := fmul d dm1
  let cm1 := fneg (fdiv (fmul p dm2) lit6)
  let c0 := fdiv (fmul (fmul dp1 dm1) dm2) lit2
  let c1 := fneg (fdiv (fmul (fmul dp1 d) dm2) lit2)
  let c2 := fdiv (fmul dp1 p) lit6
  fadd (fadd (fadd (fmul cm1 xm1) (fmul c0 x0)) (fmul c1 x1)) (fmul c2 x2)

/-- The linear read (R96). -/
def DelayLine.readLinear (d : DelayLine) (delay modOffset : Word) : Word :=
  let D := d.totalDelay delay modOffset
  let Di := ffloor D
  linearInterp (d.tap Di) (d.tap (Di + 1)) (delayFraction D)

/-- The cubic read (R97). -/
def DelayLine.readCubic (d : DelayLine) (delay modOffset : Word) : Word :=
  let D := d.totalDelay delay modOffset
  let Di := ffloor D
  lagrangeInterp (d.tap (Di - 1)) (d.tap Di) (d.tap (Di + 1)) (d.tap (Di + 2)) (delayFraction D)

/-- The read a mode bit selects (R98: 0 linear, 1 cubic). -/
def DelayLine.read (d : DelayLine) (cubic : Bool) (delay modOffset : Word) : Word :=
  if cubic then d.readCubic delay modOffset else d.readLinear delay modOffset

/-! ## The commands -/

/-- DLPREP (R90). -/
def dlprep (cfg : Cfg) (u : Nat) (maxDelay : Word) (s : State) : State :=
  onUnit numDL u s fun i =>
    if cfg.capMax < u32 maxDelay + 4 then raise .badConfig s
    else s.setDL i (DelayLine.prepared (u32 maxDelay))

/-- DLRST (R92). -/
def dlrst (u : Nat) (s : State) : State := onUnit numDL u s fun i => s.setDL i s.dl[i].cleared

/-- DLSETD (R94). -/
def dlsetd (u : Nat) (delay : Word) (s : State) : State :=
  onUnit numDL u s fun i => s.setDL i (s.dl[i].withBase (u32 delay))

/-- DLPUSH (R95). -/
def dlpush (u : Nat) (x : Word) (s : State) : State := onUnit numDL u s fun i => s.setDL i (s.dl[i].push x)

/-- DLRDLIN (R96). -/
def dlrdlin (u : Nat) (delay modOffset : Word) (s : State) : State :=
  onUnit numDL u s fun i => s.putRes 0 (s.dl[i].readLinear delay modOffset)

/-- DLRDLAG (R97). -/
def dlrdlag (u : Nat) (delay modOffset : Word) (s : State) : State :=
  onUnit numDL u s fun i => s.putRes 0 (s.dl[i].readCubic delay modOffset)

/-- DLPROC (R98): the read sees the line before x is written. -/
def dlproc (u : Nat) (mode : Bool) (x delay modOffset : Word) (s : State) : State :=
  onUnit numDL u s fun i =>
    let y := s.dl[i].read mode delay modOffset
    (s.setDL i (s.dl[i].push x)).putRes 0 y

end Sys2Proof.Machine
end

