-- ==== Sys2Proof/Machine/Allpass.lean ====
section
/-! DEFINITION. Allpass, the Schroeder allpass diffuser (spec/41_allpass.md R100 to R104). -/

namespace Sys2Proof.Machine

/-! ## The unit -/

/-- The delay line of an allpass of a length (R100); `length` ≤ `cap` − 4 holds by construction. -/
def allpassLine (length : Nat) : DelayLine := { DelayLine.prepared length with base := length }

/-- The gain APSETG stores (R102). -/
def allpassGain (g : Word) : Word := fclamp g posZero lit0_999

/-- `delayed` of R103: the linear read at the line's base delay. -/
def allpassDelayed (d : DelayLine) : Word := d.readLinear (floatOf d.base) posZero

/-- y = delayed − g·x (R103). -/
def allpassOut (delayed g x : Word) : Word := fsub delayed (fmul g x)

/-- pushed = x + g·y (R103). -/
def allpassPushed (g x y : Word) : Word := fadd x (fmul g y)

/-- One sample through `AP[a]` (R103): the output and the state with the line advanced. -/
def State.allpass (s : State) (a : Fin 8) (x : Word) : Word × State :=
  let u := apLine a
  let g := s.apG[a]
  let y := allpassOut (allpassDelayed s.dl[u]) g x
  (y, s.setDL u (s.dl[u].push (sealNaN s.draws (.ram u) (allpassPushed g x y))))

/-! ## The commands -/

/-- APPREP (R100). -/
def apprep (cfg : Cfg) (a : Nat) (length : Word) (s : State) : State :=
  onUnit numAP a s fun i =>
    if cfg.capMax < u32 length + 4 then raise .badConfig s
    else s.setDL (apLine i) (allpassLine (u32 length))

/-- APRST (R101). -/
def aprst (a : Nat) (s : State) : State :=
  onUnit numAP a s fun i => s.setDL (apLine i) s.dl[apLine i].cleared

/-- APSETG (R102). -/
def apsetg (a : Nat) (g : Word) (s : State) : State := onUnit numAP a s fun i => s.setAPg i (allpassGain g)

/-- APPROC (R103). -/
def approc (a : Nat) (x : Word) (s : State) : State :=
  onUnit numAP a s fun i =>
    let (y, s') := s.allpass i x
    s'.putRes 0 y

end Sys2Proof.Machine
end

