-- ==== Sys2Proof/Machine/OnePole.lean ====
section
/-! DEFINITION. OnePoleLP, the one-pole low-pass filter (spec/42_onepole.md R105 to R108). -/

namespace Sys2Proof.Machine

/-! ## The unit -/

/-- `hc` of R106: the cutoff clamped into [1, 0.49·FS]. -/
def cutoffClamped (fs hz : Word) : Word := fclamp hz lit1 (fmul lit0_49 fs)

/-- The coefficient G = gg / (1 + gg), gg = tan(π·hc / FS) (R106). -/
def cutoffCoef (cfg : Cfg) (fs hz : Word) : Word :=
  let gg := cfg.num.tan (fdiv (fmul litPi (cutoffClamped fs hz)) fs)
  fdiv gg (fadd lit1 gg)

/-- LPRST (R105). -/
def OnePole.cleared (p : OnePole) : OnePole := { p with s := posZero }

/-- LPSETC (R106) on filter f while the draw counter is `d`. -/
def OnePole.withCutoff (cfg : Cfg) (d : Nat) (f : Nat) (fs hz : Word) (p : OnePole) : OnePole :=
  { p with G := sealNaN d (.lpCoef f) (cutoffCoef cfg fs hz) }

/-- `v` of R107. -/
def OnePole.delta (p : OnePole) (x : Word) : Word := fmul p.G (fsub x p.s)

/-- `y` of R107. -/
def OnePole.out (p : OnePole) (x : Word) : Word := fadd p.s (p.delta x)

/-- The filter after one sample (R107): s ← y + v. -/
def OnePole.after (d : Nat) (f : Nat) (p : OnePole) (x : Word) : OnePole :=
  { p with s := sealNaN d (.lpState f) (fadd (p.out x) (p.delta x)) }

/-- One sample through `LP[f]` (R107). -/
def State.lowpass (s : State) (f : Fin 10) (x : Word) : Word × State :=
  (s.lp[f].out x, s.setLP f (s.lp[f].after s.draws f x))

/-- LPSETC on `LP[f]` (R106). -/
def State.setCutoff (cfg : Cfg) (s : State) (f : Fin 10) (hz : Word) : State :=
  s.setLP f (s.lp[f].withCutoff cfg s.draws f s.fs hz)

/-! ## The commands -/

/-- LPRST (R105). -/
def lprst (f : Nat) (s : State) : State := onUnit numLP f s fun i => s.setLP i s.lp[i].cleared

/-- LPSETC (R106). -/
def lpsetc (cfg : Cfg) (f : Nat) (hz : Word) (s : State) : State :=
  onUnit numLP f s fun i => s.setCutoff cfg i hz

/-- LPPROC (R107). -/
def lpproc (f : Nat) (x : Word) (s : State) : State :=
  onUnit numLP f s fun i =>
    let (y, s') := s.lowpass i x
    s'.putRes 0 y

end Sys2Proof.Machine
end

