-- ==== Sys2Proof/Machine/Fdn.lean ====
section
/-! DEFINITION. The 8-line feedback delay network, its Hadamard mixer and the stereo matrix
(spec/44_fdn8.md R120 to R133). The lanes of a tick do not see one another inside a step of R129, so each
step is one function of the lane index. -/

namespace Sys2Proof.Machine

/-! ## Preparation and the lengths and gains (R121, R123) -/

/-- `depthMax` of R121: samples in 10 ms. -/
def depthMax (fs : Word) : Nat := rnd (fdiv (fmul lit10 fs) lit1000)

/-- The `maxDelaySamples` of network lane i (R121). -/
def fdnMaxDelay (cfg : Cfg) (fs fsr : Word) (i : Fin 8) : Nat :=
  rnd (fmul (fmul (floatOf cfg.lref[i]) fsr) lit1_5) + depthMax fs + 1

/-- The coefficient `XF_ALPHA` (R121). -/
def xfAlphaOf (cfg : Cfg) (fs : Word) : Word :=
  fsub lit1 (cfg.num.exp (fdiv litNeg1 (fmul lit0_075 fs)))

/-- `L[i]` of R123. -/
def laneLength (cfg : Cfg) (fsr scale : Word) (cap : Nat) (i : Fin 8) : Nat :=
  clampInt (rnd (fmul (fmul (floatOf cfg.lref[i]) fsr) scale)) 1 (cap - 4)

/-- `g[i]` of R123. -/
def laneGain (cfg : Cfg) (fs rt60 : Word) (length : Nat) : Word :=
  fclamp (cfg.num.pow10 (fdiv (fmul litNeg3 (floatOf length)) (fmul rt60 fs))) posZero lit0_99

/-- Replace the eight network lines, `DL[10..17]`. -/
def mapLanes (dl : Vector DelayLine 18) (f : Fin 8 → DelayLine → DelayLine) : Vector DelayLine 18 :=
  Vector.ofFn fun u => if h : 10 ≤ u.val then f ⟨u.val - 10, by omega⟩ dl[u] else dl[u]

/-- Replace the eight damping filters, `LP[0..7]`. -/
def mapDamp (lp : Vector OnePole 10) (f : Fin 8 → OnePole → OnePole) : Vector OnePole 10 :=
  Vector.ofFn fun j => if h : j.val < 8 then f ⟨j.val, h⟩ lp[j] else lp[j]

/-- The lines with the lengths of R123. -/
def State.newLines (cfg : Cfg) (s : State) : Vector DelayLine 18 :=
  mapLanes s.dl fun i d => { d with base := laneLength cfg s.fsr s.fdn.scale d.cap i }

/-- The gains of R123 for the lengths just set. -/
def State.newGains (cfg : Cfg) (s : State) : Vector Word 8 :=
  Vector.ofFn fun i => laneGain cfg s.fs s.fdn.rt60 (s.newLines cfg)[fdnLine i].base

/-- The procedure of R123: the line lengths, then the gains from them. -/
def State.relength (cfg : Cfg) (s : State) : State :=
  { s with dl := s.newLines cfg, fdn := { s.fdn with g := s.newGains cfg } }

/-! ## Setters on the state -/

/-- FSETSIZE (R124). -/
def State.setSize (cfg : Cfg) (s : State) (scale : Word) : State :=
  (s.setFdn { s.fdn with scale := fclamp scale lit0_5 lit1_5 }).relength cfg

/-- FSETRT60 (R125). -/
def State.setRT60 (cfg : Cfg) (s : State) (seconds : Word) : State :=
  (s.setFdn { s.fdn with rt60 := fclamp seconds lit0_1 lit60 }).relength cfg

/-- FSETDAMP (R126). -/
def State.setDamp (cfg : Cfg) (s : State) (hz : Word) : State :=
  { s with lp := mapDamp s.lp fun i p => p.withCutoff cfg s.draws i s.fs hz }

/-- Whether lane i is modulated (R127: the depth mask of the built variant). -/
def laneModulated (cfg : Cfg) (i : Fin 8) : Bool :=
  if cfg.modmaskVariant1 then decide (2 ≤ i.val) else decide (4 ≤ i.val)

/-- `di` of R127. -/
def laneDepth (cfg : Cfg) (fs depthMs : Word) (i : Fin 8) : Word :=
  if laneModulated cfg i then fdiv (fmul (fclamp depthMs posZero lit10) fs) lit1000 else posZero

/-- The rate R127 gives lane i: rateHz · (1 + 0.03·i). -/
def laneRate (rateHz : Word) (i : Fin 8) : Word := fmul rateHz (fadd lit1 (fmul lit0_03 (floatOf i.val)))

/-- Lane i's modulator after FSETMOD (R127). -/
def State.modLfo (cfg : Cfg) (s : State) (rateHz depthMs : Word) (i : Fin 8) : Lfo :=
  (s.lfo[i].withRate s.draws i s.fs (laneRate rateHz i)).withDepth (laneDepth cfg s.fs depthMs i)

/-- Lane i's interpolation mode after FSETMOD (R127): cubic when the depth exceeds 8·FSR. -/
def State.modMode (cfg : Cfg) (s : State) (depthMs : Word) (i : Fin 8) : Bool :=
  flt (fmul lit8 s.fsr) (laneDepth cfg s.fs depthMs i)

/-- FSETMOD (R127). -/
def State.setMod (cfg : Cfg) (s : State) (rateHz depthMs : Word) : State :=
  { s with
    lfo := Vector.ofFn (s.modLfo cfg rateHz depthMs)
    fdn := { s.fdn with mode := Vector.ofFn (s.modMode cfg depthMs) } }

/-- FSETFRZ (R128). -/
def State.setFreeze (s : State) (on : Bool) : State :=
  s.setFdn { s.fdn with xfT := if on then lit1 else posZero }

/-! ## The mixer (R130) -/

/-- One butterfly stage with stride h. -/
def butterfly (h : Fin 8) (a : Vector Word 8) : Vector Word 8 :=
  Vector.ofFn fun i => if i.val / h.val % 2 = 0 then fadd a[i] a[i + h] else fsub a[i - h] a[i]

/-- `hadamard8(r)` (R130). -/
def hadamard8 (r : Vector Word 8) : Vector Word 8 :=
  let a := butterfly 4 (butterfly 2 (butterfly 1 r))
  Vector.ofFn fun i => fmul a[i] litInvSqrt8

/-! ## The tick (R129) -/

/-- The crossfade after one tick (R129 step 1). -/
def crossfade (xf xfT alpha : Word) : Word := fadd xf (fmul (fsub xfT xf) alpha)

/-- The read of lane i (R129 step 2), at its base delay plus its modulator's offset. -/
def State.laneRead (cfg : Cfg) (s : State) (i : Fin 8) : Word :=
  s.dl[fdnLine i].read s.fdn.mode[i] (floatOf s.dl[fdnLine i].base) (s.lfo[i].offset cfg)

/-- `ge` of R129 step 4: the gain blended toward `G_FRZ`. -/
def laneBlend (g xf : Word) : Word := fadd g (fmul (fsub lit0_99995 g) xf)

/-- `inj` of R129 step 4: +xi on even lanes, −xi on odd lanes. -/
def laneInject (xi : Word) (i : Fin 8) : Word := if i.val % 2 = 0 then xi else fneg xi

/-- `FDN.xf` after the tick's step 1. -/
def State.tickXf (s : State) : Word := sealNaN s.draws .xf (crossfade s.fdn.xf s.fdn.xfT s.xfAlpha)

/-- The eight reads of step 2, all before any push. -/
def State.tickReads (cfg : Cfg) (s : State) : Vector Word 8 := Vector.ofFn (s.laneRead cfg)

/-- `ge · m[i]` of step 4: lane i's mixed signal times its effective gain. -/
def State.tickDrive (cfg : Cfg) (s : State) (i : Fin 8) : Word :=
  fmul (laneBlend s.fdn.g[i] s.tickXf) (hadamard8 (s.tickReads cfg))[i]

/-- `fb + inj` of step 4: what lane i pushes. -/
def State.tickPushed (cfg : Cfg) (s : State) (xIn : Word) (i : Fin 8) : Word :=
  fadd (s.lp[dampLP i].out (s.tickDrive cfg i)) (laneInject (fmul xIn (fsub lit1 s.tickXf)) i)

/-- The modulators after step 2. -/
def State.tickLfo (cfg : Cfg) (s : State) (i : Fin 8) : Lfo := s.lfo[i].after cfg s.draws i

/-- The filters after step 4. -/
def State.tickLP (cfg : Cfg) (s : State) : Vector OnePole 10 :=
  mapDamp s.lp fun i p => p.after s.draws i (s.tickDrive cfg i)

/-- The lines after step 4. -/
def State.tickDL (cfg : Cfg) (s : State) (xIn : Word) : Vector DelayLine 18 :=
  mapLanes s.dl fun i d => d.push (sealNaN s.draws (.ram (fdnLine i)) (s.tickPushed cfg xIn i))

/-- The state after one network step (R129 steps 1 to 4). -/
def State.tickState (cfg : Cfg) (s : State) (xIn : Word) : State :=
  { s with
    fdn := { s.fdn with xf := s.tickXf }
    lfo := Vector.ofFn (s.tickLfo cfg)
    lp := s.tickLP cfg
    dl := s.tickDL cfg xIn }

/-- One network step (R129): the eight pre-feedback reads (step 5), and the state after. -/
def State.tick (cfg : Cfg) (s : State) (xIn : Word) : Vector Word 8 × State :=
  (s.tickReads cfg, s.tickState cfg xIn)

/-! ## The stereo matrix (R132) -/

/-- `float(±1)`. -/
def signWord : Sign → Word
  | .plus => lit1
  | .minus => litNeg1

/-- A weighted sum of eight values in index order: the first product, then seven additions (R132). -/
def weightedSum (weights : Vector Sign 8) (v : Fin 8 → Word) : Word :=
  let term := fun i : Fin 8 => fmul (signWord weights[i]) (v i)
  fadd (fadd (fadd (fadd (fadd (fadd (fadd (term 0) (term 1)) (term 2)) (term 3)) (term 4)) (term 5))
    (term 6)) (term 7)

/-- `mid` of R132. -/
def mixMid (cfg : Cfg) (v : Vector Word 8) : Word := fmul lit0_25 (weightedSum cfg.wm fun i => v[i])

/-- `side` of R132. -/
def mixSide (cfg : Cfg) (v : Vector Word 8) : Word := fmul lit0_25 (weightedSum cfg.ws fun i => v[cfg.perm[i]])

/-- `ss` of R132: sin(π/2 · width), the width clamped into [0, 1]. -/
def sideScale (cfg : Cfg) (width : Word) : Word := cfg.num.sin (fmul litHalfPi (fclamp width posZero lit1))

/-- `ms` of R132: √(1 − ss²), a negative radicand taken as 0. -/
def midScale (ss : Word) : Word :=
  let t := fsub lit1 (fmul ss ss)
  fsqrt (if flt t posZero then posZero else t)

/-- `(outL, outR)` of R132. -/
def mixStereo (cfg : Cfg) (v : Vector Word 8) (width : Word) : Word × Word :=
  let ss := sideScale cfg width
  let a := fmul (midScale ss) (mixMid cfg v)
  let b := fmul ss (mixSide cfg v)
  (fadd a b, fsub a b)

/-! ## The commands -/

/-- FSETSIZE (R124). -/
def fsetsize (cfg : Cfg) (scale : Word) (s : State) : State := whenPrepared s (s.setSize cfg scale)

/-- FSETRT60 (R125). -/
def fsetrt60 (cfg : Cfg) (seconds : Word) (s : State) : State := whenPrepared s (s.setRT60 cfg seconds)

/-- FSETDAMP (R126). -/
def fsetdamp (cfg : Cfg) (hz : Word) (s : State) : State := whenPrepared s (s.setDamp cfg hz)

/-- FSETMOD (R127). -/
def fsetmod (cfg : Cfg) (rateHz depthMs : Word) (s : State) : State :=
  whenPrepared s (s.setMod cfg rateHz depthMs)

/-- FSETFRZ (R128). -/
def fsetfrz (on : Bool) (s : State) : State := whenPrepared s (s.setFreeze on)

/-- FTICK (R129). -/
def ftick (cfg : Cfg) (xIn : Word) (s : State) : State :=
  whenPrepared s <|
    let (r, s') := s.tick cfg xIn
    s'.putAllRes r

/-- FMIX (R132). -/
def fmix (cfg : Cfg) (v : Vector Word 8) (width : Word) (s : State) : State :=
  whenPrepared s <|
    let (l, r) := mixStereo cfg v width
    (s.putRes 0 l).putRes 1 r

end Sys2Proof.Machine
end

