-- ==== Sys2Proof/Machine/Smoother.lean ====
section
/-! DEFINITION. Smoother, the sample-rate-based linear ramp (spec/45_smoother.md R140 to R144). -/

namespace Sys2Proof.Machine

/-! ## The unit -/

/-- `SM_N` (R140), as an unbounded integer. R6 says that every stored integer stays below 2^32, and R5 puts no upper bound on
`SMOOTH_SECONDS`: under a `Cfg` with `SMOOTH_SECONDS`·`FS` at 2^32 or more the whole integer is kept here and in a ramp's
count (DESIGN CHOICE, log 26). With `Cfg.DEFAULT` it is at most 9600. -/
def rampLength (cfg : Cfg) (fs : Word) : Nat := max 1 (rnd (fmul cfg.smoothSeconds fs))

/-- A smoother as EPREP leaves it (R140). -/
def Smoother.prepared : Smoother := { cur := posZero, target := posZero, step := posZero, count := 0 }

/-- SMSET (R141): a NaN or the current target changes nothing, any other target starts a ramp of `smN` samples. -/
def Smoother.toward (d : Nat) (k : Nat) (smN : Nat) (t : Word) (m : Smoother) : Smoother :=
  if isNaN t || feq t m.target then m
  else { m with target := t, count := smN, step := sealNaN d (.smStep k) (fdiv (fsub t m.cur) (floatOf smN)) }

/-- SMNEXT's state change (R142): the last step of a ramp stores the target itself. -/
def Smoother.advanced (d : Nat) (k : Nat) (m : Smoother) : Smoother :=
  match m.count with
  | 0 => m
  | 1 => { m with count := 0, cur := m.target }
  | c + 2 => { m with count := c + 1, cur := sealNaN d (.smCur k) (fadd m.cur m.step) }

/-- SMSNAP (R143). -/
def Smoother.snapped (m : Smoother) : Smoother := { m with cur := m.target, count := 0, step := posZero }

/-- One sample of `SM[k]` (R142): the value after the advance, and the state. -/
def State.smooth (s : State) (k : Fin 2) : Word × State :=
  let m := s.sm[k].advanced s.draws k
  (m.cur, s.setSM k m)

/-! ## The commands -/

/-- SMSET (R141). -/
def smset (k : Nat) (target : Word) (s : State) : State :=
  onUnit numSM k s fun j => s.setSM j (s.sm[j].toward s.draws j s.smN target)

/-- SMNEXT (R142): `RES[0]` gets the word of `cur`. -/
def smnext (k : Nat) (s : State) : State :=
  onUnit numSM k s fun j =>
    let (v, s') := s.smooth j
    s'.copyRes 0 v

/-- SMSNAP (R143). -/
def smsnap (k : Nat) (s : State) : State := onUnit numSM k s fun j => s.setSM j s.sm[j].snapped

end Sys2Proof.Machine
end

