-- ==== Sys2Proof/Machine/Engine.lean ====
section
/-! DEFINITION. ReverbEngine, the sequencer and the four interface commands (spec/46_engine.md R145 to R162). -/

namespace Sys2Proof.Machine

/-! ## EPREP (R146) -/

/-- What EPREP computes from its operands before it writes anything (R146). -/
structure Sizing where
  fs : Word
  fsr : Word
  /-- `pdMax` -/
  predelayMax : Nat
  /-- `apLen[0..7]` -/
  apLen : Vector Nat 8
  /-- `fdnMax[0..7]` -/
  fdnMax : Vector Nat 8
  deriving DecidableEq, Repr

/-- `pdMax` (R146): 200 ms and one sample. -/
def predelayMaxOf (fs : Word) : Nat := rnd (fdiv (fmul lit200 fs) lit1000) + 1

/-- `apLen[a]` (R146). -/
def apLenOf (cfg : Cfg) (fsr : Word) (a : Fin 8) : Nat := max 1 (rnd (fmul (floatOf cfg.apref[a]) fsr))

/-- The sizes for a sample rate; `fsr` is FS / 48000. -/
def sizingOf (cfg : Cfg) (draw : Nat) (fs64 : DWord) : Sizing :=
  let fs := narrow64 fs64
  let fsr := sealNaN draw .fsr (fdiv fs lit48000)
  { fs := fs, fsr := fsr, predelayMax := predelayMaxOf fs
    apLen := Vector.ofFn fun a => apLenOf cfg fsr a
    fdnMax := Vector.ofFn fun i => fdnMaxDelay cfg fs fsr i }

/-- The last check of R146: every capacity asked for fits. -/
def Sizing.fits (cfg : Cfg) (z : Sizing) : Bool :=
  decide (z.predelayMax + 4 ≤ cfg.capMax)
    && (List.finRange 8).all fun i => decide (z.apLen[i] + 4 ≤ cfg.capMax) && decide (z.fdnMax[i] + 4 ≤ cfg.capMax)

/-- The checks of R146 on the operands, all before any write. -/
def prepareAllowed (cfg : Cfg) (nch : Nat) (fs64 : DWord) (maxBlock : Word) (z : Sizing) : Bool :=
  (nch == 1 || nch == 2)
    && !(isNaN64 fs64 || flt64 fs64 cfg.fsMin || flt64 cfg.fsMax fs64)
    && !(maxBlock == 0 || decide (cfg.blockMax < u32 maxBlock))
    && z.fits cfg

/-- The delay lines EPREP leaves (R146, R121), before the network's lengths are set. -/
def preparedLines (z : Sizing) : Vector DelayLine 18 :=
  Vector.ofFn fun u =>
    if h : u.val < 2 then DelayLine.prepared z.predelayMax
    else if h : u.val < 10 then allpassLine z.apLen[u.val - 2]
    else DelayLine.prepared z.fdnMax[u.val - 10]

/-- The network's fields as EPREP starts them (R121). The gains are set by R123 right after. -/
def Fdn.prepared : Fdn :=
  { g := Vector.replicate 8 posZero, mode := Vector.replicate 8 false
    xf := posZero, xfT := posZero, scale := lit1, rt60 := lit1 }

/-- The writes of R146. -/
def State.prepare (cfg : Cfg) (nch : Nat) (fs64 : DWord) (maxBlock : Word) (z : Sizing) (s : State) : State :=
  let s1 : State :=
    { s with
      fs64 := fs64
      fs := z.fs
      fsr := z.fsr
      maxBlock := maxBlock
      nch := BitVec.ofNat 32 nch
      dl := preparedLines z
      apG := Vector.replicate 8 posZero
      xfAlpha := sealNaN s.draws .xfAlpha (xfAlphaOf cfg z.fs)
      fdn := Fdn.prepared
      lp := Vector.replicate 10 { G := posZero, s := posZero }
      lfo := Vector.replicate 8 { phase := posZero, rate := posZero, inc := posZero, depth := posZero, js := 0 }
      smN := rampLength cfg z.fs
      sm := Vector.replicate 2 Smoother.prepared }
  let s2 := s1.relength cfg
  s2.setStatus s2.status.afterPrepare

/-- EPREP (R146). -/
def eprep (cfg : Cfg) (nch : Nat) (fsHi fsLo maxBlock : Word) (s : State) : State :=
  let fs64 := joinWords fsHi fsLo
  let z := sizingOf cfg s.draws fs64
  if prepareAllowed cfg nch fs64 maxBlock z then s.prepare cfg nch fs64 maxBlock z
  else raise .badConfig s

/-! ## ERST (R147) -/

/-- Every delay line and every filter state cleared (R147). -/
def State.clearAudio (s : State) : State :=
  { s with
    dl := Vector.ofFn fun u => s.dl[u].cleared
    lp := Vector.ofFn fun f => s.lp[f].cleared }

/-- ERST (R147). -/
def erst (s : State) : State := whenPrepared s s.clearAudio

/-! ## ESETP (R148) -/

/-- The snapshot ESETP stores: `PRM[12]` keeps bit 0 only (R27, R148). -/
def storedParams (p : Vector Word 13) : Vector Word 13 := p.set 12 (p[12] &&& 1#32)

/-- ESETP (R148). -/
def esetp (p : Vector Word 13) (s : State) : State :=
  whenPrepared s { s with prm := storedParams p, status := s.status.afterParams }

/-! ## EPROC: the snapshot (R149, R150) -/

/-- `pd` of R150. -/
def predelaySamples (fs predelayMs : Word) : Nat :=
  rnd (fdiv (fmul (fclamp predelayMs posZero lit200) fs) lit1000)

/-- `gap` of R150. -/
def diffusionGain (diffusion : Word) : Word :=
  fclamp (fadd lit0_6 (fmul lit0_35 (fclamp diffusion posZero lit1))) posZero lit0_99

/-- The seeding of all eight oscillators at the first application (R150). -/
def State.seedAll (cfg : Cfg) (s : State) : State :=
  { s with lfo := Vector.ofFn fun i => s.lfo[i].seeded cfg i s.prm[11] }

/-- DLSETD on both predelay lines (R150). -/
def State.setPredelay (s : State) (pd : Nat) : State :=
  (s.setDL 0 (s.dl[0].withBase pd)).setDL 1 (s.dl[1].withBase pd)

/-- APSETG on all eight diffusers (R150). -/
def State.setDiffusion (s : State) (g : Word) : State :=
  { s with apG := Vector.replicate 8 (allpassGain g) }

/-- SMSET on `SM[k]` (R141). -/
def State.setTarget (s : State) (k : Fin 2) (t : Word) : State :=
  s.setSM k (s.sm[k].toward s.draws k s.smN t)

/-- SMSNAP on both smoothers, and `FIRST` cleared (R150). -/
def State.finishFirst (s : State) : State :=
  { s with sm := Vector.ofFn fun k => s.sm[k].snapped, status := s.status.afterFirst }

/-- `applySnapshot` (R150). It sets the bases of the predelay lines `DL[0..1]` and of the network lines `DL[10..17]` and of no
other line, as R150's procedure says: a DLSETD on a diffuser line `DL[2..9]` stays, although R192 lists DLSETD without
exception among the setters the next application overwrites (DEDUCED, log 25). -/
def State.applySnapshot (cfg : Cfg) (s : State) : State :=
  let s0 := if s.status.first then s.seedAll cfg else s
  let s1 := s0.setPredelay (predelaySamples s0.fs s0.prm[3])
  let s2 := s1.setDiffusion (diffusionGain s1.prm[4])
  let s3 := s2.setSize cfg s2.prm[2]
  let s4 := s3.setRT60 cfg s3.prm[1]
  let s5 := s4.setDamp cfg (fclamp s4.prm[7] lit1000 lit16000)
  let s6 := s5.setMod cfg (fclamp s5.prm[5] lit0_05 lit3) s5.prm[6]
  let s7 := s6.setFreeze (s6.prm[12].getLsbD 0)
  let s8 := (s7.setCutoff cfg 8 s7.prm[9]).setCutoff cfg 9 s7.prm[9]
  let s9 := s8.setTarget 0 (fdiv (fclamp s8.prm[0] posZero lit100) lit100)
  let s10 := s9.setTarget 1 (fclamp s9.prm[10] posZero lit1)
  if s10.status.first then s10.finishFirst else s10

/-! ## EPROC: one sample (R152 to R161) -/

/-- The word index of `BUF[c][n]` in this block (R51). -/
def State.bufIndex (cfg : Cfg) (s : State) (nch c n : Nat) : Nat := cfg.bufAddr (u32 s.maxBlock) nch c n

/-- Step 1 (R152, R161): the dry input, read before any write. -/
def State.dryInput (cfg : Cfg) (s : State) (nch n : Nat) : Word × Word :=
  let inL := memRead s.buf (s.bufIndex cfg nch 0 n)
  (inL, if nch = 2 then memRead s.buf (s.bufIndex cfg nch 1 n) else inL)

/-- Step 2 on one channel (R153): the linear read at the base delay, then the push of x. -/
def State.predelay (s : State) (u : Fin 18) (x : Word) : Word × State :=
  (s.dl[u].readLinear (floatOf s.dl[u].base) posZero, s.setDL u (s.dl[u].push x))

/-- Step 3 on one channel (R154): the stages in index order. -/
def State.diffuse (s : State) : List (Fin 8) → Word → Word × State
  | [], x => (x, s)
  | a :: rest, x =>
    let y := s.allpass a x
    y.2.diffuse rest y.1

/-- Step 7 (R157): the early-reflection blend. -/
def earlyBlend (wet diffused : Word) : Word := fadd wet (fmul lit0_15 diffused)

/-- Step 8 (R158): a non-finite sample becomes +0.0. -/
def scrub (w : Word) : Word := if isFinite w then w else posZero

/-- Step 9 (R159) on one channel. -/
def wetDry (m dry wet : Word) : Word := fadd (fmul (fsub lit1 m) dry) (fmul (fmul m lit1_2) wet)

/-- Write-back (R160): the left output, and the right one of a two-channel block. -/
def State.writeBack (cfg : Cfg) (s : State) (nch n : Nat) (outL outR : Word) : State :=
  let b := memWrite s.buf (s.bufIndex cfg nch 0 n) (sealNaN s.draws (.buf 0) outL)
  { s with buf := if nch = 2 then memWrite b (s.bufIndex cfg nch 1 n) (sealNaN s.draws (.buf 1) outR) else b }

/-- Steps 2 to 4 (R153 to R155): the two diffused signals, the eight line reads and the state. -/
def State.network (cfg : Cfg) (s : State) (inL inR : Word) : Word × Word × Vector Word 8 × State :=
  let pdL := s.predelay 0 inL
  let pdR := pdL.2.predelay 1 inR
  let dL := pdR.2.diffuse [0, 1, 2, 3] pdL.1
  let dR := dL.2.diffuse [4, 5, 6, 7] pdR.1
  let r := dR.2.tick cfg (fmul lit0_5 (fadd dL.1 dR.1))
  (dL.1, dR.1, r.1, r.2)

/-- Steps 5 to 8 (R156 to R158): the two wet samples. -/
def State.wetPair (cfg : Cfg) (s : State) (dL dR : Word) (r : Vector Word 8) : Word × Word × State :=
  let w := s.smooth 1
  let mixed := mixStereo cfg r w.1
  let wetL := w.2.lowpass 8 mixed.1
  let wetR := wetL.2.lowpass 9 mixed.2
  (scrub (earlyBlend wetL.1 dL), scrub (earlyBlend wetR.1 dR), wetR.2)

/-- The pipeline of one sample n (R152 to R160). -/
def State.sample (cfg : Cfg) (nch n : Nat) (s : State) : State :=
  let dry := s.dryInput cfg nch n
  let net := s.network cfg dry.1 dry.2
  let wet := net.2.2.2.wetPair cfg net.1 net.2.1 net.2.2.1
  let m := wet.2.2.smooth 0
  m.2.writeBack cfg nch n (wetDry m.1 dry.1 wet.1) (wetDry m.1 dry.2 wet.2.1)

/-- `n <- n + 1` (R7, R22), and a fresh draw for the next sample. -/
def State.advance (s : State) : State := { s with n := s.n.map (· + 1), draws := s.draws + 1 }

/-- The loop of R151: `k` samples left, the sample index in `n`. -/
def State.samples (cfg : Cfg) (nch : Nat) : Nat → State → State
  | 0, s => s
  | k + 1, s => State.samples cfg nch k (State.sample cfg nch (s.n.getD 0) s).advance

/-- `n <- 0` as a block begins (R22). -/
def State.beginBlock (s : State) : State := { s with n := some 0 }
/-- The sample counter ceases to exist as the command ends (R22). -/
def State.endBlock (s : State) : State := { s with n := none }

/-- EPROC (R151): the checks, the snapshot, the samples. -/
def eproc (cfg : Cfg) (nch : Nat) (numSamples : Word) (s : State) : State :=
  whenPrepared s <|
    if !s.status.pvalid then raise .noParams s
    else if nch < 1 ∨ u32 s.nch < nch then raise .badCount s
    else if u32 s.maxBlock < u32 numSamples then raise .badCount s
    else (State.samples cfg nch (u32 numSamples) (s.applySnapshot cfg).beginBlock).endBlock

end Sys2Proof.Machine
end

