-- ==== Sys2Proof/Machine/Meanings.lean ====
section
/-! DEFINITION. The meaning of each command on the machine as built (`cfg`), and `execIn`, the same commands for
any configuration record (spec/00_scope.md R5: the rules are stated for every `Cfg`). No command stops the
machine: a protocol violation is the next state `raise` gives (spec/60_exceptions.md R167). -/

namespace Sys2Proof.Machine

/-- EPREP (R146). -/
def execEprep (nch : Nat) (fsHi fsLo maxBlock : Word) (s : State) : Result := .next (eprep cfg nch fsHi fsLo maxBlock s)
/-- ERST (R147). -/
def execErst (s : State) : Result := .next (erst s)
/-- ESETP (R148). -/
def execEsetp (p : Vector Word 13) (s : State) : Result := .next (esetp p s)
/-- EPROC (R151). -/
def execEproc (nch : Nat) (numSamples : Word) (s : State) : Result := .next (eproc cfg nch numSamples s)
/-- DLPREP (R90). -/
def execDlprep (u : Nat) (maxDelay : Word) (s : State) : Result := .next (dlprep cfg u maxDelay s)
/-- DLRST (R92). -/
def execDlrst (u : Nat) (s : State) : Result := .next (dlrst u s)
/-- DLSETD (R94). -/
def execDlsetd (u : Nat) (delay : Word) (s : State) : Result := .next (dlsetd u delay s)
/-- DLPUSH (R95). -/
def execDlpush (u : Nat) (x : Word) (s : State) : Result := .next (dlpush u x s)
/-- DLRDLIN (R96). -/
def execDlrdlin (u : Nat) (delay modOffset : Word) (s : State) : Result := .next (dlrdlin u delay modOffset s)
/-- DLRDLAG (R97). -/
def execDlrdlag (u : Nat) (delay modOffset : Word) (s : State) : Result := .next (dlrdlag u delay modOffset s)
/-- DLPROC (R98). -/
def execDlproc (u : Nat) (mode : Bool) (x delay modOffset : Word) (s : State) : Result :=
  .next (dlproc u mode x delay modOffset s)
/-- APPREP (R100). -/
def execApprep (a : Nat) (length : Word) (s : State) : Result := .next (apprep cfg a length s)
/-- APRST (R101). -/
def execAprst (a : Nat) (s : State) : Result := .next (aprst a s)
/-- APSETG (R102). -/
def execApsetg (a : Nat) (g : Word) (s : State) : Result := .next (apsetg a g s)
/-- APPROC (R103). -/
def execApproc (a : Nat) (x : Word) (s : State) : Result := .next (approc a x s)
/-- LPRST (R105). -/
def execLprst (f : Nat) (s : State) : Result := .next (lprst f s)
/-- LPSETC (R106). -/
def execLpsetc (f : Nat) (hz : Word) (s : State) : Result := .next (lpsetc cfg f hz s)
/-- LPPROC (R107). -/
def execLpproc (f : Nat) (x : Word) (s : State) : Result := .next (lpproc f x s)
/-- LFOSEED (R111). -/
def execLfoseed (i : Nat) (seed : Word) (s : State) : Result := .next (lfoseed cfg i seed s)
/-- LFOSETR (R113). -/
def execLfosetr (i : Nat) (rateHz : Word) (s : State) : Result := .next (lfosetr i rateHz s)
/-- LFOSETD (R114). -/
def execLfosetd (i : Nat) (depthSamples : Word) (s : State) : Result := .next (lfosetd i depthSamples s)
/-- LFONEXT (R115). -/
def execLfonext (i : Nat) (s : State) : Result := .next (lfonext cfg i s)
/-- FSETSIZE (R124). -/
def execFsetsize (scale : Word) (s : State) : Result := .next (fsetsize cfg scale s)
/-- FSETRT60 (R125). -/
def execFsetrt60 (seconds : Word) (s : State) : Result := .next (fsetrt60 cfg seconds s)
/-- FSETDAMP (R126). -/
def execFsetdamp (hz : Word) (s : State) : Result := .next (fsetdamp cfg hz s)
/-- FSETMOD (R127). -/
def execFsetmod (rateHz depthMs : Word) (s : State) : Result := .next (fsetmod cfg rateHz depthMs s)
/-- FSETFRZ (R128). -/
def execFsetfrz (on : Bool) (s : State) : Result := .next (fsetfrz on s)
/-- FTICK (R129). -/
def execFtick (xIn : Word) (s : State) : Result := .next (ftick cfg xIn s)
/-- FMIX (R132). -/
def execFmix (v : Vector Word 8) (width : Word) (s : State) : Result := .next (fmix cfg v width s)
/-- SMSET (R141). -/
def execSmset (k : Nat) (target : Word) (s : State) : Result := .next (smset k target s)
/-- SMNEXT (R142). -/
def execSmnext (k : Nat) (s : State) : Result := .next (smnext k s)
/-- SMSNAP (R143). -/
def execSmsnap (k : Nat) (s : State) : Result := .next (smsnap k s)

/-- A command under any configuration record (R5). -/
def execIn (c : Cfg) (i : Instr) (s : State) : State :=
  match i with
  | .eprep nch fsHi fsLo maxBlock => eprep c nch fsHi fsLo maxBlock s
  | .erst => erst s
  | .esetp p => esetp p s
  | .eproc nch numSamples => eproc c nch numSamples s
  | .dlprep u maxDelay => dlprep c u maxDelay s
  | .dlrst u => dlrst u s
  | .dlsetd u delay => dlsetd u delay s
  | .dlpush u x => dlpush u x s
  | .dlrdlin u delay modOffset => dlrdlin u delay modOffset s
  | .dlrdlag u delay modOffset => dlrdlag u delay modOffset s
  | .dlproc u mode x delay modOffset => dlproc u mode x delay modOffset s
  | .apprep a length => apprep c a length s
  | .aprst a => aprst a s
  | .apsetg a g => apsetg a g s
  | .approc a x => approc a x s
  | .lprst f => lprst f s
  | .lpsetc f hz => lpsetc c f hz s
  | .lpproc f x => lpproc f x s
  | .lfoseed i seed => lfoseed c i seed s
  | .lfosetr i rateHz => lfosetr i rateHz s
  | .lfosetd i depthSamples => lfosetd i depthSamples s
  | .lfonext i => lfonext c i s
  | .fsetsize scale => fsetsize c scale s
  | .fsetrt60 seconds => fsetrt60 c seconds s
  | .fsetdamp hz => fsetdamp c hz s
  | .fsetmod rateHz depthMs => fsetmod c rateHz depthMs s
  | .fsetfrz on => fsetfrz on s
  | .ftick xIn => ftick c xIn s
  | .fmix v width => fmix c v width s
  | .smset k target => smset k target s
  | .smnext k => smnext k s
  | .smsnap k => smsnap k s

end Sys2Proof.Machine
end

