-- ==== Sys2Proof/Machine/Dispatch.lean ====
section
/-! DEFINITION. One arm per command. -/

namespace Sys2Proof.Machine

def exec (i : Instr) (s : State) : Host.Outcome State Fault Refusal :=
  match i with
  | .eprep nch fsHi fsLo maxBlock => Sys2Proof.Machine.execEprep nch fsHi fsLo maxBlock s
  | .erst => Sys2Proof.Machine.execErst s
  | .esetp p => Sys2Proof.Machine.execEsetp p s
  | .eproc nch numSamples => Sys2Proof.Machine.execEproc nch numSamples s
  | .dlprep u maxDelay => Sys2Proof.Machine.execDlprep u maxDelay s
  | .dlrst u => Sys2Proof.Machine.execDlrst u s
  | .dlsetd u delay => Sys2Proof.Machine.execDlsetd u delay s
  | .dlpush u x => Sys2Proof.Machine.execDlpush u x s
  | .dlrdlin u delay modOffset => Sys2Proof.Machine.execDlrdlin u delay modOffset s
  | .dlrdlag u delay modOffset => Sys2Proof.Machine.execDlrdlag u delay modOffset s
  | .dlproc u mode x delay modOffset => Sys2Proof.Machine.execDlproc u mode x delay modOffset s
  | .apprep a length => Sys2Proof.Machine.execApprep a length s
  | .aprst a => Sys2Proof.Machine.execAprst a s
  | .apsetg a g => Sys2Proof.Machine.execApsetg a g s
  | .approc a x => Sys2Proof.Machine.execApproc a x s
  | .lprst f => Sys2Proof.Machine.execLprst f s
  | .lpsetc f hz => Sys2Proof.Machine.execLpsetc f hz s
  | .lpproc f x => Sys2Proof.Machine.execLpproc f x s
  | .lfoseed k seed => Sys2Proof.Machine.execLfoseed k seed s
  | .lfosetr k rateHz => Sys2Proof.Machine.execLfosetr k rateHz s
  | .lfosetd k depthSamples => Sys2Proof.Machine.execLfosetd k depthSamples s
  | .lfonext k => Sys2Proof.Machine.execLfonext k s
  | .fsetsize scale => Sys2Proof.Machine.execFsetsize scale s
  | .fsetrt60 seconds => Sys2Proof.Machine.execFsetrt60 seconds s
  | .fsetdamp hz => Sys2Proof.Machine.execFsetdamp hz s
  | .fsetmod rateHz depthMs => Sys2Proof.Machine.execFsetmod rateHz depthMs s
  | .fsetfrz on => Sys2Proof.Machine.execFsetfrz on s
  | .ftick xIn => Sys2Proof.Machine.execFtick xIn s
  | .fmix v width => Sys2Proof.Machine.execFmix v width s
  | .smset k target => Sys2Proof.Machine.execSmset k target s
  | .smnext k => Sys2Proof.Machine.execSmnext k s
  | .smsnap k => Sys2Proof.Machine.execSmsnap k s

end Sys2Proof.Machine
end

