-- ==== Sys2Proof/WellFormed.lean ====
section
/-! DEFINITION. Which commands have an encoding: the head fields fit their bits (spec/30_encoding.md R71, R72).
A `UNIT` value above its unit's range is well-formed (R74: it decodes, and faults BAD_UNIT when executed),
and so are channel counts 0 and 3 (R76). -/

namespace Sys2Proof

/-- `UNIT` is head-word bits 23:16 (R71). -/
def unitFits (u : Nat) : Bool := decide (u < 256)

/-- `numChannels` is `IMM16[1:0]` (R72). -/
def channelsFit (c : Nat) : Bool := decide (c < 4)

/-- The fields of the command fit the bits the encoding gives them. -/
def Instr.wf : Instr → Bool
  | .eprep nch _ _ _ => channelsFit nch
  | .erst => true
  | .esetp _ => true
  | .eproc nch _ => channelsFit nch
  | .dlprep u _ => unitFits u
  | .dlrst u => unitFits u
  | .dlsetd u _ => unitFits u
  | .dlpush u _ => unitFits u
  | .dlrdlin u _ _ => unitFits u
  | .dlrdlag u _ _ => unitFits u
  | .dlproc u _ _ _ _ => unitFits u
  | .apprep a _ => unitFits a
  | .aprst a => unitFits a
  | .apsetg a _ => unitFits a
  | .approc a _ => unitFits a
  | .lprst f => unitFits f
  | .lpsetc f _ => unitFits f
  | .lpproc f _ => unitFits f
  | .lfoseed i _ => unitFits i
  | .lfosetr i _ => unitFits i
  | .lfosetd i _ => unitFits i
  | .lfonext i => unitFits i
  | .fsetsize _ => true
  | .fsetrt60 _ => true
  | .fsetdamp _ => true
  | .fsetmod _ _ => true
  | .fsetfrz _ => true
  | .ftick _ => true
  | .fmix _ _ => true
  | .smset k _ => unitFits k
  | .smnext k => unitFits k
  | .smsnap k => unitFits k

end Sys2Proof
end

