-- ==== Sys2Proof/Decode.lean ====
section
/-! DEFINITION. The decoder of the command port, total on any stream of words, and after it the encoder
(spec/30_encoding.md R70 to R76). -/

namespace Sys2Proof

/-! ## Head-word fields (R71) -/

/-- `OPC`, bits 31:24. -/
def opcOf (w : Word) : Nat := (w.extractLsb 31 24).toNat
/-- `UNIT`, bits 23:16. -/
def unitOf (w : Word) : Nat := (w.extractLsb 23 16).toNat
/-- `IMM16`, bits 15:0. -/
def immOf (w : Word) : Nat := (w.extractLsb 15 0).toNat

/-! ## The opcode map (R73) -/

/-- The column `OPC` of R73. -/
def Op.code : Op → Nat
  | .eprep => 0x01 | .erst => 0x02 | .esetp => 0x03 | .eproc => 0x04
  | .dlprep => 0x10 | .dlrst => 0x11 | .dlsetd => 0x12 | .dlpush => 0x13
  | .dlrdlin => 0x14 | .dlrdlag => 0x15 | .dlproc => 0x16
  | .apprep => 0x20 | .aprst => 0x21 | .apsetg => 0x22 | .approc => 0x23
  | .lprst => 0x30 | .lpsetc => 0x31 | .lpproc => 0x32
  | .lfoseed => 0x40 | .lfosetr => 0x41 | .lfosetd => 0x42 | .lfonext => 0x43
  | .fsetsize => 0x50 | .fsetrt60 => 0x51 | .fsetdamp => 0x52 | .fsetmod => 0x53
  | .fsetfrz => 0x54 | .ftick => 0x55 | .fmix => 0x56
  | .smset => 0x60 | .smnext => 0x61 | .smsnap => 0x62

/-- The column `fmt` of R73. -/
def Op.format : Op → Format
  | .eprep => .i | .erst => .z | .esetp => .z | .eproc => .i
  | .dlprep => .u | .dlrst => .u | .dlsetd => .u | .dlpush => .u
  | .dlrdlin => .u | .dlrdlag => .u | .dlproc => .ui
  | .apprep => .u | .aprst => .u | .apsetg => .u | .approc => .u
  | .lprst => .u | .lpsetc => .u | .lpproc => .u
  | .lfoseed => .u | .lfosetr => .u | .lfosetd => .u | .lfonext => .u
  | .fsetsize => .z | .fsetrt60 => .z | .fsetdamp => .z | .fsetmod => .z
  | .fsetfrz => .i | .ftick => .z | .fmix => .z
  | .smset => .u | .smnext => .u | .smsnap => .u

/-- The column `len` of R73: words of the command, the head word included. -/
def Op.len : Op → Nat
  | .eprep => 4 | .erst => 1 | .esetp => 14 | .eproc => 2
  | .dlprep => 2 | .dlrst => 1 | .dlsetd => 2 | .dlpush => 2
  | .dlrdlin => 3 | .dlrdlag => 3 | .dlproc => 4
  | .apprep => 2 | .aprst => 1 | .apsetg => 2 | .approc => 2
  | .lprst => 1 | .lpsetc => 2 | .lpproc => 2
  | .lfoseed => 2 | .lfosetr => 2 | .lfosetd => 2 | .lfonext => 1
  | .fsetsize => 2 | .fsetrt60 => 2 | .fsetdamp => 2 | .fsetmod => 3
  | .fsetfrz => 1 | .ftick => 2 | .fmix => 10
  | .smset => 2 | .smnext => 1 | .smsnap => 1

/-- How many low bits of `IMM16` the command uses (R72, R75): two in EPREP and EPROC, one in DLPROC and
FSETFRZ, none elsewhere. -/
def Op.immBits : Op → Nat
  | .eprep => 2 | .eproc => 2 | .dlproc => 1 | .fsetfrz => 1
  | .erst => 0 | .esetp => 0
  | .dlprep => 0 | .dlrst => 0 | .dlsetd => 0 | .dlpush => 0 | .dlrdlin => 0 | .dlrdlag => 0
  | .apprep => 0 | .aprst => 0 | .apsetg => 0 | .approc => 0
  | .lprst => 0 | .lpsetc => 0 | .lpproc => 0
  | .lfoseed => 0 | .lfosetr => 0 | .lfosetd => 0 | .lfonext => 0
  | .fsetsize => 0 | .fsetrt60 => 0 | .fsetdamp => 0 | .fsetmod => 0 | .ftick => 0 | .fmix => 0
  | .smset => 0 | .smnext => 0 | .smsnap => 0

/-- Whether the command addresses a unit (formats `U` and `UI`, R71). -/
def Op.usesUnit (o : Op) : Bool := o.format == .u || o.format == .ui

/-- Every row of the map, in its order. -/
def Op.all : List Op :=
  [.eprep, .erst, .esetp, .eproc, .dlprep, .dlrst, .dlsetd, .dlpush, .dlrdlin, .dlrdlag, .dlproc,
    .apprep, .aprst, .apsetg, .approc, .lprst, .lpsetc, .lpproc, .lfoseed, .lfosetr, .lfosetd, .lfonext,
    .fsetsize, .fsetrt60, .fsetdamp, .fsetmod, .fsetfrz, .ftick, .fmix, .smset, .smnext, .smsnap]

/-- The row an opcode names, if any (R73, R75: every other opcode is reserved and illegal). -/
def Op.ofCode (c : Nat) : Option Op := Op.all.find? fun o => o.code == c

/-! ## Decoding -/

/-- Why a stream has no command at its front. -/
inductive Reject where
  /-- no head word has arrived yet (R70) -/
  | noHead
  /-- the head word is legal and some of its operand words have not arrived (R70) -/
  | truncated
  /-- `OPC` is not in R73 (R75) -/
  | unknownOpcode
  /-- `UNIT` ≠ 0 in a command that addresses no unit (R75) -/
  | unitNotZero
  /-- a bit of `IMM16` the command does not use is 1 (R75) -/
  | immNotZero
  deriving DecidableEq, Repr

/-- The command at the front of a stream with the words after it, or why there is none. -/
inductive Decoded where
  | command (i : Instr) (rest : List Word)
  | rejected (r : Reject)
  deriving DecidableEq, Repr

/-- The legality of a head word alone (R75, R169 item 2): its row, or the reason it is illegal. -/
def headRow (h : Word) : Except Reject Op :=
  match Op.ofCode (opcOf h) with
  | none => .error .unknownOpcode
  | some o =>
    if unitOf h ≠ 0 && !o.usesUnit then .error .unitNotZero
    else if 2 ^ o.immBits ≤ immOf h then .error .immNotZero
    else .ok o

/-- A command without operand words. -/
def build0 (i : Instr) (ws : List Word) : Option Instr :=
  match ws with
  | [] => some i
  | _ => none

/-- A command with one operand word. -/
def build1 (f : Word → Instr) (ws : List Word) : Option Instr :=
  match ws with
  | [a] => some (f a)
  | _ => none

/-- A command with two operand words. -/
def build2 (f : Word → Word → Instr) (ws : List Word) : Option Instr :=
  match ws with
  | [a, b] => some (f a b)
  | _ => none

/-- A command with three operand words. -/
def build3 (f : Word → Word → Word → Instr) (ws : List Word) : Option Instr :=
  match ws with
  | [a, b, c] => some (f a b c)
  | _ => none

/-- ESETP from its thirteen operand words. -/
def buildEsetp (ws : List Word) : Option Instr :=
  match ws with
  | [a, b, c, d, e, f, g, h, i, j, k, l, m] => some (.esetp #v[a, b, c, d, e, f, g, h, i, j, k, l, m])
  | _ => none

/-- FMIX from its nine operand words. -/
def buildFmix (ws : List Word) : Option Instr :=
  match ws with
  | [a, b, c, d, e, f, g, h, w] => some (.fmix #v[a, b, c, d, e, f, g, h] w)
  | _ => none

/-- The command of a row from its head fields and its operand words (R72, R73). -/
def buildInstr (o : Op) (u imm : Nat) : List Word → Option Instr :=
  match o with
  | .eprep => build3 (.eprep imm)
  | .erst => build0 .erst
  | .esetp => buildEsetp
  | .eproc => build1 (.eproc imm)
  | .dlprep => build1 (.dlprep u)
  | .dlrst => build0 (.dlrst u)
  | .dlsetd => build1 (.dlsetd u)
  | .dlpush => build1 (.dlpush u)
  | .dlrdlin => build2 (.dlrdlin u)
  | .dlrdlag => build2 (.dlrdlag u)
  | .dlproc => build3 (.dlproc u (imm == 1))
  | .apprep => build1 (.apprep u)
  | .aprst => build0 (.aprst u)
  | .apsetg => build1 (.apsetg u)
  | .approc => build1 (.approc u)
  | .lprst => build0 (.lprst u)
  | .lpsetc => build1 (.lpsetc u)
  | .lpproc => build1 (.lpproc u)
  | .lfoseed => build1 (.lfoseed u)
  | .lfosetr => build1 (.lfosetr u)
  | .lfosetd => build1 (.lfosetd u)
  | .lfonext => build0 (.lfonext u)
  | .fsetsize => build1 .fsetsize
  | .fsetrt60 => build1 .fsetrt60
  | .fsetdamp => build1 .fsetdamp
  | .fsetmod => build2 .fsetmod
  | .fsetfrz => build0 (.fsetfrz (imm == 1))
  | .ftick => build1 .ftick
  | .fmix => buildFmix
  | .smset => build1 (.smset u)
  | .smnext => build0 (.smnext u)
  | .smsnap => build0 (.smsnap u)

/-- Decode the front of a word stream (R70, R75, R76): an illegal head word is rejected on the head word
alone; a legal one waits until all the operand words its opcode fixes have arrived. -/
def decode : List Word → Decoded
  | [] => .rejected .noHead
  | h :: t =>
    match headRow h with
    | .error r => .rejected r
    | .ok o =>
      if t.length < o.len - 1 then .rejected .truncated
      else
        match buildInstr o (unitOf h) (immOf h) (t.take (o.len - 1)) with
        | some i => .command i (t.drop (o.len - 1))
        | none => .rejected .truncated

/-! ## Encoding -/

/-- A head word from its three fields (R71). -/
def headWord (opc unit imm : Nat) : Word :=
  BitVec.ofNat 8 opc ++ (BitVec.ofNat 8 unit ++ BitVec.ofNat 16 imm)

/-- The row of a command. -/
def Instr.op : Instr → Op
  | .eprep .. => .eprep | .erst => .erst | .esetp .. => .esetp | .eproc .. => .eproc
  | .dlprep .. => .dlprep | .dlrst .. => .dlrst | .dlsetd .. => .dlsetd | .dlpush .. => .dlpush
  | .dlrdlin .. => .dlrdlin | .dlrdlag .. => .dlrdlag | .dlproc .. => .dlproc
  | .apprep .. => .apprep | .aprst .. => .aprst | .apsetg .. => .apsetg | .approc .. => .approc
  | .lprst .. => .lprst | .lpsetc .. => .lpsetc | .lpproc .. => .lpproc
  | .lfoseed .. => .lfoseed | .lfosetr .. => .lfosetr | .lfosetd .. => .lfosetd | .lfonext .. => .lfonext
  | .fsetsize .. => .fsetsize | .fsetrt60 .. => .fsetrt60 | .fsetdamp .. => .fsetdamp
  | .fsetmod .. => .fsetmod | .fsetfrz .. => .fsetfrz | .ftick .. => .ftick | .fmix .. => .fmix
  | .smset .. => .smset | .smnext .. => .smnext | .smsnap .. => .smsnap

/-- The `UNIT` field of a command; 0 where it addresses no unit (R71). -/
def Instr.unitField : Instr → Nat
  | .eprep .. | .erst | .esetp .. | .eproc .. => 0
  | .dlprep u _ | .dlrst u | .dlsetd u _ | .dlpush u _ | .dlrdlin u _ _ | .dlrdlag u _ _ => u
  | .dlproc u _ _ _ _ => u
  | .apprep a _ | .aprst a | .apsetg a _ | .approc a _ => a
  | .lprst f | .lpsetc f _ | .lpproc f _ => f
  | .lfoseed i _ | .lfosetr i _ | .lfosetd i _ | .lfonext i => i
  | .fsetsize _ | .fsetrt60 _ | .fsetdamp _ | .fsetmod _ _ | .fsetfrz _ | .ftick _ | .fmix _ _ => 0
  | .smset k _ | .smnext k | .smsnap k => k

/-- The `IMM16` field of a command; 0 where it has no immediate (R71, R72). -/
def Instr.immField : Instr → Nat
  | .eprep nch _ _ _ => nch
  | .eproc nch _ => nch
  | .dlproc _ mode _ _ _ => mode.toNat
  | .fsetfrz on => on.toNat
  | .erst | .esetp .. => 0
  | .dlprep .. | .dlrst .. | .dlsetd .. | .dlpush .. | .dlrdlin .. | .dlrdlag .. => 0
  | .apprep .. | .aprst .. | .apsetg .. | .approc .. => 0
  | .lprst .. | .lpsetc .. | .lpproc .. => 0
  | .lfoseed .. | .lfosetr .. | .lfosetd .. | .lfonext .. => 0
  | .fsetsize .. | .fsetrt60 .. | .fsetdamp .. | .fsetmod .. | .ftick .. | .fmix .. => 0
  | .smset .. | .smnext .. | .smsnap .. => 0

/-- The operand words of a command, in the order of R73. -/
def Instr.operands : Instr → List Word
  | .eprep _ hi lo mb => [hi, lo, mb]
  | .erst => []
  | .esetp p => p.toList
  | .eproc _ n => [n]
  | .dlprep _ m => [m]
  | .dlrst _ => []
  | .dlsetd _ d => [d]
  | .dlpush _ x => [x]
  | .dlrdlin _ d m => [d, m]
  | .dlrdlag _ d m => [d, m]
  | .dlproc _ _ x d m => [x, d, m]
  | .apprep _ l => [l]
  | .aprst _ => []
  | .apsetg _ g => [g]
  | .approc _ x => [x]
  | .lprst _ => []
  | .lpsetc _ h => [h]
  | .lpproc _ x => [x]
  | .lfoseed _ x => [x]
  | .lfosetr _ x => [x]
  | .lfosetd _ x => [x]
  | .lfonext _ => []
  | .fsetsize x => [x]
  | .fsetrt60 x => [x]
  | .fsetdamp x => [x]
  | .fsetmod r d => [r, d]
  | .fsetfrz _ => []
  | .ftick x => [x]
  | .fmix v w => v.toList ++ [w]
  | .smset _ x => [x]
  | .smnext _ => []
  | .smsnap _ => []

/-- The words of a command (R70, R71, R73): its head word, then its operand words. -/
def encode (i : Instr) : List Word :=
  headWord i.op.code i.unitField i.immField :: i.operands

/-! ## The opcode table's numbering -/

/-- The most words a command has (R70: ESETP). -/
def longestCommand : Nat := 14

/-- The words of a bit pattern numbered as the opcode table numbers it: bit 0 is the least significant bit
of the first word, and a later word's bits count on from it. Bits at and above `nbits` are 0. -/
def tableWords (nbits w : Nat) : List Word :=
  (List.range longestCommand).map fun k => BitVec.ofNat 32 ((w >>> (32 * k)) % 2 ^ min 32 (nbits - 32 * k))

/-- The command the decoder reads from a pattern in the opcode table's numbering. -/
def decodeTableWord (nbits w : Nat) : Option Instr :=
  match decode (tableWords nbits w) with
  | .command i _ => some i
  | .rejected _ => none

/-- How many words of the port the pattern's head word takes: its row's length, or 1 when it is illegal (R75). -/
def commandLength (h : Word) : Nat :=
  match headRow h with
  | .ok o => o.len
  | .error _ => 1

end Sys2Proof
end

