-- ==== Sys2Proof/Machine/Port.lean ====
section
/-! DEFINITION. The command port as the core sees it (spec/30_encoding.md R70, R75; spec/60_exceptions.md R167,
R169), and what the host may do between commands: issue words, own `BUF`, read the status port, pull the reset
input (spec/10_state.md R26, R36; spec/20_memory.md R51; spec/70_reset_and_hazards.md R185). -/

namespace Sys2Proof.Machine

/-! ## The core's side -/

/-- Whether a stream without a command at its front is only incomplete (R70), rather than illegal (R75). -/
def rejectWaits : Reject → Bool
  | .noHead => true
  | .truncated => true
  | .unknownOpcode => false
  | .unitNotZero => false
  | .immNotZero => false

/-- The port after its first `k` words have been taken. -/
def State.dropWords (s : State) (k : Nat) : State := { s with cmd := s.cmd.drop k }

/-- The state a decoded command runs in: its words consumed, and a fresh draw for the NaNs it stores. -/
def State.consume (s : State) (rest : List Word) : State := { s with cmd := rest, draws := s.draws + 1 }

/-- What the core does with the front of the port, `run` giving the commands their meaning (R70, R169):
while `ERR` = 1 one word is discarded; an incomplete command waits; an illegal head word faults and is one word
long; anything else is consumed whole and runs. -/
def fetchAndRun (run : Instr → State → Result) (s : State) : Result :=
  if s.status.err then .next (s.dropWords 1)
  else
    match decode s.cmd with
    | .command i rest => run i (s.consume rest)
    | .rejected r => if rejectWaits r then .next s else .next (raise .illegalCommand (s.dropWords 1))

/-- The words of a table-numbered pattern put in front of the port, cut to the command's length, with no fault
pending, so that the next step runs exactly that command (log 4). -/
def placeCommand (s : State) (nbits w : Nat) : State :=
  let words := tableWords nbits w
  let len := match words with
    | h :: _ => commandLength h
    | [] => 0
  { s with
    cmd := words.take len ++ s.cmd
    status := { s.status with err := false, cause := .noFault } }

/-! ## The host's side -/

/-- The host issues command words (R70): they arrive behind those already there. -/
def State.hostIssue (s : State) (words : List Word) : State := { s with cmd := s.cmd ++ words }

/-- The host places a sample word in `BUF` at a word index (R50, R51). R58, R190 and U5 define no run in which it does
so after the words of an EPROC have been issued and before that command has completed. The model lets it act at any
moment between two steps, and an EPROC still waiting in the port then reads the new word (DESIGN CHOICE, log 11). -/
def State.hostPlace (s : State) (a : Nat) (v : Word) : State := { s with buf := memWrite s.buf a v }

/-- The host reads a word of `BUF` (R50). -/
def State.hostSample (s : State) (a : Nat) : Word := memRead s.buf a

/-- The status port's map (R26), as long as `PVALID` = 1 for the `PRM` addresses. -/
def State.portWord (s : State) (a : Nat) : Word :=
  if a = 0x00 then s.status.word
  else if a = 0x01 then s.nch
  else if a = 0x02 then s.maxBlock
  else if a = 0x03 then s.fs64.extractLsb 63 32
  else if a = 0x04 then s.fs64.extractLsb 31 0
  else if a = 0x05 then s.fs
  else if a = 0x06 then 1
  else if h : 0x08 ≤ a ∧ a < 0x10 then s.res[a - 0x08]
  else if h : 0x10 ≤ a ∧ a < 0x1D then s.prm[a - 0x10]
  else 0

/-- A host read of the status port (R26). A `PRM` address while `PVALID` = 0 returns any word, a new one each
time (U2); the only field that moves then is the model's own draw counter. -/
def State.hostRead (s : State) (a : Nat) : Word × State :=
  if !s.status.pvalid && decide (0x10 ≤ a ∧ a < 0x1D) then
    (Config.freePortWord s.draws a, { s with draws := s.draws + 1 })
  else (s.portWord a, s)

/-- The reset input (R36, R185): the core's state after hardware reset. `BUF` is the host's and stays. -/
def State.hardwareReset (s : State) : State := { State.reset with buf := s.buf, draws := s.draws }

end Sys2Proof.Machine
end

