-- ==== Sys2Proof/Machine/Step.lean ====
section
/-! DEFINITION. One step: the core takes the front of its command port (Machine/Port.lean). -/

namespace Sys2Proof.Machine

/-- One step of the machine as built. -/
def step (s : State) : Host.Outcome State Fault Refusal := fetchAndRun exec s

/-- One step under any configuration record (R5). -/
def stepIn (c : Cfg) (s : State) : Host.Outcome State Fault Refusal := fetchAndRun (fun i t => .next (execIn c i t)) s

/-- The state whose next step runs the command a table-numbered pattern encodes. -/
def State.withFetchWord (s : State) (nbits w : Nat) : State := placeCommand s nbits w

end Sys2Proof.Machine
end

