-- ==== Sys2Proof/Safety.lean ====
section
/-! DEFINITION. What a sound state is, in the terms the claims use: the spec's own invariants (spec/10_state.md R23,
R27 to R33; spec/20_memory.md R52; spec/40_delayline.md R99; spec/44_fdn8.md R133), and the constraints of
spec/00_scope.md R5 on a configuration record that a computation can check. -/

namespace Sys2Proof.Machine

/-! ## Configuration records (R5) -/

/-- n is a power of two. -/
def isPow2 (n : Nat) : Bool := n == 2 ^ Nat.log2 n && n != 0

end Sys2Proof.Machine

namespace Sys2Proof
open Sys2Proof.Machine

/-- A weight as an integer. -/
def Sign.toInt : Sign → Int
  | .plus => 1
  | .minus => -1

/-- The constraints of R5 on the tables and limits of a configuration record: a finite value is one whose exponent
field is not all ones, so no limit is a NaN. -/
def Cfg.tablesOk (c : Cfg) : Bool :=
  ((List.finRange 8).all fun i => decide (0 < c.lref[i]) && decide (0 < c.apref[i]))
    && ((List.finRange 7).all fun i => decide (c.lref[i.castSucc] < c.lref[i.succ]))
    && flt posZero c.smoothSeconds
    && decide (((List.finRange 8).map fun i => Sign.toInt c.wm[c.perm[i]] * Sign.toInt c.ws[i]).sum = 0)
    && decide ((List.finRange 8).map fun i => c.perm[i]).Nodup
    && isPow2 c.capMax && decide (8 ≤ c.capMax)
    && decide (expOf64 c.fsMin < 2047) && decide (expOf64 c.fsMax < 2047)
    && decide (0 < unitsOf64 c.fsMin) && decide (unitsOf64 c.fsMin ≤ unitsOf64 c.fsMax)
    && decide (c.blockMax < 2 ^ 32)

end Sys2Proof

namespace Sys2Proof.Machine

/-! ## Delay lines (R28, R52, R99) -/

/-- Every listed index of a memory is below a bound. -/
def memBelow (bound : Nat) (m : Mem) : Bool := m.all fun p => decide (p.1 < bound)

/-- The invariant of a prepared line (R28, R99): `cap` a power of two in [4, CAP_MAX], the cursor inside it,
`base` ≤ `cap` − 4, the memory canonical and inside the capacity. -/
def DelayLine.sound (c : Cfg) (d : DelayLine) : Bool :=
  isPow2 d.cap && decide (4 ≤ d.cap) && decide (d.cap ≤ c.capMax)
    && decide (d.w < d.cap) && decide (d.base ≤ d.cap - 4)
    && Memory.wf d.ram && memBelow d.cap d.ram

/-- The invariant of the memories: `BUF` is canonical; every line is unprepared (`cap` = 0) or sound; and once
`PREPARED` is set every line is sound. -/
def MemoryInv (c : Cfg) (s : State) : Prop :=
  Memory.wf s.buf = true
    ∧ (∀ u : Fin 18, s.dl[u].cap = 0 ∨ s.dl[u].sound c = true)
    ∧ (s.status.prepared = true → ∀ u : Fin 18, s.dl[u].sound c = true)

/-! ## Registers (R23, R22, R27, R29, R31, R32, R33) -/

/-- w is not a NaN and lo ≤ w ≤ hi as values. -/
def within (lo hi w : Word) : Bool :=
  !isNaN w && decide (unitsOf lo ≤ unitsOf w) && decide (unitsOf w ≤ unitsOf hi)

/-- The invariant of the registers: `CAUSE` is 0 exactly while `ERR` = 0; between commands there is no sample
counter; `PRM[12]` holds one bit; the stored gains stay in [0, 0.99], the diffuser gains in [0, 0.999]; the
crossfade target is 0 or 1; no modulation depth is a NaN or negative; every ramp count is at most `SM_N`. -/
def RegisterInv (s : State) : Prop :=
  (s.status.err = false ↔ s.status.cause = .noFault)
    ∧ s.n = none
    ∧ s.prm[12] &&& 1#32 = s.prm[12]
    ∧ (∀ i : Fin 8, within posZero lit0_99 s.fdn.g[i] = true)
    ∧ (∀ a : Fin 8, within posZero lit0_999 s.apG[a] = true)
    ∧ (s.fdn.xfT = posZero ∨ s.fdn.xfT = lit1)
    ∧ (∀ i : Fin 8, isNaN s.lfo[i].depth = false ∧ 0 ≤ unitsOf s.lfo[i].depth)
    ∧ (∀ k : Fin 2, s.sm[k].count ≤ s.smN)

end Sys2Proof.Machine

namespace Sys2Proof
open Sys2Proof.Machine

/-! ## Configuration records: the constraints on functions (R5, R10, R190) -/

/-- The properties R10 lists for `Num`, but for one: R10 asks for exp(x) < 1 at every finite x < 0 above −80, which its
own default instance, the nearest binary32 value, does not meet at tiny x. Here the bound is ≤ 1, and < 1 from −2^−24
down, which covers every operand of R121 (DEDUCED, log 15). -/
structure Num.ok (m : Num) : Prop where
  sin_within : ∀ x, isFinite x = true → within litNeg1 lit1 (m.sin x) = true
  sin_zero : m.sin posZero = posZero
  sin_nan : ∀ x, isFinite x = false → isNaN (m.sin x) = true
  tan_pos : ∀ x, flt posZero x = true → fge (fmul lit0_49 litPi) x = true →
    isFinite (m.tan x) = true ∧ flt posZero (m.tan x) = true
  tan_nan : ∀ x, isNaN x = true → isNaN (m.tan x) = true
  exp_neg : ∀ x, flt x posZero = true → flt 0xC2A00000#32 x = true →
    flt posZero (m.exp x) = true ∧ fge lit1 (m.exp x) = true
  exp_lt : ∀ x, fge 0xB3800000#32 x = true → flt 0xC2A00000#32 x = true → flt (m.exp x) lit1 = true
  pow10_within : ∀ x, fge posZero x = true → within posZero lit1 (m.pow10 x) = true
  pow10_zero : m.pow10 posZero = lit1
  pow10_nan : ∀ x, isNaN x = true → isNaN (m.pow10 x) = true

/-- R190: a layout gives no two samples of a block of at most `MAXBLOCK` samples and two channels the same word. -/
def layoutInjective (addr : Nat → Nat → Nat → Nat → Nat) : Prop :=
  ∀ maxBlock nch c n c' n', nch ≤ 2 → c < nch → c' < nch → n < maxBlock → n' < maxBlock →
    addr maxBlock nch c n = addr maxBlock nch c' n' → c = c' ∧ n = n'

/-- The constraints of R5 on the functions of a configuration record: `PhaseInit` in [0, 1), the jitter at most
`JIT_AMP` in magnitude, the properties of `Num`, an injective layout. -/
structure Cfg.functionsOk (c : Cfg) : Prop where
  num : c.num.ok
  phase : ∀ seed i, within posZero lit1 (c.phaseInit seed i) = true ∧ flt (c.phaseInit seed i) lit1 = true
  jitter : ∀ js, within (fneg lit1e_4) lit1e_4 (c.jitter js).1 = true
  layout : layoutInjective c.bufAddr

/-- The constraints of R5 on a configuration record. `LREF` being "mutually-inharmonic" has no measure in the spec and
no part here (log 19). -/
def Cfg.ok (c : Cfg) : Prop := c.tablesOk = true ∧ c.functionsOk

end Sys2Proof

namespace Sys2Proof.Machine

/-! ## Modulators (R110) -/

/-- A finite binary32 value between two words as values. -/
def finiteWithin (lo hi w : Word) : Bool := isFinite w && within lo hi w

/-- The invariant of R110 at sample rate `fs`: 0 ≤ phase < 1, 0 ≤ rate ≤ 0.5·FS, inc = rate / FS, depth ≥ 0 and
not a NaN. -/
def Lfo.sound (fs : Word) (l : Lfo) : Prop :=
  within posZero lit1 l.phase = true ∧ flt l.phase lit1 = true
    ∧ within posZero (fmul lit0_5 fs) l.rate = true
    ∧ l.inc = fdiv l.rate fs
    ∧ isNaN l.depth = false ∧ 0 ≤ unitsOf l.depth

/-- R110 once the core is prepared, with the range of `FS` that EPREP's check gives (8000 Hz to 192000 Hz). -/
def ModulatorInv (s : State) : Prop :=
  s.status.prepared = true →
    finiteWithin 0x45FA0000#32 0x483B8000#32 s.fs = true ∧ ∀ i : Fin 8, (s.lfo[i]).sound s.fs

/-! ## The freeze crossfade (R32, R133) -/

/-- The crossfade and its coefficient stay in [0, 1], the target is 0 or 1. -/
def CrossfadeInv (s : State) : Prop :=
  within posZero lit1 s.fdn.xf = true ∧ within posZero lit1 s.xfAlpha = true
    ∧ (s.fdn.xfT = posZero ∨ s.fdn.xfT = lit1)

/-! ## What a rule stores, and where -/

/-- `w` is a word a rule may leave for the computed value `y`: `y` itself, or any NaN where `y` is a NaN (R13: a
NaN's sign and payload are not specified). -/
def holds (y w : Word) : Bool := if isNaN y then isNaN w else w == y

/-- `r` is the binary32 value nearest to num / den units of 2^−149, ties to even, with overflow to infinity (R8). The
overflow threshold is the greatest finite value and half its last place, (2^25 − 1)·2^252 units. -/
def nearestTo (num : Int) (den : Nat) (r : Word) : Prop :=
  if isFinite r then
    num.natAbs < (2 ^ 25 - 1) * 2 ^ 252 * den
      ∧ ∀ w : Word, isFinite w = true →
        (unitsOf r * den - num).natAbs ≤ (unitsOf w * den - num).natAbs
          ∧ ((unitsOf r * den - num).natAbs = (unitsOf w * den - num).natAbs → unitsOf w ≠ unitsOf r →
              r.getLsbD 0 = false)
  else isInf r = true ∧ signOf r = decide (num < 0) ∧ (2 ^ 25 - 1) * 2 ^ 252 * den ≤ num.natAbs

/-- The word index the k-th of several pushes writes, k from 0 (R95). -/
def DelayLine.pushIndex (d : DelayLine) (k : Nat) : Nat := if k = 0 then d.w else (d.w + k) % d.cap

/-- A fault of `cause` and nothing else (R167). -/
def State.faulted (s : State) (cause : Cause) : State :=
  { s with status := { s.status with err := true, cause := cause } }

end Sys2Proof.Machine

namespace Sys2Proof
open Sys2Proof.Machine

/-- How many instances the unit kind of a command has (R74); none where the command addresses no unit. -/
def Op.unitLimit : Op → Option Nat
  | .dlprep | .dlrst | .dlsetd | .dlpush | .dlrdlin | .dlrdlag | .dlproc => some 18
  | .apprep | .aprst | .apsetg | .approc => some 8
  | .lprst | .lpsetc | .lpproc => some 10
  | .lfoseed | .lfosetr | .lfosetd | .lfonext => some 8
  | .smset | .smnext | .smsnap => some 2
  | .eprep | .erst | .esetp | .eproc | .fsetsize | .fsetrt60 | .fsetdamp | .fsetmod | .fsetfrz | .ftick | .fmix => none

/-- The column "writes" of R73: the result registers a command writes (R79). -/
def Op.resultRegs : Op → List Nat
  | .dlrdlin | .dlrdlag | .dlproc | .approc | .lpproc | .lfonext | .smnext => [0]
  | .ftick => [0, 1, 2, 3, 4, 5, 6, 7]
  | .fmix => [0, 1]
  | .eprep | .erst | .esetp | .eproc | .dlprep | .dlrst | .dlsetd | .dlpush | .apprep | .aprst | .apsetg
  | .lprst | .lpsetc | .lfoseed | .lfosetr | .lfosetd | .fsetsize | .fsetrt60 | .fsetdamp | .fsetmod | .fsetfrz
  | .smset | .smsnap => []

/-- Whether a command may store to word `a` of `DLRAM[u]`: the fills of EPREP, ERST, DLPREP, DLRST, APPREP and
APRST reach every word of their lines (R90, R92), a push the word at the cursor (R95), and EPROC the words its
pushes reach, one a sample in every line (R153 to R155). -/
def Instr.storesTo (i : Instr) (s : State) (u : Fin 18) (a : Nat) : Prop :=
  match i with
  | .eprep .. | .erst => True
  | .eproc _ numSamples => ∃ k, k < u32 numSamples ∧ a = s.dl[u].pushIndex k
  | .dlprep v _ | .dlrst v => u.val = v
  | .dlpush v _ | .dlproc v _ _ _ _ => u.val = v ∧ a = s.dl[u].w
  | .apprep b _ | .aprst b => u.val = 2 + b
  | .approc b _ => u.val = 2 + b ∧ a = s.dl[u].w
  | .ftick _ => 10 ≤ u.val ∧ a = s.dl[u].w
  | .esetp _ | .dlsetd .. | .dlrdlin .. | .dlrdlag .. | .apsetg .. | .lprst .. | .lpsetc .. | .lpproc ..
  | .lfoseed .. | .lfosetr .. | .lfosetd .. | .lfonext .. | .fsetsize _ | .fsetrt60 _ | .fsetdamp _ | .fsetmod ..
  | .fsetfrz _ | .fmix .. | .smset .. | .smnext .. | .smsnap .. => False

end Sys2Proof
end

