-- ==== Sys2Proof/Certificates/Slice0/Obligations.lean ====
section
/-! DEFINITION. The statements put to the provers. Each cites the rules of spec/ it formalises. A value the spec
leaves free (a NaN's sign and payload, R13) is spoken of through `holds`, so a statement about it holds for every
payload. `exec` and `step` are the machine built with `Cfg.DEFAULT` (log 3); a statement about `stepIn` holds for
every configuration record it names. -/

open Sys2Proof Sys2Proof.Machine

/-! ## The four interface commands -/

/-- R146 with R121, R140 and the table R186: EPREP either refuses its operands with `BAD_CONFIG` and writes nothing
else, or writes every unit. -/
def Obligations.EprepChecksThenPreparesEveryUnit : Prop :=
  ∀ (nch : Nat) (fsHi fsLo maxBlock : Word) (s : State),
    let fs64 : DWord := fsHi ++ fsLo
    let fs := narrow64 fs64
    let fsr := fdiv fs lit48000
    let pdMax := rnd (fdiv (fmul lit200 fs) lit1000) + 1
    let apLen := fun a : Fin 8 => max 1 (rnd (fmul (floatOf cfg.apref[a]) fsr))
    let fdnMax := fun i : Fin 8 =>
      rnd (fmul (fmul (floatOf cfg.lref[i]) fsr) lit1_5) + rnd (fdiv (fmul lit10 fs) lit1000) + 1
    let legal : Prop :=
      (nch = 1 ∨ nch = 2)
        ∧ (isNaN64 fs64 = false ∧ flt64 fs64 cfg.fsMin = false ∧ flt64 cfg.fsMax fs64 = false)
        ∧ (maxBlock ≠ 0 ∧ maxBlock.toNat ≤ cfg.blockMax)
        ∧ pdMax + 4 ≤ cfg.capMax ∧ (∀ a, apLen a + 4 ≤ cfg.capMax) ∧ (∀ i, fdnMax i + 4 ≤ cfg.capMax)
    encode (.eprep nch fsHi fsLo maxBlock) = [headWord 0x01 0 nch, fsHi, fsLo, maxBlock]
      ∧ (¬ legal → exec (.eprep nch fsHi fsLo maxBlock) s = .next (s.faulted .badConfig))
      ∧ (legal → ∃ t, exec (.eprep nch fsHi fsLo maxBlock) s = .next t
          ∧ t.fs64 = fs64 ∧ t.fs = fs ∧ t.fsr = fsr ∧ t.maxBlock = maxBlock ∧ t.nch = BitVec.ofNat 32 nch
          ∧ holds (fsub lit1 (cfg.num.exp (fdiv litNeg1 (fmul lit0_075 fs)))) t.xfAlpha = true
          ∧ t.smN = max 1 (rnd (fmul cfg.smoothSeconds fs))
          ∧ (∀ (u : Fin 18) (a : Nat), t.dl[u].w = 0 ∧ memRead t.dl[u].ram a = posZero)
          ∧ (∀ u : Fin 18, u.val < 2 → t.dl[u].cap = nextPow2 (pdMax + 4) ∧ t.dl[u].base = 0)
          ∧ (∀ a : Fin 8, t.dl[apLine a].cap = nextPow2 (apLen a + 4) ∧ t.dl[apLine a].base = apLen a)
          ∧ (∀ i : Fin 8, t.dl[fdnLine i].cap = nextPow2 (fdnMax i + 4)
              ∧ t.dl[fdnLine i].base
                = clampInt (rnd (fmul (fmul (floatOf cfg.lref[i]) fsr) lit1)) 1 (t.dl[fdnLine i].cap - 4)
              ∧ t.fdn.g[i] = fclamp
                  (cfg.num.pow10 (fdiv (fmul litNeg3 (floatOf t.dl[fdnLine i].base)) (fmul lit1 fs))) posZero lit0_99
              ∧ t.fdn.mode[i] = false ∧ t.apG[i] = posZero)
          ∧ t.fdn.xf = posZero ∧ t.fdn.xfT = posZero ∧ t.fdn.scale = lit1 ∧ t.fdn.rt60 = lit1
          ∧ (∀ f : Fin 10, t.lp[f] = { G := posZero, s := posZero })
          ∧ (∀ i : Fin 8, t.lfo[i] = { phase := posZero, rate := posZero, inc := posZero, depth := posZero, js := 0 })
          ∧ (∀ k : Fin 2, t.sm[k] = { cur := posZero, target := posZero, step := posZero, count := 0 })
          ∧ t.status = { s.status with prepared := true, pvalid := false, first := true }
          ∧ t.res = s.res ∧ t.prm = s.prm ∧ t.buf = s.buf ∧ t.cmd = s.cmd ∧ t.n = s.n ∧ t.draws = s.draws)

/-- R147: ERST zero-fills every delay line, puts its cursor at 0 and clears the ten filter states; everything else
keeps its value. -/
def Obligations.ErstClearsEveryLineAndFilter : Prop :=
  ∀ s : State, s.status.prepared = true →
    encode .erst = [headWord 0x02 0 0] ∧
    ∃ t, exec .erst s = .next t
      ∧ (∀ (u : Fin 18) (a : Nat), memRead t.dl[u].ram a = posZero)
      ∧ (∀ u : Fin 18, t.dl[u] = { s.dl[u] with w := 0, ram := t.dl[u].ram })
      ∧ (∀ f : Fin 10, t.lp[f] = { s.lp[f] with s := posZero })
      ∧ t = { s with dl := t.dl, lp := t.lp }

/-- R148: ESETP stores the thirteen operand words, the last one's bit 0 only, and sets `PVALID`; nothing else. -/
def Obligations.EsetpStoresSnapshot : Prop :=
  ∀ (p : Vector Word 13) (s : State), s.status.prepared = true →
    encode (.esetp p) = headWord 0x03 0 0 :: p.toList ∧
    ∃ t, exec (.esetp p) s = .next t
      ∧ (∀ k : Fin 13, k.val < 12 → t.prm[k] = p[k])
      ∧ t.prm[12] = p[12] &&& 1#32
      ∧ t = { s with prm := t.prm, status := { s.status with pvalid := true } }

/-- R151: EPROC's three checks in their order, then the snapshot, then the pipeline once for each sample index from
0, `n` advancing by one; the result registers are unchanged. -/
def Obligations.EprocChecksThenRunsEachSample : Prop :=
  ∀ (nch : Nat) (numSamples : Word) (s : State), s.status.prepared = true →
    encode (.eproc nch numSamples) = [headWord 0x04 0 nch, numSamples]
      ∧ (s.status.pvalid = false → exec (.eproc nch numSamples) s = .next (s.faulted .noParams))
      ∧ (s.status.pvalid = true → (nch < 1 ∨ s.nch.toNat < nch ∨ s.maxBlock.toNat < numSamples.toNat) →
          exec (.eproc nch numSamples) s = .next (s.faulted .badCount))
      ∧ (s.status.pvalid = true → 1 ≤ nch → nch ≤ s.nch.toNat → numSamples.toNat ≤ s.maxBlock.toNat →
          ∃ S : Nat → State,
            S 0 = { s.applySnapshot cfg with n := some 0 }
              ∧ (∀ k, S (k + 1)
                  = { State.sample cfg nch k (S k) with n := some (k + 1), draws := (S k).draws + 1 })
              ∧ (∀ k, (S k).res = s.res)
              ∧ exec (.eproc nch numSamples) s = .next { S numSamples.toNat with n := none })

/-- R150: what the snapshot application leaves in every unit, and that it writes nothing else. That the bases of the diffuser
lines `DL[2..9]` stay as they are is the model's reading of R150 against R192 (DEDUCED, log 25). The depth mask is that of
variant 0, by `Cfg.DEFAULT` (the model's choice, log 3). -/
def Obligations.SnapshotSetsEveryParameter : Prop :=
  ∀ s : State,
    let t := s.applySnapshot cfg
    let first := s.status.first
    let pd := rnd (fdiv (fmul (fclamp s.prm[3] posZero lit200) s.fs) lit1000)
    let gap := fclamp (fadd lit0_6 (fmul lit0_35 (fclamp s.prm[4] posZero lit1))) posZero lit0_99
    let coef := fun hz : Word =>
      let gg := cfg.num.tan (fdiv (fmul litPi (fclamp hz lit1 (fmul lit0_49 s.fs))) s.fs)
      fdiv gg (fadd lit1 gg)
    let rate := fclamp s.prm[5] lit0_05 lit3
    let depth := fdiv (fmul (fclamp s.prm[6] posZero lit10) s.fs) lit1000
    let targets : Fin 2 → Word := fun k =>
      if k = 0 then fdiv (fclamp s.prm[0] posZero lit100) lit100 else fclamp s.prm[10] posZero lit1
    (∀ u : Fin 18, t.dl[u] = { s.dl[u] with base := t.dl[u].base })
      ∧ (∀ u : Fin 18, u.val < 2 → t.dl[u].base = min pd (s.dl[u].cap - 4))
      ∧ (∀ u : Fin 18, 2 ≤ u.val → u.val < 10 → t.dl[u].base = s.dl[u].base)
      ∧ (∀ a : Fin 8, t.apG[a] = fclamp gap posZero lit0_999)
      ∧ t.fdn.scale = fclamp s.prm[2] lit0_5 lit1_5 ∧ t.fdn.rt60 = fclamp s.prm[1] lit0_1 lit60
      ∧ (∀ i : Fin 8, t.dl[fdnLine i].base
            = clampInt (rnd (fmul (fmul (floatOf cfg.lref[i]) s.fsr) t.fdn.scale)) 1 (s.dl[fdnLine i].cap - 4)
          ∧ t.fdn.g[i] = fclamp (cfg.num.pow10
              (fdiv (fmul litNeg3 (floatOf t.dl[fdnLine i].base)) (fmul t.fdn.rt60 s.fs))) posZero lit0_99)
      ∧ (∀ f : Fin 10, t.lp[f].s = s.lp[f].s
          ∧ holds (coef (if f.val < 8 then fclamp s.prm[7] lit1000 lit16000 else s.prm[9])) t.lp[f].G = true)
      ∧ (∀ i : Fin 8, let di := if 4 ≤ i.val then depth else posZero
          t.lfo[i].phase = (if first then cfg.phaseInit s.prm[11] i else s.lfo[i].phase)
          ∧ t.lfo[i].js = (if first then cfg.jitInit s.prm[11] i else s.lfo[i].js)
          ∧ t.lfo[i].rate
            = fclamp (fmul rate (fadd lit1 (fmul lit0_03 (floatOf i.val)))) posZero (fmul lit0_5 s.fs)
          ∧ holds (fdiv t.lfo[i].rate s.fs) t.lfo[i].inc = true
          ∧ t.lfo[i].depth = (if isNaN di = true ∨ flt di posZero = true then posZero else di)
          ∧ t.fdn.mode[i] = flt (fmul lit8 s.fsr) di)
      ∧ t.fdn.xf = s.fdn.xf ∧ t.fdn.xfT = (if s.prm[12].getLsbD 0 then lit1 else posZero)
      ∧ (∀ k : Fin 2, let m := s.sm[k]
          let moved := !isNaN (targets k) && !feq (targets k) m.target
          t.sm[k].target = (if moved then targets k else m.target)
          ∧ (first = true → t.sm[k].cur = t.sm[k].target ∧ t.sm[k].count = 0 ∧ t.sm[k].step = posZero)
          ∧ (first = false → t.sm[k].cur = m.cur ∧ t.sm[k].count = (if moved then s.smN else m.count)
              ∧ if moved then holds (fdiv (fsub (targets k) m.cur) (floatOf s.smN)) t.sm[k].step = true
                else t.sm[k].step = m.step))
      ∧ t = { s with
          dl := t.dl, apG := t.apG, lp := t.lp, lfo := t.lfo, fdn := t.fdn, sm := t.sm
          status := { s.status with first := false } }

/-- R152 to R160: the pipeline of one sample, in the order of its steps, from the dry input to the write-back. -/
def Obligations.SamplePipelineFollowsItsSteps : Prop :=
  ∀ (nch n : Nat) (s : State),
    let at' := fun c => cfg.bufAddr s.maxBlock.toNat nch c n
    let inL := memRead s.buf (at' 0)
    let inR := if nch = 2 then memRead s.buf (at' 1) else inL
    let pdL := s.dl[0].readLinear (floatOf s.dl[0].base) posZero
    let pdR := s.dl[1].readLinear (floatOf s.dl[1].base) posZero
    let s2 := (s.setDL 0 (s.dl[0].push inL)).setDL 1 (s.dl[1].push inR)
    let a0 := s2.allpass 0 pdL
    let a1 := a0.2.allpass 1 a0.1
    let a2 := a1.2.allpass 2 a1.1
    let a3 := a2.2.allpass 3 a2.1
    let a4 := a3.2.allpass 4 pdR
    let a5 := a4.2.allpass 5 a4.1
    let a6 := a5.2.allpass 6 a5.1
    let a7 := a6.2.allpass 7 a6.1
    let dL := a3.1
    let dR := a7.1
    let net := a7.2.tick cfg (fmul lit0_5 (fadd dL dR))
    let width := net.2.smooth 1
    let mixed := mixStereo cfg net.1 width.1
    let hcL := width.2.lowpass 8 mixed.1
    let hcR := hcL.2.lowpass 9 mixed.2
    let clean := fun v => if isFinite v then v else posZero
    let wetL := clean (fadd hcL.1 (fmul lit0_15 dL))
    let wetR := clean (fadd hcR.1 (fmul lit0_15 dR))
    let mix := hcR.2.smooth 0
    let blend := fun dry wet => fadd (fmul (fsub lit1 mix.1) dry) (fmul (fmul mix.1 lit1_2) wet)
    ∃ outL outR, holds (blend inL wetL) outL = true ∧ holds (blend inR wetR) outR = true
      ∧ State.sample cfg nch n s
        = { mix.2 with
            buf := if nch = 2 then memWrite (memWrite s.buf (at' 0) outL) (at' 1) outR
              else memWrite s.buf (at' 0) outL }

/-! ## Delay lines and allpass diffusers -/

/-- R90 and R100: DLPREP and APPREP give a line the least power of two at or above the request plus the guard of 4,
zero-fill it and set cursor and base, or refuse with `BAD_CONFIG` what exceeds `CAP_MAX`. -/
def Obligations.DlprepAndApprepSizeALine : Prop :=
  ∀ (size : Word) (s : State), s.status.prepared = true →
    let sized := fun (u : Fin 18) (base : Nat) (t : State) =>
      (∃ e, t.dl[u].cap = 2 ^ e ∧ size.toNat + 4 ≤ 2 ^ e ∧ ∀ e', size.toNat + 4 ≤ 2 ^ e' → 2 ^ e ≤ 2 ^ e')
        ∧ t.dl[u].w = 0 ∧ t.dl[u].base = base ∧ (∀ a, memRead t.dl[u].ram a = posZero)
        ∧ t = { s with dl := s.dl.set u t.dl[u] }
    (∀ u : Fin 18, encode (.dlprep u size) = [headWord 0x10 u 0, size]
        ∧ (cfg.capMax < size.toNat + 4 → exec (.dlprep u size) s = .next (s.faulted .badConfig))
        ∧ (size.toNat + 4 ≤ cfg.capMax → ∃ t, exec (.dlprep u size) s = .next t ∧ sized u 0 t))
      ∧ (∀ a : Fin 8, encode (.apprep a size) = [headWord 0x20 a 0, size]
        ∧ (cfg.capMax < size.toNat + 4 → exec (.apprep a size) s = .next (s.faulted .badConfig))
        ∧ (size.toNat + 4 ≤ cfg.capMax →
            ∃ t, exec (.apprep a size) s = .next t ∧ sized (apLine a) size.toNat t))

/-- R92, R101 and R105: DLRST, APRST and LPRST clear one unit and keep its sizes and coefficients. -/
def Obligations.ResetCommandsClearOneUnit : Prop :=
  ∀ s : State, s.status.prepared = true →
    let cleared := fun (u : Fin 18) (t : State) =>
      (∀ a, memRead t.dl[u].ram a = posZero)
        ∧ t = { s with dl := s.dl.set u { s.dl[u] with w := 0, ram := t.dl[u].ram } }
    (∀ u : Fin 18, encode (.dlrst u) = [headWord 0x11 u 0] ∧ ∃ t, exec (.dlrst u) s = .next t ∧ cleared u t)
      ∧ (∀ a : Fin 8, encode (.aprst a) = [headWord 0x21 a 0]
          ∧ ∃ t, exec (.aprst a) s = .next t ∧ cleared (apLine a) t)
      ∧ (∀ f : Fin 10, encode (.lprst f) = [headWord 0x30 f 0]
          ∧ exec (.lprst f) s = .next { s with lp := s.lp.set f { s.lp[f] with s := posZero } })

/-- R94: DLSETD stores the base delay, at most `cap` − 4. -/
def Obligations.DlsetdStoresClampedBase : Prop :=
  ∀ (u : Fin 18) (delay : Word) (s : State), s.status.prepared = true →
    encode (.dlsetd u delay) = [headWord 0x12 u 0, delay]
      ∧ exec (.dlsetd u delay) s
        = .next { s with dl := s.dl.set u { s.dl[u] with base := min delay.toNat (s.dl[u].cap - 4) } }

/-- R95: DLPUSH stores the word unchanged at the cursor and advances the cursor modulo the capacity. -/
def Obligations.DlpushStoresTheWordAtTheCursor : Prop :=
  ∀ (u : Fin 18) (x : Word) (s : State), s.status.prepared = true → Memory.wf s.dl[u].ram = true →
    encode (.dlpush u x) = [headWord 0x13 u 0, x] ∧
    ∃ t, exec (.dlpush u x) s = .next t
      ∧ memRead t.dl[u].ram s.dl[u].w = x
      ∧ (∀ a, a ≠ s.dl[u].w → memRead t.dl[u].ram a = memRead s.dl[u].ram a)
      ∧ t = { s with
          dl := s.dl.set u { s.dl[u] with w := (s.dl[u].w + 1) % s.dl[u].cap, ram := t.dl[u].ram } }

/-- R96 and R97, with the total delay of R93 and the taps of R91: the two fractional reads. They change `RES[0]`
and nothing else. -/
def Obligations.DlrdlinAndDlrdlagReadFractionally : Prop :=
  ∀ (u : Fin 18) (delay modOffset : Word) (s : State), s.status.prepared = true →
    let d := s.dl[u]
    let tap := fun k : Nat => memRead d.ram (((d.w : Int) - k) % d.cap).toNat
    let D := fclamp (fadd delay modOffset) lit1 (floatOf (d.cap - 3))
    let Di := ffloor D
    let Df := fsub D (floatOf Di)
    let linear := fadd (tap Di) (fmul Df (fsub (tap (Di + 1)) (tap Di)))
    let dm1 := fsub Df lit1
    let dm2 := fsub Df lit2
    let dp1 := fadd Df lit1
    let p := fmul Df dm1
    let cm1 := fneg (fdiv (fmul p dm2) lit6)
    let c0 := fdiv (fmul (fmul dp1 dm1) dm2) lit2
    let c1 := fneg (fdiv (fmul (fmul dp1 Df) dm2) lit2)
    let c2 := fdiv (fmul dp1 p) lit6
    let cubic := fadd (fadd (fadd (fmul cm1 (tap (Di - 1))) (fmul c0 (tap Di))) (fmul c1 (tap (Di + 1))))
      (fmul c2 (tap (Di + 2)))
    encode (.dlrdlin u delay modOffset) = [headWord 0x14 u 0, delay, modOffset]
      ∧ encode (.dlrdlag u delay modOffset) = [headWord 0x15 u 0, delay, modOffset]
      ∧ (∃ y, holds linear y = true
          ∧ exec (.dlrdlin u delay modOffset) s = .next { s with res := s.res.set 0 y })
      ∧ (∃ y, holds cubic y = true
          ∧ exec (.dlrdlag u delay modOffset) s = .next { s with res := s.res.set 0 y })

/-- R98: DLPROC returns what the read of its mode returns on the line before the push, and then pushes. -/
def Obligations.DlprocReadsThenPushes : Prop :=
  ∀ (u : Fin 18) (mode : Bool) (x delay modOffset : Word) (s : State), s.status.prepared = true →
    encode (.dlproc u mode x delay modOffset) = [headWord 0x16 u mode.toNat, x, delay, modOffset]
      ∧ ∃ tRead tPush,
        exec (if mode then .dlrdlag u delay modOffset else .dlrdlin u delay modOffset) s = .next tRead
          ∧ exec (.dlpush u x) s = .next tPush
          ∧ exec (.dlproc u mode x delay modOffset) s = .next { tPush with res := tRead.res }

/-- R102: APSETG stores the gain clamped into [0, 0.999]. -/
def Obligations.ApsetgStoresClampedGain : Prop :=
  ∀ (a : Fin 8) (g : Word) (s : State), s.status.prepared = true →
    encode (.apsetg a g) = [headWord 0x22 a 0, g] ∧
    ∃ w, exec (.apsetg a g) s = .next { s with apG := s.apG.set a w }
      ∧ (isNaN g = true → w = posZero)
      ∧ (flt g posZero = true → w = posZero)
      ∧ (flt lit0_999 g = true → w = lit0_999)
      ∧ (within posZero lit0_999 g = true → w = g)

/-- R103: one sample through an allpass: the delayed read, the two products, the push into the line of the
allpass, the result in `RES[0]`. -/
def Obligations.ApprocFiltersOneSample : Prop :=
  ∀ (a : Fin 8) (x : Word) (s : State), s.status.prepared = true → Memory.wf s.dl[apLine a].ram = true →
    let d := s.dl[apLine a]
    let D := fclamp (fadd (floatOf d.base) posZero) lit1 (floatOf (d.cap - 3))
    let Di := ffloor D
    let tap := fun k : Nat => memRead d.ram (((d.w : Int) - k) % d.cap).toNat
    let delayed := fadd (tap Di) (fmul (fsub D (floatOf Di)) (fsub (tap (Di + 1)) (tap Di)))
    let y := fsub delayed (fmul s.apG[a] x)
    encode (.approc a x) = [headWord 0x23 a 0, x] ∧
    ∃ t, exec (.approc a x) s = .next t
      ∧ holds (fadd x (fmul s.apG[a] y)) (memRead t.dl[apLine a].ram d.w) = true
      ∧ (∀ b, b ≠ d.w → memRead t.dl[apLine a].ram b = memRead d.ram b)
      ∧ holds y t.res[0] = true
      ∧ t = { s with
          dl := s.dl.set (apLine a) { d with w := (d.w + 1) % d.cap, ram := t.dl[apLine a].ram }
          res := s.res.set 0 t.res[0] }

/-! ## Filters and modulators -/

/-- R106: LPSETC computes the trapezoidal coefficient from the cutoff clamped into [1, 0.49·FS]; `s` is unchanged. -/
def Obligations.LpsetcSetsTheCoefficient : Prop :=
  ∀ (f : Fin 10) (hz : Word) (s : State), s.status.prepared = true →
    let hc := fclamp hz lit1 (fmul lit0_49 s.fs)
    let gg := cfg.num.tan (fdiv (fmul litPi hc) s.fs)
    encode (.lpsetc f hz) = [headWord 0x31 f 0, hz] ∧
    ∃ G, holds (fdiv gg (fadd lit1 gg)) G = true
      ∧ exec (.lpsetc f hz) s = .next { s with lp := s.lp.set f { s.lp[f] with G := G } }

/-- R107: one sample through a one-pole filter. -/
def Obligations.LpprocFiltersOneSample : Prop :=
  ∀ (f : Fin 10) (x : Word) (s : State), s.status.prepared = true →
    let v := fmul s.lp[f].G (fsub x s.lp[f].s)
    let y := fadd s.lp[f].s v
    encode (.lpproc f x) = [headWord 0x32 f 0, x] ∧
    ∃ out after, holds y out = true ∧ holds (fadd y v) after = true
      ∧ exec (.lpproc f x) s
        = .next { s with lp := s.lp.set f { s.lp[f] with s := after }, res := s.res.set 0 out }

/-- R111 with the default generator R112 (the machine is built with `Cfg.DEFAULT`, log 3): LFOSEED sets phase and
jitter state from the seed. -/
def Obligations.LfoseedSetsPhaseAndJitterState : Prop :=
  ∀ (i : Fin 8) (seed : Word) (s : State), s.status.prepared = true →
    let js := 1664525#32 * (seed ^^^ (0x9E3779B9#32 * BitVec.ofNat 32 (i.val + 1))) + 1013904223#32
    encode (.lfoseed i seed) = [headWord 0x40 i 0, seed]
      ∧ exec (.lfoseed i seed) s
        = .next { s with
            lfo := s.lfo.set i
              { s.lfo[i] with phase := fdiv (floatOf (js.toNat / 256)) (floatOf (2 ^ 24)), js := js } }

/-- R113 and R114: LFOSETR stores the rate clamped into [0, 0.5·FS] and the increment; LFOSETD stores the depth, a
NaN or a negative one as 0. -/
def Obligations.LfosetrAndLfosetdStoreRateAndDepth : Prop :=
  ∀ (i : Fin 8) (x : Word) (s : State), s.status.prepared = true →
    let rate := fclamp x posZero (fmul lit0_5 s.fs)
    encode (.lfosetr i x) = [headWord 0x41 i 0, x] ∧ encode (.lfosetd i x) = [headWord 0x42 i 0, x]
      ∧ (∃ inc, holds (fdiv rate s.fs) inc = true
          ∧ exec (.lfosetr i x) s = .next { s with lfo := s.lfo.set i { s.lfo[i] with rate := rate, inc := inc } })
      ∧ exec (.lfosetd i x) s
        = .next { s with
            lfo := s.lfo.set i
              { s.lfo[i] with depth := if isNaN x = true ∨ flt x posZero = true then posZero else x } }

/-- R115 with the default jitter of R112: LFONEXT returns sin(2π·phase)·depth + jitter on the phase before the
advance, and advances phase and jitter state. -/
def Obligations.LfonextReturnsOffsetAndAdvances : Prop :=
  ∀ (i : Fin 8) (s : State), s.status.prepared = true →
    let l := s.lfo[i]
    let a := 1664525#32 * l.js + 1013904223#32
    let b := 1664525#32 * a + 1013904223#32
    let unit := fun w : Word => fdiv (floatOf (w.toNat / 256)) (floatOf (2 ^ 24))
    let out := fadd (fmul (cfg.num.sin (fmul litTwoPi l.phase)) l.depth) (fmul (fsub (unit a) (unit b)) lit1e_4)
    let p := fadd l.phase l.inc
    encode (.lfonext i) = [headWord 0x43 i 0] ∧
    ∃ y phase, holds out y = true ∧ holds (if fge p lit1 then fsub p lit1 else p) phase = true
      ∧ exec (.lfonext i) s
        = .next { s with lfo := s.lfo.set i { l with phase := phase, js := b }, res := s.res.set 0 y }

/-! ## The feedback delay network -/

/-- R124 and R125 with the procedure R123: FSETSIZE and FSETRT60 store their clamped operand and recompute the
eight lengths and the eight gains. -/
def Obligations.FsetsizeAndFsetrt60RecomputeLengthsAndGains : Prop :=
  ∀ (x : Word) (s : State), s.status.prepared = true →
    let relengthed := fun (scale rt60 : Word) (t : State) =>
      t.fdn = { s.fdn with scale := scale, rt60 := rt60, g := t.fdn.g }
        ∧ (∀ i : Fin 8, t.dl[fdnLine i].base
              = clampInt (rnd (fmul (fmul (floatOf cfg.lref[i]) s.fsr) scale)) 1 (s.dl[fdnLine i].cap - 4)
            ∧ t.fdn.g[i] = fclamp
                (cfg.num.pow10 (fdiv (fmul litNeg3 (floatOf t.dl[fdnLine i].base)) (fmul rt60 s.fs)))
                posZero lit0_99)
        ∧ (∀ u : Fin 18, t.dl[u] = if 10 ≤ u.val then { s.dl[u] with base := t.dl[u].base } else s.dl[u])
        ∧ t = { s with dl := t.dl, fdn := t.fdn }
    encode (.fsetsize x) = [headWord 0x50 0 0, x] ∧ encode (.fsetrt60 x) = [headWord 0x51 0 0, x]
      ∧ (∃ t, exec (.fsetsize x) s = .next t ∧ relengthed (fclamp x lit0_5 lit1_5) s.fdn.rt60 t)
      ∧ (∃ t, exec (.fsetrt60 x) s = .next t ∧ relengthed s.fdn.scale (fclamp x lit0_1 lit60) t)

/-- R126: FSETDAMP sets the coefficient of the eight damping filters and no other; filter states are unchanged. -/
def Obligations.FsetdampSetsTheEightDampingFilters : Prop :=
  ∀ (hz : Word) (s : State), s.status.prepared = true →
    let gg := cfg.num.tan (fdiv (fmul litPi (fclamp hz lit1 (fmul lit0_49 s.fs))) s.fs)
    encode (.fsetdamp hz) = [headWord 0x52 0 0, hz] ∧
    ∃ t, exec (.fsetdamp hz) s = .next t
      ∧ (∀ f : Fin 10, t.lp[f].s = s.lp[f].s
          ∧ (f.val < 8 → holds (fdiv gg (fadd lit1 gg)) t.lp[f].G = true)
          ∧ (8 ≤ f.val → t.lp[f].G = s.lp[f].G))
      ∧ t = { s with lp := t.lp }

/-- R127 in variant 0 of the depth mask (the variant `Cfg.DEFAULT` builds, log 3): FSETMOD sets the detuned rates,
the masked depths and the interpolation modes. -/
def Obligations.FsetmodSetsRatesDepthsAndModes : Prop :=
  ∀ (rateHz depthMs : Word) (s : State), s.status.prepared = true →
    let dsamp := fdiv (fmul (fclamp depthMs posZero lit10) s.fs) lit1000
    encode (.fsetmod rateHz depthMs) = [headWord 0x53 0 0, rateHz, depthMs] ∧
    ∃ t, exec (.fsetmod rateHz depthMs) s = .next t
      ∧ (∀ i : Fin 8, let di := if 4 ≤ i.val then dsamp else posZero
          t.lfo[i] = { s.lfo[i] with rate := t.lfo[i].rate, inc := t.lfo[i].inc, depth := t.lfo[i].depth }
          ∧ t.lfo[i].rate
            = fclamp (fmul rateHz (fadd lit1 (fmul lit0_03 (floatOf i.val)))) posZero (fmul lit0_5 s.fs)
          ∧ holds (fdiv t.lfo[i].rate s.fs) t.lfo[i].inc = true
          ∧ t.lfo[i].depth = (if isNaN di = true ∨ flt di posZero = true then posZero else di)
          ∧ t.fdn.mode[i] = flt (fmul lit8 s.fsr) di)
      ∧ t = { s with lfo := t.lfo, fdn := { s.fdn with mode := t.fdn.mode } }

/-- R128 with R78: FSETFRZ sets the crossfade target and nothing else; `FREEZE` and `UNFREEZE` are its two forms. -/
def Obligations.FsetfrzSetsTheCrossfadeTarget : Prop :=
  ∀ s : State, s.status.prepared = true →
    encode Instr.freeze = [headWord 0x54 0 1] ∧ encode Instr.unfreeze = [headWord 0x54 0 0]
      ∧ exec Instr.freeze s = .next { s with fdn := { s.fdn with xfT := lit1 } }
      ∧ exec Instr.unfreeze s = .next { s with fdn := { s.fdn with xfT := posZero } }

/-- R129: one network step: the freeze ramp, the eight reads, the mixer, the eight filters and pushes, the reads in
`RES`. -/
def Obligations.FtickRunsOneNetworkStep : Prop :=
  ∀ (xIn : Word) (s : State), s.status.prepared = true →
    (∀ i : Fin 8, Memory.wf s.dl[fdnLine i].ram = true) →
    encode (.ftick xIn) = [headWord 0x55 0 0, xIn] ∧
    ∃ t, exec (.ftick xIn) s = .next t
      ∧ holds (fadd s.fdn.xf (fmul (fsub s.fdn.xfT s.fdn.xf) s.xfAlpha)) t.fdn.xf = true
      ∧ t.fdn = { s.fdn with xf := t.fdn.xf }
      ∧ (let r : Vector Word 8 := Vector.ofFn fun i =>
            let off := fadd (fmul (cfg.num.sin (fmul litTwoPi s.lfo[i].phase)) s.lfo[i].depth)
              (cfg.jitter s.lfo[i].js).1
            if s.fdn.mode[i] then s.dl[fdnLine i].readCubic (floatOf s.dl[fdnLine i].base) off
            else s.dl[fdnLine i].readLinear (floatOf s.dl[fdnLine i].base) off
          let xi := fmul xIn (fsub lit1 t.fdn.xf)
          ∀ i : Fin 8,
            let p := fadd s.lfo[i].phase s.lfo[i].inc
            let ge := fadd s.fdn.g[i] (fmul (fsub lit0_99995 s.fdn.g[i]) t.fdn.xf)
            let x := fmul ge (hadamard8 r)[i]
            let v := fmul s.lp[dampLP i].G (fsub x s.lp[dampLP i].s)
            let fb := fadd s.lp[dampLP i].s v
            let d := s.dl[fdnLine i]
            holds (if fge p lit1 then fsub p lit1 else p) t.lfo[i].phase = true
              ∧ t.lfo[i] = { s.lfo[i] with phase := t.lfo[i].phase, js := (cfg.jitter s.lfo[i].js).2 }
              ∧ holds (fadd fb v) t.lp[dampLP i].s = true ∧ t.lp[dampLP i].G = s.lp[dampLP i].G
              ∧ holds (fadd fb (if i.val % 2 = 0 then xi else fneg xi)) (memRead t.dl[fdnLine i].ram d.w) = true
              ∧ (∀ a, a ≠ d.w → memRead t.dl[fdnLine i].ram a = memRead d.ram a)
              ∧ t.dl[fdnLine i] = { d with w := (d.w + 1) % d.cap, ram := t.dl[fdnLine i].ram }
              ∧ holds r[i] t.res[i] = true)
      ∧ (∀ u : Fin 18, u.val < 10 → t.dl[u] = s.dl[u])
      ∧ (∀ f : Fin 10, 8 ≤ f.val → t.lp[f] = s.lp[f])
      ∧ t = { s with dl := t.dl, lp := t.lp, lfo := t.lfo, fdn := t.fdn, res := t.res }

/-- R130: each output of the mixer is the signed sum of the eight inputs that the three butterfly stages give, in
their grouping, times 1/√8. -/
def Obligations.HadamardMixesInThreeStages : Prop :=
  ∀ r : Vector Word 8,
    let pair := fun (op : Word → Word → Word) (i : Fin 8) (j : Fin 8) => op r[i] r[j]
    let quad := fun (op2 op1 : Word → Word → Word) (i : Fin 8) =>
      op2 (pair op1 i (i + 1)) (pair op1 (i + 2) (i + 3))
    let all := fun op3 op2 op1 : Word → Word → Word => fmul (op3 (quad op2 op1 0) (quad op2 op1 4)) litInvSqrt8
    hadamard8 r = #v[all fadd fadd fadd, all fadd fadd fsub, all fadd fsub fadd, all fadd fsub fsub,
      all fsub fadd fadd, all fsub fadd fsub, all fsub fsub fadd, all fsub fsub fsub]

/-- R132: FMIX forms mid and side from two ±1 weighted sums, applies the equal-power width law, and returns left
and right; no FDN state changes. -/
def Obligations.FmixReconstructsStereo : Prop :=
  ∀ (v : Vector Word 8) (width : Word) (s : State), s.status.prepared = true →
    let sum := fun (w : Fin 8 → Word) (x : Fin 8 → Word) =>
      [1, 2, 3, 4, 5, 6, 7].foldl (fun acc (i : Fin 8) => fadd acc (fmul (w i) (x i))) (fmul (w 0) (x 0))
    let mid := fmul lit0_25 (sum (fun i => signWord cfg.wm[i]) (fun i => v[i]))
    let side := fmul lit0_25 (sum (fun i => signWord cfg.ws[i]) (fun i => v[cfg.perm[i]]))
    let ss := cfg.num.sin (fmul litHalfPi (fclamp width posZero lit1))
    let t := fsub lit1 (fmul ss ss)
    let ms := fsqrt (if flt t posZero then posZero else t)
    encode (.fmix v width) = headWord 0x56 0 0 :: (v.toList ++ [width]) ∧
    ∃ l r, holds (fadd (fmul ms mid) (fmul ss side)) l = true
      ∧ holds (fsub (fmul ms mid) (fmul ss side)) r = true
      ∧ exec (.fmix v width) s = .next { s with res := (s.res.set 0 l).set 1 r }

/-! ## Smoothers -/

/-- R141: SMSET ignores a NaN and the target it already has, and starts a ramp of `SM_N` samples otherwise. -/
def Obligations.SmsetStartsARamp : Prop :=
  ∀ (k : Fin 2) (t : Word) (s : State), s.status.prepared = true →
    encode (.smset k t) = [headWord 0x60 k 0, t]
      ∧ (isNaN t = true ∨ feq t s.sm[k].target = true → exec (.smset k t) s = .next s)
      ∧ (isNaN t = false → feq t s.sm[k].target = false →
          ∃ step, holds (fdiv (fsub t s.sm[k].cur) (floatOf s.smN)) step = true
            ∧ exec (.smset k t) s
              = .next { s with sm := s.sm.set k { s.sm[k] with target := t, count := s.smN, step := step } })

/-- R142 and R143: SMNEXT advances one sample and returns the value after the advance, its last step storing the
target itself; SMSNAP jumps to the target. -/
def Obligations.SmnextAdvancesAndSmsnapJumps : Prop :=
  ∀ (k : Fin 2) (s : State), s.status.prepared = true →
    let m := s.sm[k]
    encode (.smnext k) = [headWord 0x61 k 0] ∧ encode (.smsnap k) = [headWord 0x62 k 0]
      ∧ (m.count = 0 → exec (.smnext k) s = .next { s with res := s.res.set 0 m.cur })
      ∧ (m.count = 1 → exec (.smnext k) s
          = .next { s with sm := s.sm.set k { m with cur := m.target, count := 0 }, res := s.res.set 0 m.target })
      ∧ (2 ≤ m.count → ∃ cur, holds (fadd m.cur m.step) cur = true
          ∧ exec (.smnext k) s
            = .next { s with sm := s.sm.set k { m with cur := cur, count := m.count - 1 }, res := s.res.set 0 cur })
      ∧ exec (.smsnap k) s
        = .next { s with sm := s.sm.set k { m with cur := m.target, count := 0, step := posZero } }

/-! ## Encoding and the command port -/

/-- R70 to R73: decoding the words of any well-formed command gives that command and leaves the words after it. -/
def Obligations.DecodeInvertsEncode : Prop :=
  ∀ (i : Instr) (rest : List Word), i.wf = true → decode (encode i ++ rest) = .command i rest

/-- R71 to R75: what decodes is the encoding of a well-formed command: no bit of a legal command is ignored. -/
def Obligations.EncodeInvertsDecode : Prop :=
  ∀ (ws : List Word) (i : Instr) (rest : List Word),
    decode ws = .command i rest → i.wf = true ∧ ws = encode i ++ rest

/-- R75: exactly the head words R75 lists raise `ILLEGAL_COMMAND`, on the head word alone; they are one word long. -/
def Obligations.IllegalHeadWordsFault : Prop :=
  ∀ (h : Word) (rest : List Word) (s : State), s.status.err = false → s.cmd = h :: rest →
    let opc := h.toNat / 2 ^ 24
    let unit := h.toNat / 2 ^ 16 % 2 ^ 8
    let imm := h.toNat % 2 ^ 16
    let unitOpcodes := [0x10, 0x11, 0x12, 0x13, 0x14, 0x15, 0x16, 0x20, 0x21, 0x22, 0x23, 0x30, 0x31, 0x32, 0x40,
      0x41, 0x42, 0x43, 0x60, 0x61, 0x62]
    let otherOpcodes := [0x01, 0x02, 0x03, 0x04, 0x50, 0x51, 0x52, 0x53, 0x54, 0x55, 0x56]
    let illegal : Prop :=
      (opc ∉ unitOpcodes ∧ opc ∉ otherOpcodes)
        ∨ (opc ∈ otherOpcodes ∧ unit ≠ 0)
        ∨ ((opc = 0x01 ∨ opc = 0x04) ∧ 4 ≤ imm)
        ∨ ((opc = 0x16 ∨ opc = 0x54) ∧ 2 ≤ imm)
        ∨ (opc ∉ [0x01, 0x04, 0x16, 0x54] ∧ imm ≠ 0)
    (illegal → step s = .next (({ s with cmd := rest } : State).faulted .illegalCommand))
      ∧ (¬ illegal → ∀ t, step s = .next t → t.status.cause = .illegalCommand → s.status.cause = .illegalCommand)

/-- R70: a command is 1, 2, 3, 4, 10 or 14 words, fixed by its opcode; a stream that ends inside one leaves the core
waiting, nothing executed and nothing faulted; one that has arrived whole is executed, its words gone. That waiting is
a step to an unchanged state is the model's choice (log 4), and the draw counter that advances is its own (log 6). -/
def Obligations.CommandsAreConsumedWhole : Prop :=
  (∀ i j : Instr, i.wf = true → j.wf = true →
      opcOf ((encode i).headD 0) = opcOf ((encode j).headD 0) → (encode i).length = (encode j).length)
    ∧ ∀ i : Instr, i.wf = true → (encode i).length ∈ [1, 2, 3, 4, 10, 14]
        ∧ ∀ s : State, s.status.err = false →
            (∀ k, k < (encode i).length → s.cmd = (encode i).take k → step s = .next s)
              ∧ (∀ rest, s.cmd = encode i ++ rest →
                  step s = exec i { s with cmd := rest, draws := s.draws + 1 })

/-- A step with no fault pending runs the command its port decodes to, its words consumed; the draw counter, the
model's own (log 6), advances. -/
def Obligations.StepRunsTheDecodedCommand : Prop :=
  ∀ (s : State) (i : Instr) (rest : List Word), s.status.err = false → decode s.cmd = .command i rest →
    step s = exec i { s with cmd := rest, draws := s.draws + 1 }

/-- R71 to R73: words written out from the opcode map decode to the commands they stand for. -/
def Obligations.WordsFromTheMapDecode : Prop :=
  decode [0x01000002#32, 0x40E77000#32, 0x00000000#32, 0x00000200#32]
      = .command (.eprep 2 0x40E77000#32 0#32 0x200#32) []
    ∧ decode [0x140A0000#32, 0x42C80000#32, 0x3E800000#32] = .command (.dlrdlin 10 0x42C80000#32 0x3E800000#32) []
    ∧ decode [0x16030001#32, 0xBFC00000#32, 0x40000000#32, 0x3F000000#32]
      = .command (.dlproc 3 true 0xBFC00000#32 0x40000000#32 0x3F000000#32) []
    ∧ decode [0x21070000#32] = .command (.aprst 7) []
    ∧ decode [0x30090000#32] = .command (.lprst 9) []
    ∧ decode [0x40070000#32, 0xFFFFFFFF#32] = .command (.lfoseed 7 0xFFFFFFFF#32) []
    ∧ decode [0x54000001#32] = .command (.fsetfrz true) []
    ∧ decode [0x61010000#32] = .command (.smnext 1) []

/-! ## Faults, the status port and reset -/

/-- R167: a command that faults sets `ERR` and `CAUSE` and has no other effect; while `ERR` = 1 every word that arrives
is discarded without effect; reads of `STATUS` keep working. -/
def Obligations.FaultsArePreciseAndSticky : Prop :=
  (∀ (i : Instr) (s t : State), exec i s = .next t →
      (t.status.err = s.status.err ∧ t.status.cause = s.status.cause)
        ∨ ∃ c, c ≠ .noFault
            ∧ t = { s with status := { s.status with err := true, cause := c } })
    ∧ (∀ s : State, s.status.err = true → step s = .next { s with cmd := s.cmd.drop 1 })
    ∧ ∀ s : State, s.hostRead 0x00 = (s.status.word, s)

/-- R168: while `PREPARED` = 0 every command but EPREP raises `NOT_PREPARED`, before any other check; EPREP is
accepted: it completes, or refuses its own operands. -/
def Obligations.OnlyEprepRunsUnprepared : Prop :=
  ∀ (i : Instr) (s : State), s.status.prepared = false →
    (i.op ≠ .eprep → exec i s = .next (s.faulted .notPrepared))
      ∧ (i.op = .eprep → ∃ t, exec i s = .next t ∧ (t.status.prepared = true ∨ t = s.faulted .badConfig))

/-- R74: a unit index above its kind's range decodes, and raises `BAD_UNIT` before any state change; a legal one never
raises it. -/
def Obligations.UnitAboveRangeFaults : Prop :=
  ∀ (i : Instr) (limit : Nat) (s : State), i.op.unitLimit = some limit → s.status.prepared = true →
    (i.wf = true → decode (encode i) = .command i [])
      ∧ (limit ≤ i.unitField → exec i s = .next (s.faulted .badUnit))
      ∧ (i.unitField < limit → ∀ t, exec i s = .next t → t.status.cause = .badUnit → s.status.cause = .badUnit)

/-- R167, R171: no number of steps ends a fault: each discards one word, and nothing else ever changes. -/
def Obligations.NoStepEndsAFault : Prop :=
  ∀ (k : Nat) (s : State), s.status.err = true →
    Sys2Proof.core.run k s = .next ({ s with cmd := s.cmd.drop k } : State)

/-- R26 with R23: the status port's map, bit by bit for `STATUS` (that bit 2 reads `FIRST`, against R35, is log 22); a
read changes nothing (but the model's own draw counter, log 6, where R26 lets it return any word). -/
def Obligations.StatusPortReadsTheMap : Prop :=
  ∀ s : State,
    let w := (s.hostRead 0x00).1
    (w.getLsbD 0 = s.status.prepared ∧ w.getLsbD 1 = s.status.pvalid ∧ w.getLsbD 2 = s.status.first
        ∧ w.getLsbD 3 = s.status.err ∧ (w.extractLsb 7 4).toNat = s.status.cause.code ∧ w.toNat < 2 ^ 8)
      ∧ (s.hostRead 0x01).1 = s.nch ∧ (s.hostRead 0x02).1 = s.maxBlock
      ∧ (s.hostRead 0x03).1 ++ (s.hostRead 0x04).1 = s.fs64 ∧ (s.hostRead 0x05).1 = s.fs
      ∧ (s.hostRead 0x06).1 = 1 ∧ (s.hostRead 0x07).1 = 0
      ∧ (∀ i : Fin 8, (s.hostRead (0x08 + i)).1 = s.res[i])
      ∧ (s.status.pvalid = true → ∀ k : Fin 13, (s.hostRead (0x10 + k)).1 = s.prm[k])
      ∧ (∀ a, 0x1D ≤ a → (s.hostRead a).1 = 0)
      ∧ ∀ a, (s.hostRead a).2 = { s with draws := (s.hostRead a).2.draws }

/-- R36: the values R36 gives for hardware reset, at power-on and after the reset input from any state. That the port is
empty after the reset input, so that a step leaves the state as it is, is the model's choice: it drops the words that
had arrived and were not consumed (log 18), and waiting is a step to an unchanged state (log 4). -/
def Obligations.HardwareResetValues : Prop :=
  ∀ s : State, ∀ t ∈ [State.reset, s.hardwareReset],
    t.status.word = 0 ∧ t.status.prepared = false ∧ t.status.pvalid = false ∧ t.status.first = false
      ∧ t.status.err = false ∧ t.status.cause = .noFault
      ∧ t.fs64 = 0 ∧ t.fs = 0 ∧ t.fsr = 0 ∧ t.maxBlock = 0 ∧ t.nch = 0 ∧ t.xfAlpha = 0 ∧ t.smN = 0
      ∧ (∀ u : Fin 18, t.dl[u].cap = 0) ∧ t.n = none ∧ step t = .next t

/-! ## Who writes what -/

/-- R24, R25, R27, R99, R50: configuration and derived constants change by EPREP only, the parameter registers by
ESETP only, capacities by EPREP, DLPREP and APPREP only, `BUF` by EPROC only; no command touches the port or leaves
a sample counter behind. -/
def Obligations.EveryRegisterHasItsWriters : Prop :=
  ∀ (i : Instr) (s t : State), exec i s = .next t →
    (i.op ≠ .eprep → t.fs64 = s.fs64 ∧ t.fs = s.fs ∧ t.fsr = s.fsr ∧ t.maxBlock = s.maxBlock ∧ t.nch = s.nch
        ∧ t.xfAlpha = s.xfAlpha ∧ t.smN = s.smN ∧ t.status.prepared = s.status.prepared)
      ∧ (i.op ≠ .esetp → t.prm = s.prm)
      ∧ (i.op ≠ .esetp → i.op ≠ .eprep → t.status.pvalid = s.status.pvalid)
      ∧ (i.op ≠ .eproc → i.op ≠ .eprep → t.status.first = s.status.first)
      ∧ (i.op ≠ .eprep → i.op ≠ .dlprep → i.op ≠ .apprep → ∀ u : Fin 18, t.dl[u].cap = s.dl[u].cap)
      ∧ (i.op ≠ .eproc → t.buf = s.buf)
      ∧ t.cmd = s.cmd ∧ (s.n = none → t.n = none)

/-- R79: a command leaves every result register unchanged but those the opcode map says it writes. -/
def Obligations.OnlyNamedResultRegistersChange : Prop :=
  ∀ (i : Instr) (s t : State) (k : Fin 8), exec i s = .next t → k.val ∉ i.op.resultRegs → t.res[k] = s.res[k]

/-- R52, R95: the frame of the delay memories: a command changes no word of any `DLRAM[u]` but those
`Instr.storesTo` names, which are the words its own fills and pushes reach. -/
def Obligations.DelayMemoryFrame : Prop :=
  ∀ (i : Instr) (s t : State) (u : Fin 18) (a : Nat), exec i s = .next t → ¬ i.storesTo s u a →
    memRead t.dl[u].ram a = memRead s.dl[u].ram a

/-- R51: EPROC writes no word of `BUF` but those of its block. -/
def Obligations.EprocWritesOnlyItsBlock : Prop :=
  ∀ (nch : Nat) (numSamples : Word) (s t : State) (a : Nat), exec (.eproc nch numSamples) s = .next t →
    (∀ c n, c < nch → n < numSamples.toNat → a ≠ cfg.bufAddr s.maxBlock.toNat nch c n) →
    memRead t.buf a = memRead s.buf a

/-! ## Invariants of every step -/

/-- R28, R52, R99: under every configuration record whose tables meet R5, a step keeps the memories canonical and
inside their capacities, every capacity a power of two in range, every cursor inside, every base below the guard. -/
def Obligations.StepKeepsTheMemoriesSound : Prop :=
  (∀ (c : Cfg) (s t : State), c.tablesOk = true → MemoryInv c s → stepIn c s = .next t → MemoryInv c t)
    ∧ ∀ s t : State, MemoryInv cfg s → step s = .next t → MemoryInv cfg t

/-- R23, R22, R27, R29, R32, R33: a step keeps the invariants of the registers. -/
def Obligations.StepKeepsTheRegistersSound : Prop :=
  ∀ s t : State, RegisterInv s → step s = .next t → RegisterInv t

/-- R110: 0 ≤ phase < 1, 0 ≤ rate ≤ 0.5·FS, inc = rate / FS, depth ≥ 0 and not a NaN, in every modulator, on the
machine as built; EPREP establishes them and every step keeps them. The range of `FS` in the invariant and the range of a
seeded phase are those of `Cfg.DEFAULT`, the model's choice (log 3). -/
def Obligations.StepKeepsTheModulatorsSound : Prop :=
  ∀ s t : State, ModulatorInv s → step s = .next t → ModulatorInv t

/-- R133, R32: the freeze crossfade stays in [0, 1], whatever is executed. -/
def Obligations.StepKeepsTheCrossfadeInUnit : Prop :=
  ∀ s t : State, CrossfadeInv s → step s = .next t → CrossfadeInv t

/-- The four invariants hold right after hardware reset. -/
def Obligations.ResetMeetsTheInvariants : Prop :=
  MemoryInv cfg State.reset ∧ RegisterInv State.reset ∧ ModulatorInv State.reset ∧ CrossfadeInv State.reset

/-! ## What cannot be observed -/

/-- R36, R146: an EPREP that succeeds leaves nothing of what the units, the configuration and the protocol bits held
before. -/
def Obligations.EprepLeavesNothingOfTheUnits : Prop :=
  ∀ (nch : Nat) (fsHi fsLo maxBlock : Word) (s s' t t' : State), s.draws = s'.draws →
    exec (.eprep nch fsHi fsLo maxBlock) s = .next t → exec (.eprep nch fsHi fsLo maxBlock) s' = .next t' →
    t ≠ s.faulted .badConfig →
      t.fs64 = t'.fs64 ∧ t.fs = t'.fs ∧ t.fsr = t'.fsr ∧ t.maxBlock = t'.maxBlock ∧ t.nch = t'.nch
        ∧ t.xfAlpha = t'.xfAlpha ∧ t.smN = t'.smN ∧ t.dl = t'.dl ∧ t.apG = t'.apG ∧ t.lp = t'.lp ∧ t.lfo = t'.lfo
        ∧ t.fdn = t'.fdn ∧ t.sm = t'.sm ∧ t.status.prepared = t'.status.prepared
        ∧ t.status.pvalid = t'.status.pvalid ∧ t.status.first = t'.status.first

/-- R149, R150: applying an unchanged snapshot again changes no state. -/
def Obligations.ReapplyingASnapshotChangesNothing : Prop :=
  ∀ (nch : Nat) (s t : State), exec (.eproc nch 0) s = .next t → exec (.eproc nch 0) t = .next t

/-- R150, R197: `PRM[8]` is read by no command, and `PRM[11]` by none once a snapshot has been applied. -/
def Obligations.UnreadParametersHaveNoEffect : Prop :=
  ∀ (i : Instr) (s t : State) (w : Word), i.op ≠ .esetp → exec i s = .next t →
    exec i { s with prm := s.prm.set 8 w } = .next { t with prm := t.prm.set 8 w }
      ∧ (s.status.first = false →
          exec i { s with prm := s.prm.set 11 w } = .next { t with prm := t.prm.set 11 w })

/-- R161: a one-channel block gives the left output of a two-channel block fed the same signal on both channels, and
leaves the same state. -/
def Obligations.MonoBlockIsTheLeftOfAStereoBlock : Prop :=
  ∀ (s t1 t2 : State) (b1 b2 : Mem) (numSamples : Word),
    let at' := fun c n => cfg.bufAddr s.maxBlock.toNat 2 c n
    Memory.wf b1 = true → Memory.wf b2 = true → 2 ≤ s.nch.toNat →
    (∀ n, n < numSamples.toNat → memRead b2 (at' 0 n) = memRead b1 (at' 0 n)
        ∧ memRead b2 (at' 1 n) = memRead b1 (at' 0 n)) →
    exec (.eproc 1 numSamples) { s with buf := b1 } = .next t1 →
    exec (.eproc 2 numSamples) { s with buf := b2 } = .next t2 →
      (∀ n, n < numSamples.toNat → memRead t1.buf (at' 0 n) = memRead t2.buf (at' 0 n))
        ∧ ({ t1 with buf := [] } : State) = { t2 with buf := [] }

/-- R58, R63: the samples of a block up to index m depend only on the input samples up to index m: two buffers that
agree there give outputs that agree there. -/
def Obligations.LaterSamplesDoNotReachEarlierOutputs : Prop :=
  ∀ (s t1 t2 : State) (b1 b2 : Mem) (nch m : Nat) (numSamples : Word),
    let at' := fun c n => cfg.bufAddr s.maxBlock.toNat nch c n
    Memory.wf b1 = true → Memory.wf b2 = true → nch ≤ 2 → m < numSamples.toNat →
    (∀ c n, c < nch → n ≤ m → memRead b1 (at' c n) = memRead b2 (at' c n)) →
    exec (.eproc nch numSamples) { s with buf := b1 } = .next t1 →
    exec (.eproc nch numSamples) { s with buf := b2 } = .next t2 →
      ∀ c n, c < nch → n ≤ m → memRead t1.buf (at' c n) = memRead t2.buf (at' c n)

/-! ## The signal -/

/-- R159: with the mix at 0 the output is the dry input, bit for bit, for every finite dry input but −0.0 and every
finite wet sample, which is what R158 leaves. -/
def Obligations.MixZeroReturnsTheDryInput : Prop :=
  ∀ dry wet : Word, isFinite dry = true → dry ≠ negZero →
    isFinite (scrub wet) = true ∧ wetDry posZero dry (scrub wet) = dry

/-- R132: at width 0 (or a NaN width) the two outputs of FMIX are equal as values, whenever the side sum is finite
and the mid sum is not a NaN. -/
def Obligations.WidthZeroIsMono : Prop :=
  ∀ (v : Vector Word 8) (width : Word) (s t : State), s.status.prepared = true →
    (width = posZero ∨ isNaN width = true) → isFinite (mixSide cfg v) = true → isNaN (mixMid cfg v) = false →
    exec (.fmix v width) s = .next t → feq t.res[0] t.res[1] = true ∧ feq t.res[0] (mixMid cfg v) = true

/-- R142: after exactly `SM_N` SMNEXT commands a ramp stands on its target, bit for bit, and stays there. -/
def Obligations.RampLandsOnItsTarget : Prop :=
  ∀ (k : Fin 2) (target : Word) (s : State) (S : Nat → State), s.status.prepared = true → 1 ≤ s.smN →
    isNaN target = false → feq target s.sm[k].target = false →
    exec (.smset k target) s = .next (S 0) → (∀ j, exec (.smnext k) (S j) = .next (S (j + 1))) →
      (∀ j, j ≤ s.smN → (S j).sm[k].count = s.smN - j)
        ∧ ∀ j, s.smN ≤ j → (S j).sm[k].cur = target ∧ (S j).res[0] = target

/-- R91: `tap(k)` of a line is the word of the k-th most recent push since it was cleared, +0.0 where there were
fewer; `tap(0)` is the word the next push overwrites, the same as `tap(cap)`. -/
def Obligations.TapsReturnPastPushes : Prop :=
  ∀ (d : DelayLine) (xs : List Word), d.sound cfg = true →
    let e := xs.foldl DelayLine.push d.cleared
    (∀ k : Nat, e.tap k = memRead e.ram (((e.w : Int) - k) % e.cap).toNat)
      ∧ (∀ k : Nat, 1 ≤ k → k ≤ d.cap → e.tap k = (xs.reverse[k - 1]?).getD posZero)
      ∧ e.tap 0 = e.tap d.cap ∧ e.tap 0 = memRead e.ram e.w

/-- R93: on every sound line and for every pair of operands the total delay is finite, its integer part lies in
[1, cap − 3], its fraction is exact and in [0, 1), and the four taps of a cubic read are distinct words inside the
capacity. -/
def Obligations.TotalDelayStaysInsideTheGuard : Prop :=
  ∀ (d : DelayLine) (delay modOffset : Word), d.sound cfg = true →
    let D := d.totalDelay delay modOffset
    let Di := ffloor D
    let index := fun j : Nat => (((d.w : Int) - ((Di + j : Nat) - 1 : Nat)) % d.cap).toNat
    D = fclamp (fadd delay modOffset) lit1 (floatOf (d.cap - 3))
      ∧ isFinite D = true ∧ 1 ≤ Di ∧ Di ≤ d.cap - 3
      ∧ unitsOf (delayFraction D) = unitsOf D - (Di * 2 ^ 149 : Nat)
      ∧ within posZero lit1 (delayFraction D) = true ∧ flt (delayFraction D) lit1 = true
      ∧ (∀ j, j < 4 → index j < d.cap) ∧ (∀ j j', j < j' → j' < 4 → index j ≠ index j')

/-- R8, for finite operands: the sum, the difference, the product and the quotient by a nonzero divisor are the nearest
binary32 values to the exact results, ties to even, subnormals kept, overflow to infinity. The square root, the narrowing
of a binary64 and operands that are not finite are not part of it. -/
def Obligations.OperatorsRoundToNearestEven : Prop :=
  ∀ a b : Word, isFinite a = true → isFinite b = true →
    nearestTo (unitsOf a + unitsOf b) 1 (fadd a b)
      ∧ nearestTo (unitsOf a - unitsOf b) 1 (fsub a b)
      ∧ nearestTo (unitsOf a * unitsOf b) (2 ^ 149) (fmul a b)
      ∧ (unitsOf b ≠ 0 → nearestTo (unitsOf a * (unitsOf b).sign * 2 ^ 149) (magOf b) (fdiv a b))
end

