-- ==== Sys2Proof/Laws/Banks.lean ====
section
/-! SUPPORT. What a bank holds after one unit, or a run of units, has been replaced. Bank places are read by `Fin`
indexes; `simp` turns those into natural indexes, so cite these lemmas with `rw`. -/

namespace Sys2Proof.Machine

set_option Elab.async false

variable {α : Type} {n : Nat}

/-- A bank after one place was set. -/
theorem get_set (v : Vector α n) (i j : Fin n) (x : α) : (v.set i x)[j] = if i = j then x else v[j] := by
  simp [Vector.getElem_set, Fin.ext_iff]

theorem get_set_same (v : Vector α n) (i : Fin n) (x : α) : (v.set i x)[i] = x := by rw [get_set, if_pos rfl]

theorem get_set_other (v : Vector α n) {i j : Fin n} (h : i ≠ j) (x : α) : (v.set i x)[j] = v[j] := by
  rw [get_set, if_neg h]

theorem get_ofFn (f : Fin n → α) (i : Fin n) : (Vector.ofFn f)[i] = f i := by simp

/-- A predicate of every place survives setting one place to a value that has it. -/
theorem forall_set {p : Fin n → α → Prop} {v : Vector α n} (h : ∀ j, p j v[j]) {i : Fin n} {x : α} (hx : p i x)
    (j : Fin n) : p j (v.set i x)[j] := by
  rw [get_set]
  split
  · next e => exact e ▸ hx
  · exact h j

/-- The lane of a line, where it is a network line. -/
theorem get_mapLanes (dl : Vector DelayLine 18) (f : Fin 8 → DelayLine → DelayLine) (u : Fin 18) :
    (mapLanes dl f)[u] = if h : 10 ≤ u.val then f ⟨u.val - 10, by omega⟩ dl[u] else dl[u] := by
  simp [mapLanes]

theorem get_mapLanes_fdnLine (dl : Vector DelayLine 18) (f : Fin 8 → DelayLine → DelayLine) (i : Fin 8) :
    (mapLanes dl f)[fdnLine i] = f i dl[fdnLine i] := by
  rw [get_mapLanes, dif_pos (by simp [fdnLine])]
  congr 1
  simp [fdnLine]

theorem get_mapLanes_low (dl : Vector DelayLine 18) (f : Fin 8 → DelayLine → DelayLine) {u : Fin 18}
    (h : u.val < 10) : (mapLanes dl f)[u] = dl[u] := by
  rw [get_mapLanes, dif_neg (by omega)]

/-- A predicate of every line survives a change of the network lines that keeps it. -/
theorem forall_mapLanes {p : DelayLine → Prop} {dl : Vector DelayLine 18} {f : Fin 8 → DelayLine → DelayLine}
    (h : ∀ u : Fin 18, p dl[u]) (hf : ∀ i d, p d → p (f i d)) (u : Fin 18) : p (mapLanes dl f)[u] := by
  rw [get_mapLanes]
  split
  · exact hf _ _ (h u)
  · exact h u

theorem get_mapDamp (lp : Vector OnePole 10) (f : Fin 8 → OnePole → OnePole) (j : Fin 10) :
    (mapDamp lp f)[j] = if h : j.val < 8 then f ⟨j.val, h⟩ lp[j] else lp[j] := by
  simp [mapDamp]

theorem get_mapDamp_dampLP (lp : Vector OnePole 10) (f : Fin 8 → OnePole → OnePole) (i : Fin 8) :
    (mapDamp lp f)[dampLP i] = f i lp[dampLP i] := by
  rw [get_mapDamp, dif_pos (by simp [dampLP])]
  rfl

end Sys2Proof.Machine
end

