-- ==== Sys2Proof/Laws/State.lean ====
section
/-! SUPPORT. One lemma per field per update of State, true by rfl, so that no proof unfolds a record update. -/

namespace Sys2Proof.Machine

set_option Elab.async false

variable (s : State)

@[simp] theorem State.putRes_res (i : Fin 8) (v : Word) : (s.putRes i v).res = s.res.set i (sealNaN s.draws (.res i) v) := rfl
@[simp] theorem State.putRes_status (i : Fin 8) (v : Word) : (s.putRes i v).status = s.status := by dsimp only [State.putRes]
@[simp] theorem State.putRes_fs64 (i : Fin 8) (v : Word) : (s.putRes i v).fs64 = s.fs64 := by dsimp only [State.putRes]
@[simp] theorem State.putRes_fs (i : Fin 8) (v : Word) : (s.putRes i v).fs = s.fs := by dsimp only [State.putRes]
@[simp] theorem State.putRes_fsr (i : Fin 8) (v : Word) : (s.putRes i v).fsr = s.fsr := by dsimp only [State.putRes]
@[simp] theorem State.putRes_maxBlock (i : Fin 8) (v : Word) : (s.putRes i v).maxBlock = s.maxBlock := by dsimp only [State.putRes]
@[simp] theorem State.putRes_nch (i : Fin 8) (v : Word) : (s.putRes i v).nch = s.nch := by dsimp only [State.putRes]
@[simp] theorem State.putRes_xfAlpha (i : Fin 8) (v : Word) : (s.putRes i v).xfAlpha = s.xfAlpha := by dsimp only [State.putRes]
@[simp] theorem State.putRes_smN (i : Fin 8) (v : Word) : (s.putRes i v).smN = s.smN := by dsimp only [State.putRes]
@[simp] theorem State.putRes_prm (i : Fin 8) (v : Word) : (s.putRes i v).prm = s.prm := by dsimp only [State.putRes]
@[simp] theorem State.putRes_dl (i : Fin 8) (v : Word) : (s.putRes i v).dl = s.dl := by dsimp only [State.putRes]
@[simp] theorem State.putRes_apG (i : Fin 8) (v : Word) : (s.putRes i v).apG = s.apG := by dsimp only [State.putRes]
@[simp] theorem State.putRes_lp (i : Fin 8) (v : Word) : (s.putRes i v).lp = s.lp := by dsimp only [State.putRes]
@[simp] theorem State.putRes_lfo (i : Fin 8) (v : Word) : (s.putRes i v).lfo = s.lfo := by dsimp only [State.putRes]
@[simp] theorem State.putRes_fdn (i : Fin 8) (v : Word) : (s.putRes i v).fdn = s.fdn := by dsimp only [State.putRes]
@[simp] theorem State.putRes_sm (i : Fin 8) (v : Word) : (s.putRes i v).sm = s.sm := by dsimp only [State.putRes]
@[simp] theorem State.putRes_n (i : Fin 8) (v : Word) : (s.putRes i v).n = s.n := by dsimp only [State.putRes]
@[simp] theorem State.putRes_buf (i : Fin 8) (v : Word) : (s.putRes i v).buf = s.buf := by dsimp only [State.putRes]
@[simp] theorem State.putRes_cmd (i : Fin 8) (v : Word) : (s.putRes i v).cmd = s.cmd := by dsimp only [State.putRes]
@[simp] theorem State.putRes_draws (i : Fin 8) (v : Word) : (s.putRes i v).draws = s.draws := by dsimp only [State.putRes]

@[simp] theorem State.putAllRes_res (v : Vector Word 8) : (s.putAllRes v).res = Vector.ofFn fun i => sealNaN s.draws (.res i) v[i] := rfl
@[simp] theorem State.putAllRes_status (v : Vector Word 8) : (s.putAllRes v).status = s.status := by dsimp only [State.putAllRes]
@[simp] theorem State.putAllRes_fs64 (v : Vector Word 8) : (s.putAllRes v).fs64 = s.fs64 := by dsimp only [State.putAllRes]
@[simp] theorem State.putAllRes_fs (v : Vector Word 8) : (s.putAllRes v).fs = s.fs := by dsimp only [State.putAllRes]
@[simp] theorem State.putAllRes_fsr (v : Vector Word 8) : (s.putAllRes v).fsr = s.fsr := by dsimp only [State.putAllRes]
@[simp] theorem State.putAllRes_maxBlock (v : Vector Word 8) : (s.putAllRes v).maxBlock = s.maxBlock := by dsimp only [State.putAllRes]
@[simp] theorem State.putAllRes_nch (v : Vector Word 8) : (s.putAllRes v).nch = s.nch := by dsimp only [State.putAllRes]
@[simp] theorem State.putAllRes_xfAlpha (v : Vector Word 8) : (s.putAllRes v).xfAlpha = s.xfAlpha := by dsimp only [State.putAllRes]
@[simp] theorem State.putAllRes_smN (v : Vector Word 8) : (s.putAllRes v).smN = s.smN := by dsimp only [State.putAllRes]
@[simp] theorem State.putAllRes_prm (v : Vector Word 8) : (s.putAllRes v).prm = s.prm := by dsimp only [State.putAllRes]
@[simp] theorem State.putAllRes_dl (v : Vector Word 8) : (s.putAllRes v).dl = s.dl := by dsimp only [State.putAllRes]
@[simp] theorem State.putAllRes_apG (v : Vector Word 8) : (s.putAllRes v).apG = s.apG := by dsimp only [State.putAllRes]
@[simp] theorem State.putAllRes_lp (v : Vector Word 8) : (s.putAllRes v).lp = s.lp := by dsimp only [State.putAllRes]
@[simp] theorem State.putAllRes_lfo (v : Vector Word 8) : (s.putAllRes v).lfo = s.lfo := by dsimp only [State.putAllRes]
@[simp] theorem State.putAllRes_fdn (v : Vector Word 8) : (s.putAllRes v).fdn = s.fdn := by dsimp only [State.putAllRes]
@[simp] theorem State.putAllRes_sm (v : Vector Word 8) : (s.putAllRes v).sm = s.sm := by dsimp only [State.putAllRes]
@[simp] theorem State.putAllRes_n (v : Vector Word 8) : (s.putAllRes v).n = s.n := by dsimp only [State.putAllRes]
@[simp] theorem State.putAllRes_buf (v : Vector Word 8) : (s.putAllRes v).buf = s.buf := by dsimp only [State.putAllRes]
@[simp] theorem State.putAllRes_cmd (v : Vector Word 8) : (s.putAllRes v).cmd = s.cmd := by dsimp only [State.putAllRes]
@[simp] theorem State.putAllRes_draws (v : Vector Word 8) : (s.putAllRes v).draws = s.draws := by dsimp only [State.putAllRes]

@[simp] theorem State.copyRes_res (i : Fin 8) (w : Word) : (s.copyRes i w).res = s.res.set i w := rfl
@[simp] theorem State.copyRes_status (i : Fin 8) (w : Word) : (s.copyRes i w).status = s.status := by dsimp only [State.copyRes]
@[simp] theorem State.copyRes_fs64 (i : Fin 8) (w : Word) : (s.copyRes i w).fs64 = s.fs64 := by dsimp only [State.copyRes]
@[simp] theorem State.copyRes_fs (i : Fin 8) (w : Word) : (s.copyRes i w).fs = s.fs := by dsimp only [State.copyRes]
@[simp] theorem State.copyRes_fsr (i : Fin 8) (w : Word) : (s.copyRes i w).fsr = s.fsr := by dsimp only [State.copyRes]
@[simp] theorem State.copyRes_maxBlock (i : Fin 8) (w : Word) : (s.copyRes i w).maxBlock = s.maxBlock := by dsimp only [State.copyRes]
@[simp] theorem State.copyRes_nch (i : Fin 8) (w : Word) : (s.copyRes i w).nch = s.nch := by dsimp only [State.copyRes]
@[simp] theorem State.copyRes_xfAlpha (i : Fin 8) (w : Word) : (s.copyRes i w).xfAlpha = s.xfAlpha := by dsimp only [State.copyRes]
@[simp] theorem State.copyRes_smN (i : Fin 8) (w : Word) : (s.copyRes i w).smN = s.smN := by dsimp only [State.copyRes]
@[simp] theorem State.copyRes_prm (i : Fin 8) (w : Word) : (s.copyRes i w).prm = s.prm := by dsimp only [State.copyRes]
@[simp] theorem State.copyRes_dl (i : Fin 8) (w : Word) : (s.copyRes i w).dl = s.dl := by dsimp only [State.copyRes]
@[simp] theorem State.copyRes_apG (i : Fin 8) (w : Word) : (s.copyRes i w).apG = s.apG := by dsimp only [State.copyRes]
@[simp] theorem State.copyRes_lp (i : Fin 8) (w : Word) : (s.copyRes i w).lp = s.lp := by dsimp only [State.copyRes]
@[simp] theorem State.copyRes_lfo (i : Fin 8) (w : Word) : (s.copyRes i w).lfo = s.lfo := by dsimp only [State.copyRes]
@[simp] theorem State.copyRes_fdn (i : Fin 8) (w : Word) : (s.copyRes i w).fdn = s.fdn := by dsimp only [State.copyRes]
@[simp] theorem State.copyRes_sm (i : Fin 8) (w : Word) : (s.copyRes i w).sm = s.sm := by dsimp only [State.copyRes]
@[simp] theorem State.copyRes_n (i : Fin 8) (w : Word) : (s.copyRes i w).n = s.n := by dsimp only [State.copyRes]
@[simp] theorem State.copyRes_buf (i : Fin 8) (w : Word) : (s.copyRes i w).buf = s.buf := by dsimp only [State.copyRes]
@[simp] theorem State.copyRes_cmd (i : Fin 8) (w : Word) : (s.copyRes i w).cmd = s.cmd := by dsimp only [State.copyRes]
@[simp] theorem State.copyRes_draws (i : Fin 8) (w : Word) : (s.copyRes i w).draws = s.draws := by dsimp only [State.copyRes]

@[simp] theorem State.setDL_res (u : Fin 18) (d : DelayLine) : (s.setDL u d).res = s.res := by dsimp only [State.setDL]
@[simp] theorem State.setDL_status (u : Fin 18) (d : DelayLine) : (s.setDL u d).status = s.status := by dsimp only [State.setDL]
@[simp] theorem State.setDL_fs64 (u : Fin 18) (d : DelayLine) : (s.setDL u d).fs64 = s.fs64 := by dsimp only [State.setDL]
@[simp] theorem State.setDL_fs (u : Fin 18) (d : DelayLine) : (s.setDL u d).fs = s.fs := by dsimp only [State.setDL]
@[simp] theorem State.setDL_fsr (u : Fin 18) (d : DelayLine) : (s.setDL u d).fsr = s.fsr := by dsimp only [State.setDL]
@[simp] theorem State.setDL_maxBlock (u : Fin 18) (d : DelayLine) : (s.setDL u d).maxBlock = s.maxBlock := by dsimp only [State.setDL]
@[simp] theorem State.setDL_nch (u : Fin 18) (d : DelayLine) : (s.setDL u d).nch = s.nch := by dsimp only [State.setDL]
@[simp] theorem State.setDL_xfAlpha (u : Fin 18) (d : DelayLine) : (s.setDL u d).xfAlpha = s.xfAlpha := by dsimp only [State.setDL]
@[simp] theorem State.setDL_smN (u : Fin 18) (d : DelayLine) : (s.setDL u d).smN = s.smN := by dsimp only [State.setDL]
@[simp] theorem State.setDL_prm (u : Fin 18) (d : DelayLine) : (s.setDL u d).prm = s.prm := by dsimp only [State.setDL]
@[simp] theorem State.setDL_dl (u : Fin 18) (d : DelayLine) : (s.setDL u d).dl = s.dl.set u d := rfl
@[simp] theorem State.setDL_apG (u : Fin 18) (d : DelayLine) : (s.setDL u d).apG = s.apG := by dsimp only [State.setDL]
@[simp] theorem State.setDL_lp (u : Fin 18) (d : DelayLine) : (s.setDL u d).lp = s.lp := by dsimp only [State.setDL]
@[simp] theorem State.setDL_lfo (u : Fin 18) (d : DelayLine) : (s.setDL u d).lfo = s.lfo := by dsimp only [State.setDL]
@[simp] theorem State.setDL_fdn (u : Fin 18) (d : DelayLine) : (s.setDL u d).fdn = s.fdn := by dsimp only [State.setDL]
@[simp] theorem State.setDL_sm (u : Fin 18) (d : DelayLine) : (s.setDL u d).sm = s.sm := by dsimp only [State.setDL]
@[simp] theorem State.setDL_n (u : Fin 18) (d : DelayLine) : (s.setDL u d).n = s.n := by dsimp only [State.setDL]
@[simp] theorem State.setDL_buf (u : Fin 18) (d : DelayLine) : (s.setDL u d).buf = s.buf := by dsimp only [State.setDL]
@[simp] theorem State.setDL_cmd (u : Fin 18) (d : DelayLine) : (s.setDL u d).cmd = s.cmd := by dsimp only [State.setDL]
@[simp] theorem State.setDL_draws (u : Fin 18) (d : DelayLine) : (s.setDL u d).draws = s.draws := by dsimp only [State.setDL]

@[simp] theorem State.setAPg_res (a : Fin 8) (g : Word) : (s.setAPg a g).res = s.res := by dsimp only [State.setAPg]
@[simp] theorem State.setAPg_status (a : Fin 8) (g : Word) : (s.setAPg a g).status = s.status := by dsimp only [State.setAPg]
@[simp] theorem State.setAPg_fs64 (a : Fin 8) (g : Word) : (s.setAPg a g).fs64 = s.fs64 := by dsimp only [State.setAPg]
@[simp] theorem State.setAPg_fs (a : Fin 8) (g : Word) : (s.setAPg a g).fs = s.fs := by dsimp only [State.setAPg]
@[simp] theorem State.setAPg_fsr (a : Fin 8) (g : Word) : (s.setAPg a g).fsr = s.fsr := by dsimp only [State.setAPg]
@[simp] theorem State.setAPg_maxBlock (a : Fin 8) (g : Word) : (s.setAPg a g).maxBlock = s.maxBlock := by dsimp only [State.setAPg]
@[simp] theorem State.setAPg_nch (a : Fin 8) (g : Word) : (s.setAPg a g).nch = s.nch := by dsimp only [State.setAPg]
@[simp] theorem State.setAPg_xfAlpha (a : Fin 8) (g : Word) : (s.setAPg a g).xfAlpha = s.xfAlpha := by dsimp only [State.setAPg]
@[simp] theorem State.setAPg_smN (a : Fin 8) (g : Word) : (s.setAPg a g).smN = s.smN := by dsimp only [State.setAPg]
@[simp] theorem State.setAPg_prm (a : Fin 8) (g : Word) : (s.setAPg a g).prm = s.prm := by dsimp only [State.setAPg]
@[simp] theorem State.setAPg_dl (a : Fin 8) (g : Word) : (s.setAPg a g).dl = s.dl := by dsimp only [State.setAPg]
@[simp] theorem State.setAPg_apG (a : Fin 8) (g : Word) : (s.setAPg a g).apG = s.apG.set a g := rfl
@[simp] theorem State.setAPg_lp (a : Fin 8) (g : Word) : (s.setAPg a g).lp = s.lp := by dsimp only [State.setAPg]
@[simp] theorem State.setAPg_lfo (a : Fin 8) (g : Word) : (s.setAPg a g).lfo = s.lfo := by dsimp only [State.setAPg]
@[simp] theorem State.setAPg_fdn (a : Fin 8) (g : Word) : (s.setAPg a g).fdn = s.fdn := by dsimp only [State.setAPg]
@[simp] theorem State.setAPg_sm (a : Fin 8) (g : Word) : (s.setAPg a g).sm = s.sm := by dsimp only [State.setAPg]
@[simp] theorem State.setAPg_n (a : Fin 8) (g : Word) : (s.setAPg a g).n = s.n := by dsimp only [State.setAPg]
@[simp] theorem State.setAPg_buf (a : Fin 8) (g : Word) : (s.setAPg a g).buf = s.buf := by dsimp only [State.setAPg]
@[simp] theorem State.setAPg_cmd (a : Fin 8) (g : Word) : (s.setAPg a g).cmd = s.cmd := by dsimp only [State.setAPg]
@[simp] theorem State.setAPg_draws (a : Fin 8) (g : Word) : (s.setAPg a g).draws = s.draws := by dsimp only [State.setAPg]

@[simp] theorem State.setLP_res (f : Fin 10) (p : OnePole) : (s.setLP f p).res = s.res := by dsimp only [State.setLP]
@[simp] theorem State.setLP_status (f : Fin 10) (p : OnePole) : (s.setLP f p).status = s.status := by dsimp only [State.setLP]
@[simp] theorem State.setLP_fs64 (f : Fin 10) (p : OnePole) : (s.setLP f p).fs64 = s.fs64 := by dsimp only [State.setLP]
@[simp] theorem State.setLP_fs (f : Fin 10) (p : OnePole) : (s.setLP f p).fs = s.fs := by dsimp only [State.setLP]
@[simp] theorem State.setLP_fsr (f : Fin 10) (p : OnePole) : (s.setLP f p).fsr = s.fsr := by dsimp only [State.setLP]
@[simp] theorem State.setLP_maxBlock (f : Fin 10) (p : OnePole) : (s.setLP f p).maxBlock = s.maxBlock := by dsimp only [State.setLP]
@[simp] theorem State.setLP_nch (f : Fin 10) (p : OnePole) : (s.setLP f p).nch = s.nch := by dsimp only [State.setLP]
@[simp] theorem State.setLP_xfAlpha (f : Fin 10) (p : OnePole) : (s.setLP f p).xfAlpha = s.xfAlpha := by dsimp only [State.setLP]
@[simp] theorem State.setLP_smN (f : Fin 10) (p : OnePole) : (s.setLP f p).smN = s.smN := by dsimp only [State.setLP]
@[simp] theorem State.setLP_prm (f : Fin 10) (p : OnePole) : (s.setLP f p).prm = s.prm := by dsimp only [State.setLP]
@[simp] theorem State.setLP_dl (f : Fin 10) (p : OnePole) : (s.setLP f p).dl = s.dl := by dsimp only [State.setLP]
@[simp] theorem State.setLP_apG (f : Fin 10) (p : OnePole) : (s.setLP f p).apG = s.apG := by dsimp only [State.setLP]
@[simp] theorem State.setLP_lp (f : Fin 10) (p : OnePole) : (s.setLP f p).lp = s.lp.set f p := rfl
@[simp] theorem State.setLP_lfo (f : Fin 10) (p : OnePole) : (s.setLP f p).lfo = s.lfo := by dsimp only [State.setLP]
@[simp] theorem State.setLP_fdn (f : Fin 10) (p : OnePole) : (s.setLP f p).fdn = s.fdn := by dsimp only [State.setLP]
@[simp] theorem State.setLP_sm (f : Fin 10) (p : OnePole) : (s.setLP f p).sm = s.sm := by dsimp only [State.setLP]
@[simp] theorem State.setLP_n (f : Fin 10) (p : OnePole) : (s.setLP f p).n = s.n := by dsimp only [State.setLP]
@[simp] theorem State.setLP_buf (f : Fin 10) (p : OnePole) : (s.setLP f p).buf = s.buf := by dsimp only [State.setLP]
@[simp] theorem State.setLP_cmd (f : Fin 10) (p : OnePole) : (s.setLP f p).cmd = s.cmd := by dsimp only [State.setLP]
@[simp] theorem State.setLP_draws (f : Fin 10) (p : OnePole) : (s.setLP f p).draws = s.draws := by dsimp only [State.setLP]

@[simp] theorem State.setLFO_res (i : Fin 8) (l : Lfo) : (s.setLFO i l).res = s.res := by dsimp only [State.setLFO]
@[simp] theorem State.setLFO_status (i : Fin 8) (l : Lfo) : (s.setLFO i l).status = s.status := by dsimp only [State.setLFO]
@[simp] theorem State.setLFO_fs64 (i : Fin 8) (l : Lfo) : (s.setLFO i l).fs64 = s.fs64 := by dsimp only [State.setLFO]
@[simp] theorem State.setLFO_fs (i : Fin 8) (l : Lfo) : (s.setLFO i l).fs = s.fs := by dsimp only [State.setLFO]
@[simp] theorem State.setLFO_fsr (i : Fin 8) (l : Lfo) : (s.setLFO i l).fsr = s.fsr := by dsimp only [State.setLFO]
@[simp] theorem State.setLFO_maxBlock (i : Fin 8) (l : Lfo) : (s.setLFO i l).maxBlock = s.maxBlock := by dsimp only [State.setLFO]
@[simp] theorem State.setLFO_nch (i : Fin 8) (l : Lfo) : (s.setLFO i l).nch = s.nch := by dsimp only [State.setLFO]
@[simp] theorem State.setLFO_xfAlpha (i : Fin 8) (l : Lfo) : (s.setLFO i l).xfAlpha = s.xfAlpha := by dsimp only [State.setLFO]
@[simp] theorem State.setLFO_smN (i : Fin 8) (l : Lfo) : (s.setLFO i l).smN = s.smN := by dsimp only [State.setLFO]
@[simp] theorem State.setLFO_prm (i : Fin 8) (l : Lfo) : (s.setLFO i l).prm = s.prm := by dsimp only [State.setLFO]
@[simp] theorem State.setLFO_dl (i : Fin 8) (l : Lfo) : (s.setLFO i l).dl = s.dl := by dsimp only [State.setLFO]
@[simp] theorem State.setLFO_apG (i : Fin 8) (l : Lfo) : (s.setLFO i l).apG = s.apG := by dsimp only [State.setLFO]
@[simp] theorem State.setLFO_lp (i : Fin 8) (l : Lfo) : (s.setLFO i l).lp = s.lp := by dsimp only [State.setLFO]
@[simp] theorem State.setLFO_lfo (i : Fin 8) (l : Lfo) : (s.setLFO i l).lfo = s.lfo.set i l := rfl
@[simp] theorem State.setLFO_fdn (i : Fin 8) (l : Lfo) : (s.setLFO i l).fdn = s.fdn := by dsimp only [State.setLFO]
@[simp] theorem State.setLFO_sm (i : Fin 8) (l : Lfo) : (s.setLFO i l).sm = s.sm := by dsimp only [State.setLFO]
@[simp] theorem State.setLFO_n (i : Fin 8) (l : Lfo) : (s.setLFO i l).n = s.n := by dsimp only [State.setLFO]
@[simp] theorem State.setLFO_buf (i : Fin 8) (l : Lfo) : (s.setLFO i l).buf = s.buf := by dsimp only [State.setLFO]
@[simp] theorem State.setLFO_cmd (i : Fin 8) (l : Lfo) : (s.setLFO i l).cmd = s.cmd := by dsimp only [State.setLFO]
@[simp] theorem State.setLFO_draws (i : Fin 8) (l : Lfo) : (s.setLFO i l).draws = s.draws := by dsimp only [State.setLFO]

@[simp] theorem State.setSM_res (k : Fin 2) (m : Smoother) : (s.setSM k m).res = s.res := by dsimp only [State.setSM]
@[simp] theorem State.setSM_status (k : Fin 2) (m : Smoother) : (s.setSM k m).status = s.status := by dsimp only [State.setSM]
@[simp] theorem State.setSM_fs64 (k : Fin 2) (m : Smoother) : (s.setSM k m).fs64 = s.fs64 := by dsimp only [State.setSM]
@[simp] theorem State.setSM_fs (k : Fin 2) (m : Smoother) : (s.setSM k m).fs = s.fs := by dsimp only [State.setSM]
@[simp] theorem State.setSM_fsr (k : Fin 2) (m : Smoother) : (s.setSM k m).fsr = s.fsr := by dsimp only [State.setSM]
@[simp] theorem State.setSM_maxBlock (k : Fin 2) (m : Smoother) : (s.setSM k m).maxBlock = s.maxBlock := by dsimp only [State.setSM]
@[simp] theorem State.setSM_nch (k : Fin 2) (m : Smoother) : (s.setSM k m).nch = s.nch := by dsimp only [State.setSM]
@[simp] theorem State.setSM_xfAlpha (k : Fin 2) (m : Smoother) : (s.setSM k m).xfAlpha = s.xfAlpha := by dsimp only [State.setSM]
@[simp] theorem State.setSM_smN (k : Fin 2) (m : Smoother) : (s.setSM k m).smN = s.smN := by dsimp only [State.setSM]
@[simp] theorem State.setSM_prm (k : Fin 2) (m : Smoother) : (s.setSM k m).prm = s.prm := by dsimp only [State.setSM]
@[simp] theorem State.setSM_dl (k : Fin 2) (m : Smoother) : (s.setSM k m).dl = s.dl := by dsimp only [State.setSM]
@[simp] theorem State.setSM_apG (k : Fin 2) (m : Smoother) : (s.setSM k m).apG = s.apG := by dsimp only [State.setSM]
@[simp] theorem State.setSM_lp (k : Fin 2) (m : Smoother) : (s.setSM k m).lp = s.lp := by dsimp only [State.setSM]
@[simp] theorem State.setSM_lfo (k : Fin 2) (m : Smoother) : (s.setSM k m).lfo = s.lfo := by dsimp only [State.setSM]
@[simp] theorem State.setSM_fdn (k : Fin 2) (m : Smoother) : (s.setSM k m).fdn = s.fdn := by dsimp only [State.setSM]
@[simp] theorem State.setSM_sm (k : Fin 2) (m : Smoother) : (s.setSM k m).sm = s.sm.set k m := rfl
@[simp] theorem State.setSM_n (k : Fin 2) (m : Smoother) : (s.setSM k m).n = s.n := by dsimp only [State.setSM]
@[simp] theorem State.setSM_buf (k : Fin 2) (m : Smoother) : (s.setSM k m).buf = s.buf := by dsimp only [State.setSM]
@[simp] theorem State.setSM_cmd (k : Fin 2) (m : Smoother) : (s.setSM k m).cmd = s.cmd := by dsimp only [State.setSM]
@[simp] theorem State.setSM_draws (k : Fin 2) (m : Smoother) : (s.setSM k m).draws = s.draws := by dsimp only [State.setSM]

@[simp] theorem State.setFdn_res (f : Fdn) : (s.setFdn f).res = s.res := by dsimp only [State.setFdn]
@[simp] theorem State.setFdn_status (f : Fdn) : (s.setFdn f).status = s.status := by dsimp only [State.setFdn]
@[simp] theorem State.setFdn_fs64 (f : Fdn) : (s.setFdn f).fs64 = s.fs64 := by dsimp only [State.setFdn]
@[simp] theorem State.setFdn_fs (f : Fdn) : (s.setFdn f).fs = s.fs := by dsimp only [State.setFdn]
@[simp] theorem State.setFdn_fsr (f : Fdn) : (s.setFdn f).fsr = s.fsr := by dsimp only [State.setFdn]
@[simp] theorem State.setFdn_maxBlock (f : Fdn) : (s.setFdn f).maxBlock = s.maxBlock := by dsimp only [State.setFdn]
@[simp] theorem State.setFdn_nch (f : Fdn) : (s.setFdn f).nch = s.nch := by dsimp only [State.setFdn]
@[simp] theorem State.setFdn_xfAlpha (f : Fdn) : (s.setFdn f).xfAlpha = s.xfAlpha := by dsimp only [State.setFdn]
@[simp] theorem State.setFdn_smN (f : Fdn) : (s.setFdn f).smN = s.smN := by dsimp only [State.setFdn]
@[simp] theorem State.setFdn_prm (f : Fdn) : (s.setFdn f).prm = s.prm := by dsimp only [State.setFdn]
@[simp] theorem State.setFdn_dl (f : Fdn) : (s.setFdn f).dl = s.dl := by dsimp only [State.setFdn]
@[simp] theorem State.setFdn_apG (f : Fdn) : (s.setFdn f).apG = s.apG := by dsimp only [State.setFdn]
@[simp] theorem State.setFdn_lp (f : Fdn) : (s.setFdn f).lp = s.lp := by dsimp only [State.setFdn]
@[simp] theorem State.setFdn_lfo (f : Fdn) : (s.setFdn f).lfo = s.lfo := by dsimp only [State.setFdn]
@[simp] theorem State.setFdn_fdn (f : Fdn) : (s.setFdn f).fdn = f := rfl
@[simp] theorem State.setFdn_sm (f : Fdn) : (s.setFdn f).sm = s.sm := by dsimp only [State.setFdn]
@[simp] theorem State.setFdn_n (f : Fdn) : (s.setFdn f).n = s.n := by dsimp only [State.setFdn]
@[simp] theorem State.setFdn_buf (f : Fdn) : (s.setFdn f).buf = s.buf := by dsimp only [State.setFdn]
@[simp] theorem State.setFdn_cmd (f : Fdn) : (s.setFdn f).cmd = s.cmd := by dsimp only [State.setFdn]
@[simp] theorem State.setFdn_draws (f : Fdn) : (s.setFdn f).draws = s.draws := by dsimp only [State.setFdn]

@[simp] theorem State.setStatus_res (t : Status) : (s.setStatus t).res = s.res := by dsimp only [State.setStatus]
@[simp] theorem State.setStatus_status (t : Status) : (s.setStatus t).status = t := rfl
@[simp] theorem State.setStatus_fs64 (t : Status) : (s.setStatus t).fs64 = s.fs64 := by dsimp only [State.setStatus]
@[simp] theorem State.setStatus_fs (t : Status) : (s.setStatus t).fs = s.fs := by dsimp only [State.setStatus]
@[simp] theorem State.setStatus_fsr (t : Status) : (s.setStatus t).fsr = s.fsr := by dsimp only [State.setStatus]
@[simp] theorem State.setStatus_maxBlock (t : Status) : (s.setStatus t).maxBlock = s.maxBlock := by dsimp only [State.setStatus]
@[simp] theorem State.setStatus_nch (t : Status) : (s.setStatus t).nch = s.nch := by dsimp only [State.setStatus]
@[simp] theorem State.setStatus_xfAlpha (t : Status) : (s.setStatus t).xfAlpha = s.xfAlpha := by dsimp only [State.setStatus]
@[simp] theorem State.setStatus_smN (t : Status) : (s.setStatus t).smN = s.smN := by dsimp only [State.setStatus]
@[simp] theorem State.setStatus_prm (t : Status) : (s.setStatus t).prm = s.prm := by dsimp only [State.setStatus]
@[simp] theorem State.setStatus_dl (t : Status) : (s.setStatus t).dl = s.dl := by dsimp only [State.setStatus]
@[simp] theorem State.setStatus_apG (t : Status) : (s.setStatus t).apG = s.apG := by dsimp only [State.setStatus]
@[simp] theorem State.setStatus_lp (t : Status) : (s.setStatus t).lp = s.lp := by dsimp only [State.setStatus]
@[simp] theorem State.setStatus_lfo (t : Status) : (s.setStatus t).lfo = s.lfo := by dsimp only [State.setStatus]
@[simp] theorem State.setStatus_fdn (t : Status) : (s.setStatus t).fdn = s.fdn := by dsimp only [State.setStatus]
@[simp] theorem State.setStatus_sm (t : Status) : (s.setStatus t).sm = s.sm := by dsimp only [State.setStatus]
@[simp] theorem State.setStatus_n (t : Status) : (s.setStatus t).n = s.n := by dsimp only [State.setStatus]
@[simp] theorem State.setStatus_buf (t : Status) : (s.setStatus t).buf = s.buf := by dsimp only [State.setStatus]
@[simp] theorem State.setStatus_cmd (t : Status) : (s.setStatus t).cmd = s.cmd := by dsimp only [State.setStatus]
@[simp] theorem State.setStatus_draws (t : Status) : (s.setStatus t).draws = s.draws := by dsimp only [State.setStatus]

@[simp] theorem State.raise_res (c : Cause) : (raise c s).res = s.res := by dsimp only [raise, State.setStatus]
@[simp] theorem State.raise_status (c : Cause) : (raise c s).status = s.status.withFault c := rfl
@[simp] theorem State.raise_fs64 (c : Cause) : (raise c s).fs64 = s.fs64 := by dsimp only [raise, State.setStatus]
@[simp] theorem State.raise_fs (c : Cause) : (raise c s).fs = s.fs := by dsimp only [raise, State.setStatus]
@[simp] theorem State.raise_fsr (c : Cause) : (raise c s).fsr = s.fsr := by dsimp only [raise, State.setStatus]
@[simp] theorem State.raise_maxBlock (c : Cause) : (raise c s).maxBlock = s.maxBlock := by dsimp only [raise, State.setStatus]
@[simp] theorem State.raise_nch (c : Cause) : (raise c s).nch = s.nch := by dsimp only [raise, State.setStatus]
@[simp] theorem State.raise_xfAlpha (c : Cause) : (raise c s).xfAlpha = s.xfAlpha := by dsimp only [raise, State.setStatus]
@[simp] theorem State.raise_smN (c : Cause) : (raise c s).smN = s.smN := by dsimp only [raise, State.setStatus]
@[simp] theorem State.raise_prm (c : Cause) : (raise c s).prm = s.prm := by dsimp only [raise, State.setStatus]
@[simp] theorem State.raise_dl (c : Cause) : (raise c s).dl = s.dl := by dsimp only [raise, State.setStatus]
@[simp] theorem State.raise_apG (c : Cause) : (raise c s).apG = s.apG := by dsimp only [raise, State.setStatus]
@[simp] theorem State.raise_lp (c : Cause) : (raise c s).lp = s.lp := by dsimp only [raise, State.setStatus]
@[simp] theorem State.raise_lfo (c : Cause) : (raise c s).lfo = s.lfo := by dsimp only [raise, State.setStatus]
@[simp] theorem State.raise_fdn (c : Cause) : (raise c s).fdn = s.fdn := by dsimp only [raise, State.setStatus]
@[simp] theorem State.raise_sm (c : Cause) : (raise c s).sm = s.sm := by dsimp only [raise, State.setStatus]
@[simp] theorem State.raise_n (c : Cause) : (raise c s).n = s.n := by dsimp only [raise, State.setStatus]
@[simp] theorem State.raise_buf (c : Cause) : (raise c s).buf = s.buf := by dsimp only [raise, State.setStatus]
@[simp] theorem State.raise_cmd (c : Cause) : (raise c s).cmd = s.cmd := by dsimp only [raise, State.setStatus]
@[simp] theorem State.raise_draws (c : Cause) : (raise c s).draws = s.draws := by dsimp only [raise, State.setStatus]

end Sys2Proof.Machine
end

