-- ==== Sys2Proof/Laws/Step.lean ====
section
/-! SUPPORT. What the shared checks, a fault, a command and a step can do, said once each. -/

namespace Sys2Proof.Machine

set_option Elab.async false

/-! ## Faults and checks (R167, R168, R74) -/

theorem raise_eq (c : Cause) (s : State) : raise c s = s.faulted c := rfl

@[simp] theorem unitIndex_fin {limit : Nat} (u : Fin limit) : unitIndex limit u.val = some u := by
  simp [unitIndex]

theorem unitIndex_none {limit u : Nat} (h : limit ≤ u) : unitIndex limit u = none := by
  simp [unitIndex, Nat.not_lt.2 h]

theorem whenPrepared_of_prepared {s : State} (h : s.status.prepared = true) (k : State) : whenPrepared s k = k := by
  simp [whenPrepared, h]

theorem whenPrepared_of_not {s : State} (h : s.status.prepared = false) (k : State) :
    whenPrepared s k = s.faulted .notPrepared := by
  simp [whenPrepared, h, raise_eq]

/-- A unit command on a unit that exists, while the core is prepared. -/
theorem onUnit_fin {s : State} (h : s.status.prepared = true) {limit : Nat} (u : Fin limit) (k : Fin limit → State) :
    onUnit limit u.val s k = k u := by
  simp [onUnit, whenPrepared, h]

theorem onUnit_bad {s : State} (h : s.status.prepared = true) {limit u : Nat} (hu : limit ≤ u)
    (k : Fin limit → State) : onUnit limit u s k = s.faulted .badUnit := by
  simp [onUnit, whenPrepared, h, unitIndex_none hu, raise_eq]

theorem onUnit_of_not {s : State} (h : s.status.prepared = false) (limit u : Nat) (k : Fin limit → State) :
    onUnit limit u s k = s.faulted .notPrepared := whenPrepared_of_not h _

/-- Everything the check of R168 can do. -/
theorem whenPrepared_cases {P : State → Prop} {s k : State}
    (hNot : s.status.prepared = false → P (s.faulted .notPrepared)) (hRun : s.status.prepared = true → P k) :
    P (whenPrepared s k) := by
  cases h : s.status.prepared with
  | false => rw [whenPrepared_of_not h]; exact hNot h
  | true => rw [whenPrepared_of_prepared h]; exact hRun h

/-- Everything a unit command can do. -/
theorem onUnit_cases {P : State → Prop} {limit u : Nat} {s : State} {k : Fin limit → State}
    (hNot : s.status.prepared = false → P (s.faulted .notPrepared))
    (hBad : s.status.prepared = true → limit ≤ u → P (s.faulted .badUnit))
    (hRun : ∀ i : Fin limit, s.status.prepared = true → u = i.val → P (k i)) : P (onUnit limit u s k) := by
  cases h : s.status.prepared with
  | false => rw [onUnit_of_not h]; exact hNot h
  | true =>
    rcases Nat.lt_or_ge u limit with hu | hu
    · have := onUnit_fin h ⟨u, hu⟩ k
      rw [show onUnit limit u s k = k ⟨u, hu⟩ from this]
      exact hRun ⟨u, hu⟩ h rfl
    · rw [onUnit_bad h hu]; exact hBad h hu

/-! ## Commands and steps -/

/-- Every command answers a next state: `execIn` under the machine's configuration. -/
theorem exec_eq (i : Instr) (s : State) : exec i s = .next (execIn cfg i s) := by cases i <;> rfl

theorem exec_next {i : Instr} {s t : State} : exec i s = .next t ↔ execIn cfg i s = t := by
  rw [exec_eq, Host.Outcome.next.injEq]

theorem step_eq_stepIn (s : State) : step s = stepIn cfg s := by
  unfold step stepIn
  congr 1
  funext i t
  exact exec_eq i t

/-- Everything a step can do: discard a word, run a command, wait, or fault on an illegal head word. -/
theorem stepIn_cases {c : Cfg} {s t : State} (h : stepIn c s = .next t) :
    (s.status.err = true ∧ t = s.dropWords 1)
    ∨ (s.status.err = false ∧ ∃ i rest, decode s.cmd = .command i rest ∧ t = execIn c i (s.consume rest))
    ∨ (s.status.err = false ∧ ∃ r, decode s.cmd = .rejected r ∧ rejectWaits r = true ∧ t = s)
    ∨ (s.status.err = false ∧ ∃ r, decode s.cmd = .rejected r ∧ rejectWaits r = false
        ∧ t = (s.dropWords 1).faulted .illegalCommand) := by
  unfold stepIn fetchAndRun at h
  cases he : s.status.err with
  | true =>
    rw [he, if_pos rfl] at h
    exact .inl ⟨rfl, (Host.Outcome.next.inj h).symm⟩
  | false =>
    rw [he, if_neg Bool.false_ne_true] at h
    cases hd : decode s.cmd with
    | command i rest =>
      rw [hd] at h
      exact .inr (.inl ⟨rfl, i, rest, rfl, (Host.Outcome.next.inj h).symm⟩)
    | rejected r =>
      rw [hd] at h
      dsimp only at h
      cases hw : rejectWaits r with
      | true =>
        rw [hw, if_pos rfl] at h
        exact .inr (.inr (.inl ⟨rfl, r, rfl, hw, (Host.Outcome.next.inj h).symm⟩))
      | false =>
        rw [hw, if_neg Bool.false_ne_true] at h
        exact .inr (.inr (.inr ⟨rfl, r, rfl, hw, (Host.Outcome.next.inj h).symm⟩))

end Sys2Proof.Machine
end

