-- ==== Sys2Proof/Laws/Commands.lean ====
section
/-! SUPPORT. What each command answers on a prepared core whose unit exists, before its own arithmetic: one lemma a
command, so that no proof unfolds the common checks (spec/60_exceptions.md R169). -/

namespace Sys2Proof.Machine

set_option Elab.async false

variable {s : State} (h : s.status.prepared = true)
include h

theorem exec_erst : exec .erst s = .next s.clearAudio := by
  rw [exec_eq]; simp only [execIn, erst, whenPrepared_of_prepared h]

theorem exec_esetp (p : Vector Word 13) :
    exec (.esetp p) s = .next { s with prm := storedParams p, status := s.status.afterParams } := by
  rw [exec_eq]; simp only [execIn, esetp, whenPrepared_of_prepared h]

theorem exec_eproc (nch : Nat) (numSamples : Word) :
    exec (.eproc nch numSamples) s = .next
      (if !s.status.pvalid then s.faulted .noParams
      else if nch < 1 ∨ u32 s.nch < nch then s.faulted .badCount
      else if u32 s.maxBlock < u32 numSamples then s.faulted .badCount
      else (State.samples cfg nch (u32 numSamples) (s.applySnapshot cfg).beginBlock).endBlock) := by
  rw [exec_eq]; simp only [execIn, eproc, whenPrepared_of_prepared h, raise_eq]

theorem exec_dlprep (u : Fin 18) (m : Word) :
    exec (.dlprep u m) s = .next
      (if cfg.capMax < u32 m + 4 then s.faulted .badConfig else s.setDL u (DelayLine.prepared (u32 m))) := by
  rw [exec_eq]; simp only [execIn, dlprep, onUnit_fin h, raise_eq]

theorem exec_dlrst (u : Fin 18) : exec (.dlrst u) s = .next (s.setDL u s.dl[u].cleared) := by
  rw [exec_eq]; simp only [execIn, dlrst, onUnit_fin h]

theorem exec_dlsetd (u : Fin 18) (d : Word) : exec (.dlsetd u d) s = .next (s.setDL u (s.dl[u].withBase (u32 d))) := by
  rw [exec_eq]; simp only [execIn, dlsetd, onUnit_fin h]

theorem exec_dlpush (u : Fin 18) (x : Word) : exec (.dlpush u x) s = .next (s.setDL u (s.dl[u].push x)) := by
  rw [exec_eq]; simp only [execIn, dlpush, onUnit_fin h]

theorem exec_dlrdlin (u : Fin 18) (d m : Word) :
    exec (.dlrdlin u d m) s = .next (s.putRes 0 (s.dl[u].readLinear d m)) := by
  rw [exec_eq]; simp only [execIn, dlrdlin, onUnit_fin h]

theorem exec_dlrdlag (u : Fin 18) (d m : Word) :
    exec (.dlrdlag u d m) s = .next (s.putRes 0 (s.dl[u].readCubic d m)) := by
  rw [exec_eq]; simp only [execIn, dlrdlag, onUnit_fin h]

theorem exec_dlproc (u : Fin 18) (mode : Bool) (x d m : Word) :
    exec (.dlproc u mode x d m) s
      = .next ((s.setDL u (s.dl[u].push x)).putRes 0 (s.dl[u].read mode d m)) := by
  rw [exec_eq]; simp only [execIn, dlproc, onUnit_fin h]

theorem exec_apprep (a : Fin 8) (len : Word) :
    exec (.apprep a len) s = .next
      (if cfg.capMax < u32 len + 4 then s.faulted .badConfig else s.setDL (apLine a) (allpassLine (u32 len))) := by
  rw [exec_eq]; simp only [execIn, apprep, onUnit_fin (limit := numAP) h, raise_eq]

theorem exec_aprst (a : Fin 8) : exec (.aprst a) s = .next (s.setDL (apLine a) s.dl[apLine a].cleared) := by
  rw [exec_eq]; simp only [execIn, aprst, onUnit_fin (limit := numAP) h]

theorem exec_apsetg (a : Fin 8) (g : Word) : exec (.apsetg a g) s = .next (s.setAPg a (allpassGain g)) := by
  rw [exec_eq]; simp only [execIn, apsetg, onUnit_fin (limit := numAP) h]

theorem exec_approc (a : Fin 8) (x : Word) :
    exec (.approc a x) s = .next ((s.allpass a x).2.putRes 0 (s.allpass a x).1) := by
  rw [exec_eq]; simp only [execIn, approc, onUnit_fin (limit := numAP) h]

theorem exec_lprst (f : Fin 10) : exec (.lprst f) s = .next (s.setLP f s.lp[f].cleared) := by
  rw [exec_eq]; simp only [execIn, lprst, onUnit_fin (limit := numLP) h]

theorem exec_lpsetc (f : Fin 10) (hz : Word) : exec (.lpsetc f hz) s = .next (s.setCutoff cfg f hz) := by
  rw [exec_eq]; simp only [execIn, lpsetc, onUnit_fin (limit := numLP) h]

theorem exec_lpproc (f : Fin 10) (x : Word) :
    exec (.lpproc f x) s = .next ((s.lowpass f x).2.putRes 0 (s.lowpass f x).1) := by
  rw [exec_eq]; simp only [execIn, lpproc, onUnit_fin (limit := numLP) h]

theorem exec_lfoseed (i : Fin 8) (seed : Word) :
    exec (.lfoseed i seed) s = .next (s.setLFO i (s.lfo[i].seeded cfg i seed)) := by
  rw [exec_eq]; simp only [execIn, lfoseed, onUnit_fin (limit := numLFO) h]

theorem exec_lfosetr (i : Fin 8) (x : Word) :
    exec (.lfosetr i x) s = .next (s.setLFO i (s.lfo[i].withRate s.draws i s.fs x)) := by
  rw [exec_eq]; simp only [execIn, lfosetr, onUnit_fin (limit := numLFO) h]

theorem exec_lfosetd (i : Fin 8) (x : Word) : exec (.lfosetd i x) s = .next (s.setLFO i (s.lfo[i].withDepth x)) := by
  rw [exec_eq]; simp only [execIn, lfosetd, onUnit_fin (limit := numLFO) h]

theorem exec_lfonext (i : Fin 8) :
    exec (.lfonext i) s = .next ((s.setLFO i (s.lfo[i].after cfg s.draws i)).putRes 0 (s.lfo[i].offset cfg)) := by
  rw [exec_eq]; simp only [execIn, lfonext, onUnit_fin (limit := numLFO) h]

theorem exec_fsetsize (x : Word) : exec (.fsetsize x) s = .next (s.setSize cfg x) := by
  rw [exec_eq]; simp only [execIn, fsetsize, whenPrepared_of_prepared h]

theorem exec_fsetrt60 (x : Word) : exec (.fsetrt60 x) s = .next (s.setRT60 cfg x) := by
  rw [exec_eq]; simp only [execIn, fsetrt60, whenPrepared_of_prepared h]

theorem exec_fsetdamp (x : Word) : exec (.fsetdamp x) s = .next (s.setDamp cfg x) := by
  rw [exec_eq]; simp only [execIn, fsetdamp, whenPrepared_of_prepared h]

theorem exec_fsetmod (r d : Word) : exec (.fsetmod r d) s = .next (s.setMod cfg r d) := by
  rw [exec_eq]; simp only [execIn, fsetmod, whenPrepared_of_prepared h]

theorem exec_fsetfrz (on : Bool) : exec (.fsetfrz on) s = .next (s.setFreeze on) := by
  rw [exec_eq]; simp only [execIn, fsetfrz, whenPrepared_of_prepared h]

theorem exec_ftick (x : Word) :
    exec (.ftick x) s = .next ((s.tickState cfg x).putAllRes (s.tickReads cfg)) := by
  rw [exec_eq]; simp only [execIn, ftick, whenPrepared_of_prepared h, State.tick]

theorem exec_fmix (v : Vector Word 8) (w : Word) :
    exec (.fmix v w) s = .next ((s.putRes 0 (mixStereo cfg v w).1).putRes 1 (mixStereo cfg v w).2) := by
  rw [exec_eq]; simp only [execIn, fmix, whenPrepared_of_prepared h]

theorem exec_smset (k : Fin 2) (t : Word) :
    exec (.smset k t) s = .next (s.setSM k (s.sm[k].toward s.draws k s.smN t)) := by
  rw [exec_eq]; simp only [execIn, smset, onUnit_fin (limit := numSM) h]

theorem exec_smnext (k : Fin 2) :
    exec (.smnext k) s
      = .next ((s.setSM k (s.sm[k].advanced s.draws k)).copyRes 0 (s.sm[k].advanced s.draws k).cur) := by
  rw [exec_eq]; simp only [execIn, smnext, onUnit_fin (limit := numSM) h, State.smooth]

theorem exec_smsnap (k : Fin 2) : exec (.smsnap k) s = .next (s.setSM k s.sm[k].snapped) := by
  rw [exec_eq]; simp only [execIn, smsnap, onUnit_fin (limit := numSM) h]

end Sys2Proof.Machine
end

