-- ==== Sys2Proof/Laws/Numbers.lean ====
section
/-! SUPPORT. What the clamps, the integer helpers and the NaN seal answer (spec/00_scope.md R11, R12, R13). -/

namespace Sys2Proof.Machine

set_option Elab.async false

/-! ## Clamps (R11) -/

theorem fclamp_of_isNaN {x : Word} (h : isNaN x = true) (lo hi : Word) : fclamp x lo hi = lo := by
  simp [fclamp, h]

/-- A clamp lands between its bounds and is never a NaN. -/
theorem fclamp_within {lo hi : Word} (hlo : isNaN lo = false) (hhi : isNaN hi = false)
    (hle : unitsOf lo ≤ unitsOf hi) (x : Word) : within lo hi (fclamp x lo hi) = true := by
  unfold fclamp
  split
  · simp [within, hlo, hle]
  · next hx =>
    rw [Bool.not_eq_true] at hx
    split
    · simp [within, hlo, hle]
    · next h1 =>
      split
      · simp [within, hhi, hle]
      · next h2 =>
        simp only [flt, hx, hlo, hhi, Bool.not_false, Bool.true_and, decide_eq_true_eq] at h1 h2
        simp [within, hx]
        omega

/-- A value already between the bounds is returned unchanged. -/
theorem fclamp_of_within {lo hi x : Word} (h : within lo hi x = true) : fclamp x lo hi = x := by
  simp only [within, Bool.and_eq_true, Bool.not_eq_true', decide_eq_true_eq] at h
  simp only [fclamp, flt, h.1.1, Bool.and_eq_true, decide_eq_true_eq]
  rw [if_neg (by simp), if_neg (by omega), if_neg (by omega)]

theorem clampInt_le (k lo hi : Nat) : clampInt k lo hi ≤ hi := by simp [clampInt]

theorem clampInt_eq {lo hi : Nat} (h : lo ≤ hi) (k : Nat) :
    clampInt k lo hi = if k < lo then lo else if hi < k then hi else k := by
  unfold clampInt; split
  · omega
  · split <;> omega

/-! ## The NaN seal (R13) -/

@[simp] theorem sealNaN_of_not_isNaN {w : Word} (h : isNaN w = false) (d : Nat) (l : Loc) : sealNaN d l w = w := by
  simp [sealNaN, h]

/-! ## nextPow2 (R12) -/

theorem isPow2_two_pow (e : Nat) : isPow2 (2 ^ e) = true := by
  simp [isPow2]

theorem isPow2_iff {n : Nat} : isPow2 n = true ↔ ∃ e, n = 2 ^ e := by
  constructor
  · intro h
    simp only [isPow2, Bool.and_eq_true, beq_iff_eq] at h
    exact ⟨_, h.1⟩
  · rintro ⟨e, rfl⟩
    exact isPow2_two_pow e

theorem isPow2_nextPow2 (k : Nat) : isPow2 (nextPow2 k) = true := by
  unfold nextPow2
  split
  · rfl
  · exact isPow2_two_pow _

theorem le_nextPow2 (k : Nat) : k ≤ nextPow2 k := by
  unfold nextPow2
  split
  · assumption
  · have := Nat.lt_log2_self (n := k - 1)
    omega

/-- `nextPow2(k)` is the least power of two at or above k. -/
theorem nextPow2_le {k e : Nat} (h : k ≤ 2 ^ e) : nextPow2 k ≤ 2 ^ e := by
  unfold nextPow2
  split
  · exact Nat.one_le_two_pow
  · next hk =>
    apply Nat.pow_le_pow_right (by omega)
    have : Nat.log2 (k - 1) < e := (Nat.log2_lt (by omega)).2 (by omega)
    omega

/-- A capacity that fits a power-of-two limit is rounded up within it. -/
theorem nextPow2_le_of_isPow2 {k c : Nat} (hc : isPow2 c = true) (h : k ≤ c) : nextPow2 k ≤ c := by
  obtain ⟨e, rfl⟩ := isPow2_iff.1 hc
  exact nextPow2_le h

end Sys2Proof.Machine
end

