-- ==== Sys2Proof/Laws/Rounding.lean ====
section
/-! SUPPORT. Rounding (spec/00_scope.md R8): the pattern order is the value order, a representable value rounds to
itself, rounding is monotone, and the answer of `roundTo` as a sign and a pattern. -/

namespace Sys2Proof.Machine

set_option Elab.async false

/-! ## Patterns: bits 30:0 of a word, as a number -/

/-- The magnitude in units of 2^−149 of a 31-bit pattern. -/
def patMag (p : Nat) : Nat := if p / 2 ^ 23 = 0 then p % 2 ^ 23 else (2 ^ 23 + p % 2 ^ 23) * 2 ^ (p / 2 ^ 23 - 1)

theorem expOf_eq (w : Word) : expOf w = w.toNat % 2 ^ 31 / 2 ^ 23 := by
  simp only [expOf, BitVec.extractLsb, BitVec.extractLsb'_toNat, Nat.shiftRight_eq_div_pow]
  have := w.isLt
  omega

theorem fracOf_eq (w : Word) : fracOf w = w.toNat % 2 ^ 31 % 2 ^ 23 := by
  simp only [fracOf, BitVec.extractLsb, BitVec.extractLsb'_toNat, Nat.shiftRight_eq_div_pow]
  have := w.isLt
  omega

theorem magOf_eq (w : Word) : magOf w = patMag (w.toNat % 2 ^ 31) := by
  simp only [magOf, patMag, expOf_eq, fracOf_eq]

/-- A pattern from a significand and an exponent, normalised or not. -/
theorem patMag_mul_add {e m : Nat} (hm : m ≤ 2 ^ 24) (h : e = 0 ∨ 2 ^ 23 ≤ m) :
    patMag (e * 2 ^ 23 + m) = m * 2 ^ e := by
  unfold patMag
  rcases Nat.lt_or_ge m (2 ^ 23) with h1 | h1
  · have he : e = 0 := by omega
    subst he
    rw [if_pos (by omega)]; omega
  · rcases Nat.lt_or_ge m (2 ^ 24) with h2 | h2
    · have hd : (e * 2 ^ 23 + m) / 2 ^ 23 = e + 1 := by omega
      have hr : (e * 2 ^ 23 + m) % 2 ^ 23 = m - 2 ^ 23 := by omega
      rw [hd, hr, if_neg (by omega), show 2 ^ 23 + (m - 2 ^ 23) = m by omega, Nat.add_sub_cancel]
    · have hd : (e * 2 ^ 23 + m) / 2 ^ 23 = e + 2 := by omega
      have hr : (e * 2 ^ 23 + m) % 2 ^ 23 = 0 := by omega
      have hm' : m = 2 ^ 23 * 2 := by omega
      rw [hd, hr, if_neg (by omega), hm', Nat.mul_assoc, ← Nat.pow_add_one']
      rfl

theorem patMag_lt_succ (p : Nat) : patMag p < patMag (p + 1) := by
  have hp : p = p / 2 ^ 23 * 2 ^ 23 + p % 2 ^ 23 := by omega
  rcases Nat.eq_zero_or_pos (p / 2 ^ 23) with h0 | h0
  · have : p < 2 ^ 23 := by omega
    have h1 := patMag_mul_add (e := 0) (m := p) (by omega) (.inl rfl)
    have h2 := patMag_mul_add (e := 0) (m := p + 1) (by omega) (.inl rfl)
    simp only [Nat.zero_mul, Nat.zero_add, Nat.pow_zero, Nat.mul_one] at h1 h2
    omega
  · obtain ⟨e, he⟩ : ∃ e, p / 2 ^ 23 = e + 1 := ⟨p / 2 ^ 23 - 1, by omega⟩
    have h1 := patMag_mul_add (e := e) (m := 2 ^ 23 + p % 2 ^ 23) (by omega) (.inr (by omega))
    have h2 := patMag_mul_add (e := e) (m := 2 ^ 23 + p % 2 ^ 23 + 1) (by omega) (.inr (by omega))
    have e1 : e * 2 ^ 23 + (2 ^ 23 + p % 2 ^ 23) = p := by omega
    have e2 : e * 2 ^ 23 + (2 ^ 23 + p % 2 ^ 23 + 1) = p + 1 := by omega
    rw [e1] at h1; rw [e2] at h2
    rw [h1, h2]
    exact Nat.mul_lt_mul_of_pos_right (by omega) (Nat.two_pow_pos e)

theorem patMag_strictMono : StrictMono patMag := strictMono_nat_of_lt_succ patMag_lt_succ

/-! ## Integer division to nearest -/

@[simp] theorem divNearestEven_zero (n : Nat) : divNearestEven n 0 = n := by
  simp only [divNearestEven, Nat.pow_zero, Nat.div_one, Nat.mod_one]
  rfl

theorem divNearestEven_exact (m q : Nat) : divNearestEven (m * 2 ^ q) q = m := by
  have := Nat.two_pow_pos q
  simp [divNearestEven, Nat.mul_div_cancel _ this, this]

theorem divNearestEven_ge (n q : Nat) : n / 2 ^ q ≤ divNearestEven n q := by
  unfold divNearestEven
  dsimp only
  split <;> [omega; split <;> [omega; split <;> omega]]

theorem divNearestEven_le (n q : Nat) : divNearestEven n q ≤ n / 2 ^ q + 1 := by
  unfold divNearestEven
  dsimp only
  split <;> [omega; split <;> [omega; split <;> omega]]

theorem divNearestEven_mono {n n' : Nat} (h : n ≤ n') (q : Nat) : divNearestEven n q ≤ divNearestEven n' q := by
  rcases Nat.lt_or_ge (n / 2 ^ q) (n' / 2 ^ q) with hd | hd
  · have := divNearestEven_le n q
    have := divNearestEven_ge n' q
    omega
  · have hle := Nat.div_le_div_right (c := 2 ^ q) h
    have hd : n' / 2 ^ q = n / 2 ^ q := by omega
    have hr : n % 2 ^ q ≤ n' % 2 ^ q := by
      have h1 := Nat.div_add_mod n (2 ^ q)
      have h2 := Nat.div_add_mod n' (2 ^ q)
      rw [hd] at h2
      omega
    unfold divNearestEven
    dsimp only
    rw [hd]
    have := Nat.two_pow_pos q
    split <;> split <;> (try split) <;> (try split) <;> (try split) <;> omega

/-! ## Rounding a magnitude -/

theorem roundMag_le (n u : Nat) : roundMag n u ≤ 0x7F800000 := Nat.min_le_right _ _

/-- Rounding is monotone. -/
theorem roundMag_mono {n n' : Nat} (h : n ≤ n') (u : Nat) : roundMag n u ≤ roundMag n' u := by
  unfold roundMag
  dsimp only
  generalize hb : u - 149 = b
  have hlog : Nat.log2 n ≤ Nat.log2 n' := by
    rcases Nat.eq_zero_or_pos n with h0 | h0
    · subst h0; simp
    · exact (Nat.le_log2 (by omega)).2 (Nat.le_trans (Nat.log2_self_le (by omega)) h)
  generalize hq : max (Nat.log2 n - 23) b = q
  generalize hq' : max (Nat.log2 n' - 23) b = q'
  have hqq : q ≤ q' := by omega
  refine Nat.le_min.2 ⟨?_, Nat.min_le_right _ _⟩
  refine Nat.le_trans (Nat.min_le_left _ _) ?_
  rcases Nat.eq_or_lt_of_le hqq with heq | hlt
  · subst heq
    have := divNearestEven_mono h q
    omega
  · have hn : n < 2 ^ (24 + q) := by
      rcases Nat.eq_zero_or_pos n with h0 | h0
      · subst h0; exact Nat.two_pow_pos _
      · exact (Nat.log2_lt (by omega)).1 (by omega)
    have hn' : 2 ^ (23 + q') ≤ n' := by
      have : n' ≠ 0 := by
        rintro rfl
        simp at hq'
        omega
      exact (Nat.le_log2 this).1 (by omega)
    have h1 : n / 2 ^ q < 2 ^ 24 := by
      rw [Nat.div_lt_iff_lt_mul (Nat.two_pow_pos q), ← Nat.pow_add]; exact hn
    have h2 : 2 ^ 23 ≤ n' / 2 ^ q' := by
      rw [Nat.le_div_iff_mul_le (Nat.two_pow_pos q'), ← Nat.pow_add]; exact hn'
    have h3 := divNearestEven_le n q
    have h4 := divNearestEven_ge n' q'
    have h5 : (q - b) + 1 ≤ q' - b := by omega
    have h6 : ((q - b) + 1) * 2 ^ 23 ≤ (q' - b) * 2 ^ 23 := Nat.mul_le_mul_right _ h5
    omega

theorem log2_mul_two_pow {n : Nat} (hn : n ≠ 0) (k : Nat) : Nat.log2 (n * 2 ^ k) = Nat.log2 n + k := by
  have hk := Nat.two_pow_pos k
  rw [Nat.log2_eq_iff (Nat.mul_ne_zero hn (by omega)), Nat.pow_add]
  refine ⟨Nat.mul_le_mul_right _ (Nat.log2_self_le hn), ?_⟩
  rw [show Nat.log2 n + k + 1 = (Nat.log2 n + 1) + k by omega, Nat.pow_add]
  exact Nat.mul_lt_mul_of_pos_right Nat.lt_log2_self hk

theorem divNearestEven_scale (n q k : Nat) : divNearestEven (n * 2 ^ k) (q + k) = divNearestEven n q := by
  have hk := Nat.two_pow_pos k
  have hd : n * 2 ^ k / 2 ^ (q + k) = n / 2 ^ q := by
    rw [Nat.pow_add, Nat.mul_div_mul_right _ _ hk]
  have hr : n * 2 ^ k % 2 ^ (q + k) = n % 2 ^ q * 2 ^ k := by
    rw [Nat.pow_add, Nat.mul_mod_mul_right]
  unfold divNearestEven
  dsimp only
  rw [hd, hr, Nat.pow_add, ← Nat.mul_assoc]
  simp only [Nat.mul_lt_mul_right hk]
  by_cases hq : q = 0
  · subst hq
    simp only [Nat.pow_zero, Nat.mod_one, Nat.div_one]
    rfl
  · rw [if_neg (c := q + k = 0) (by omega), if_neg (c := q = 0) hq]

/-- Scaling by a power of two moves the grid with the value. -/
theorem roundMag_scale {n u : Nat} (hn : n ≠ 0) (hu : 149 ≤ u) (k : Nat) :
    roundMag (n * 2 ^ k) (u + k) = roundMag n u := by
  unfold roundMag
  dsimp only
  rw [log2_mul_two_pow hn k,
    show max (Nat.log2 n + k - 23) (u + k - 149) = max (Nat.log2 n - 23) (u - 149) + k by omega,
    divNearestEven_scale,
    show max (Nat.log2 n - 23) (u - 149) + k - (u + k - 149) = max (Nat.log2 n - 23) (u - 149) - (u - 149) by omega]

theorem roundMag_zero (u : Nat) : roundMag 0 u = 0 := by
  have h : divNearestEven 0 (u - 149) = 0 := by
    simpa using divNearestEven_exact 0 (u - 149)
  unfold roundMag
  dsimp only
  rw [Nat.log2_zero, show max (0 - 23) (u - 149) = u - 149 by omega, h]
  simp

/-- A representable magnitude rounds to its own pattern. -/
theorem roundMag_patMag {p : Nat} (hp : p ≤ 0x7F800000) : roundMag (patMag p) 149 = p := by
  rcases Nat.lt_or_ge p (2 ^ 23) with h | h
  · have h1 := patMag_mul_add (e := 0) (m := p) (by omega) (.inl rfl)
    simp only [Nat.zero_mul, Nat.zero_add, Nat.pow_zero, Nat.mul_one] at h1
    rw [h1]
    have hl : Nat.log2 p < 23 ∨ p = 0 := by
      rcases Nat.eq_zero_or_pos p with h0 | h0
      · exact .inr h0
      · exact .inl ((Nat.log2_lt (by omega)).2 h)
    unfold roundMag
    dsimp only
    have hq : max (Nat.log2 p - 23) (149 - 149) = 0 := by
      rcases hl with hl | rfl
      · omega
      · rw [Nat.log2_zero]; rfl
    rw [hq, divNearestEven_zero]
    omega
  · obtain ⟨e, he⟩ : ∃ e, p / 2 ^ 23 = e + 1 := ⟨p / 2 ^ 23 - 1, by omega⟩
    have hpe : e * 2 ^ 23 + (2 ^ 23 + p % 2 ^ 23) = p := by omega
    have h1 := patMag_mul_add (e := e) (m := 2 ^ 23 + p % 2 ^ 23) (by omega) (.inr (by omega))
    rw [hpe] at h1
    have hl : Nat.log2 (2 ^ 23 + p % 2 ^ 23) = 23 := by
      rw [Nat.log2_eq_iff (by omega)]; omega
    unfold roundMag
    dsimp only
    rw [h1, log2_mul_two_pow (by omega), hl, show max (23 + e - 23) (149 - 149) = e by omega, divNearestEven_exact]
    omega

/-- The pattern of a magnitude given at any scale, when it is representable. -/
theorem roundMag_patMag_scaled {p : Nat} (hp : p ≤ 0x7F800000) (k : Nat) :
    roundMag (patMag p * 2 ^ k) (149 + k) = p := by
  rcases Nat.eq_zero_or_pos p with h0 | h0
  · subst h0
    simp [patMag, roundMag_zero]
  · have : patMag p ≠ 0 := by
      have := patMag_strictMono h0
      omega
    rw [roundMag_scale this (by omega), roundMag_patMag hp]

/-- A magnitude at most a representable one rounds to at most its pattern. -/
theorem roundMag_le_of_le {n p k : Nat} (hp : p ≤ 0x7F800000) (h : n ≤ patMag p * 2 ^ k) :
    roundMag n (149 + k) ≤ p :=
  Nat.le_trans (roundMag_mono h _) (Nat.le_of_eq (roundMag_patMag_scaled hp k))

/-- A magnitude at least a representable one rounds to at least its pattern. -/
theorem le_roundMag_of_le {n p k : Nat} (hp : p ≤ 0x7F800000) (h : patMag p * 2 ^ k ≤ n) :
    p ≤ roundMag n (149 + k) :=
  Nat.le_trans (Nat.le_of_eq (roundMag_patMag_scaled hp k).symm) (roundMag_mono h _)

/-! ## Words from a sign and a pattern -/

theorem withSign_toNat (neg : Bool) {p : Nat} (hp : p < 2 ^ 31) :
    (withSign neg p).toNat = (if neg then 2 ^ 31 else 0) + p := by
  unfold withSign
  rw [BitVec.toNat_ofNat]
  split <;> omega

theorem withSign_pattern (neg : Bool) {p : Nat} (hp : p < 2 ^ 31) : (withSign neg p).toNat % 2 ^ 31 = p := by
  rw [withSign_toNat neg hp]; split <;> omega

theorem signOf_eq (w : Word) : signOf w = decide (2 ^ 31 ≤ w.toNat) := by
  rw [signOf, BitVec.msb_eq_decide]

theorem signOf_withSign (neg : Bool) {p : Nat} (hp : p < 2 ^ 31) : signOf (withSign neg p) = neg := by
  rw [signOf_eq, withSign_toNat neg hp]
  cases neg
  · simpa using hp
  · simp

/-- A word is its sign and its pattern. -/
theorem withSign_self (w : Word) : withSign (signOf w) (w.toNat % 2 ^ 31) = w := by
  apply BitVec.eq_of_toNat_eq
  have := w.isLt
  rw [withSign_toNat _ (by omega), signOf_eq]
  by_cases h : 2 ^ 31 ≤ w.toNat
  · rw [if_pos (by simpa using h)]; omega
  · rw [if_neg (by simpa using h)]; omega

theorem isNaN_eq (w : Word) : isNaN w = decide (0x7F800000 < w.toNat % 2 ^ 31) := by
  rw [isNaN, expOf_eq, fracOf_eq, Bool.eq_iff_iff]
  simp only [Bool.and_eq_true, beq_iff_eq, bne_iff_ne, decide_eq_true_eq]
  omega

theorem isInf_eq (w : Word) : isInf w = decide (w.toNat % 2 ^ 31 = 0x7F800000) := by
  rw [isInf, expOf_eq, fracOf_eq, Bool.eq_iff_iff]
  simp only [Bool.and_eq_true, beq_iff_eq, decide_eq_true_eq]
  omega

theorem isFinite_eq (w : Word) : isFinite w = decide (w.toNat % 2 ^ 31 < 0x7F800000) := by
  rw [isFinite, expOf_eq, Bool.eq_iff_iff]
  simp only [bne_iff_ne, decide_eq_true_eq]
  omega

/-- `roundTo` never answers a NaN. -/
theorem isNaN_roundTo (neg : Bool) (n u : Nat) : isNaN (roundTo neg n u) = false := by
  have := roundMag_le n u
  rw [roundTo, isNaN_eq, withSign_pattern _ (by omega)]
  simpa using this

theorem magOf_roundTo (neg : Bool) (n u : Nat) : magOf (roundTo neg n u) = patMag (roundMag n u) := by
  have := roundMag_le n u
  rw [roundTo, magOf_eq, withSign_pattern _ (by omega)]

theorem signOf_roundTo (neg : Bool) (n u : Nat) : signOf (roundTo neg n u) = neg := by
  have := roundMag_le n u
  exact signOf_withSign neg (by omega)

/-- A value that is a binary32 value is the answer of its own rounding. -/
theorem roundTo_magOf {w : Word} (h : isNaN w = false) (k : Nat) :
    roundTo (signOf w) (magOf w * 2 ^ k) (149 + k) = w := by
  rw [isNaN_eq, decide_eq_false_iff_not] at h
  rw [roundTo, magOf_eq, roundMag_patMag_scaled (by omega), withSign_self]

/-! ## The NaN seal (R13) -/

theorem isNaN_nanWord (p : Bool × Fin 8388607) : isNaN (nanWord p) = true := by
  have := p.2.isLt
  rw [nanWord, isNaN_eq, withSign_pattern _ (by omega)]
  simp

/-- The word stored for a computed value is one a rule may leave. -/
theorem holds_sealNaN (d : Nat) (l : Loc) (y : Word) : holds y (sealNaN d l y) = true := by
  unfold holds sealNaN
  split
  · exact isNaN_nanWord _
  · simp

theorem isNaN_sealNaN (d : Nat) (l : Loc) (y : Word) : isNaN (sealNaN d l y) = isNaN y := by
  unfold sealNaN
  split
  · next h => rw [isNaN_nanWord, h]
  · rfl

end Sys2Proof.Machine
end

