-- ==== Sys2Proof/Laws/Configs.lean ====
section
/-! SUPPORT. The two worked instances of `Cfg` meet the constraints of R5 (spec/00_scope.md R5, R10; the default
generator of spec/43_modulator.md R112; the layouts of spec/20_memory.md R51, R190). -/

namespace Sys2Proof.Machine

set_option Elab.async false

/-! ## Signs and bounds -/

theorem expOf_fneg (w : Word) : expOf (fneg w) = expOf w := by
  simp only [expOf, fneg, BitVec.extractLsb, BitVec.extractLsb'_xor]
  congr 1
  exact BitVec.xor_zero

theorem fracOf_fneg (w : Word) : fracOf (fneg w) = fracOf w := by
  simp only [fracOf, fneg, BitVec.extractLsb, BitVec.extractLsb'_xor]
  congr 1
  exact BitVec.xor_zero

theorem signOf_fneg (w : Word) : signOf (fneg w) = !signOf w := by
  rw [signOf, fneg, BitVec.msb_xor, show (0x80000000#32).msb = true by decide, Bool.xor_true]
  rfl

theorem magOf_fneg (w : Word) : magOf (fneg w) = magOf w := by
  simp only [magOf, expOf_fneg, fracOf_fneg]

theorem unitsOf_fneg (w : Word) : unitsOf (fneg w) = -unitsOf w := by
  simp only [unitsOf, magOf_fneg, signOf_fneg]
  cases signOf w <;> simp

theorem natAbs_unitsOf (w : Word) : (unitsOf w).natAbs = magOf w := by
  unfold unitsOf; split <;> omega

theorem unitsOf_of_signOf {w : Word} (h : signOf w = false) : unitsOf w = magOf w := by simp [unitsOf, h]

/-- A magnitude bound is a bound on both sides. -/
theorem within_of_magOf_le {lo hi w : Word} (hlo : unitsOf lo = -(magOf hi : Int)) (hhi : signOf hi = false)
    (hn : isNaN w = false) (h : magOf w ≤ magOf hi) : within lo hi w = true := by
  have h1 := unitsOf_of_signOf hhi
  have h2 := natAbs_unitsOf w
  simp only [within, hn, Bool.not_false, Bool.true_and, Bool.and_eq_true, decide_eq_true_eq]
  omega

/-- A value that is not negative, with a bound on its magnitude. -/
theorem within_posZero_of_magOf_le {hi w : Word} (hhi : signOf hi = false) (hs : signOf w = false)
    (hn : isNaN w = false) (h : magOf w ≤ magOf hi) : within posZero hi w = true := by
  have h1 := unitsOf_of_signOf hhi
  have h2 := unitsOf_of_signOf hs
  have h3 : unitsOf posZero = 0 := by decide
  simp only [within, hn, Bool.not_false, Bool.true_and, Bool.and_eq_true, decide_eq_true_eq]
  omega

theorem flt_of_unitsOf_lt {a b : Word} (ha : isNaN a = false) (hb : isNaN b = false) (h : unitsOf a < unitsOf b) :
    flt a b = true := by
  simp [flt, ha, hb, h]

theorem magOf_lit1 : magOf lit1 = 2 ^ 149 := by decide +kernel

theorem patMag_lit1 : patMag 0x3F800000 = 2 ^ 149 := by decide +kernel

theorem patMag_mono {p p' : Nat} (h : p ≤ p') : patMag p ≤ patMag p' := patMag_strictMono.monotone h

/-- A scaled value of at most one rounds to at most one. -/
theorem magOf_roundTo_le_one (neg : Bool) {v k : Nat} (h : v ≤ 2 ^ (149 + k)) :
    magOf (roundTo neg v (149 + k)) ≤ magOf lit1 := by
  rw [magOf_roundTo, magOf_lit1, ← patMag_lit1]
  exact patMag_mono (roundMag_le_of_le (by decide) (by rwa [patMag_lit1, ← Nat.pow_add]))

/-- A scaled value above half the subnormal step does not round to zero. -/
theorem flt_posZero_roundTo {v u : Nat} (h : 0 < roundMag v u) : flt posZero (roundTo false v u) = true := by
  have h1 := unitsOf_of_signOf (signOf_roundTo false v u)
  have h2 : patMag 0 < patMag (roundMag v u) := patMag_strictMono h
  have h3 : unitsOf posZero = 0 := by decide
  have h4 : isNaN posZero = false := by decide
  have h5 : patMag 0 = 0 := by decide
  rw [magOf_roundTo] at h1
  exact flt_of_unitsOf_lt h4 (isNaN_roundTo _ _ _) (by omega)

/-! ## The layouts (R51, R190) -/

theorem layoutInjective_planarAddr : layoutInjective planarAddr := by
  intro maxBlock nch c n c' n' _ _ _ hn hn' h
  unfold planarAddr at h
  have hc : c = c' := by
    rcases Nat.lt_trichotomy c c' with hlt | heq | hlt
    · have := Nat.mul_le_mul_right maxBlock (show c + 1 ≤ c' by omega)
      rw [Nat.add_mul] at this; omega
    · exact heq
    · have := Nat.mul_le_mul_right maxBlock (show c' + 1 ≤ c by omega)
      rw [Nat.add_mul] at this; omega
  subst hc
  omega

theorem layoutInjective_interleavedAddr : layoutInjective interleavedAddr := by
  intro maxBlock nch c n c' n' _ hc hc' _ _ h
  unfold interleavedAddr at h
  have hn : n = n' := by
    rcases Nat.lt_trichotomy n n' with hlt | heq | hlt
    · have := Nat.mul_le_mul_right nch (show n + 1 ≤ n' by omega)
      rw [Nat.add_mul] at this; omega
    · exact heq
    · have := Nat.mul_le_mul_right nch (show n' + 1 ≤ n by omega)
      rw [Nat.add_mul] at this; omega
  subst hn
  omega

/-! ## The default generator (R112) -/

/-- `u24` is a value in [0, 1): not negative, and at most 1 − 2^−24. -/
theorem u24_pattern (s : Word) :
    signOf (u24 s) = false ∧ isNaN (u24 s) = false ∧ magOf (u24 s) ≤ patMag 0x3F7FFFFF := by
  have hk : (s.extractLsb 31 8).toNat ≤ 2 ^ 24 - 1 := by
    have := (s.extractLsb 31 8).isLt
    omega
  generalize hK : (s.extractLsb 31 8).toNat = k at hk
  have hm : magOf (floatOf k) ≤ (2 ^ 24 - 1) * 2 ^ 149 := by
    rw [floatOf, magOf_roundTo]
    refine Nat.le_trans (patMag_mono (roundMag_mono (Nat.mul_le_mul_right _ hk) 149)) ?_
    decide +kernel
  have hn : isNaN (floatOf k) = false := isNaN_roundTo _ _ _
  have hs : signOf (floatOf k) = false := signOf_roundTo _ _ _
  have hi : isInf (floatOf k) = false := by
    rw [floatOf, roundTo, isInf_eq]
    have h1 := roundMag_le (k * 2 ^ 149) 149
    have h2 := roundMag_mono (Nat.mul_le_mul_right (2 ^ 149) hk) 149
    have h3 : roundMag ((2 ^ 24 - 1) * 2 ^ 149) 149 = 0x4B7FFFFF := by decide +kernel
    rw [withSign_pattern _ (by omega)]
    simp only [decide_eq_false_iff_not]
    omega
  have hd : u24 s = roundTo false (sticky (magOf (floatOf k) * 2 ^ 152 / 2 ^ 173)
      (magOf (floatOf k) * 2 ^ 152 % 2 ^ 173 != 0)) 153 := by
    rw [u24, hK, fdiv, hn, hi, hs, if_neg (by decide), if_neg (by decide), if_neg (by decide), if_neg (by decide),
      show magOf 0x4B800000#32 = 2 ^ 173 by decide +kernel]
    rfl
  refine ⟨hd ▸ signOf_roundTo _ _ _, hd ▸ isNaN_roundTo _ _ _, ?_⟩
  rw [hd, magOf_roundTo]
  refine patMag_mono (Nat.le_trans (roundMag_mono (n' := 2 * ((2 ^ 24 - 1) * 2 ^ 128) + 1) ?_ 153) (by decide +kernel))
  have h1 : magOf (floatOf k) * 2 ^ 152 / 2 ^ 173 ≤ (2 ^ 24 - 1) * 2 ^ 128 := by
    refine Nat.le_trans (Nat.div_le_div_right (Nat.mul_le_mul_right _ hm)) (by decide +kernel)
  have h2 := Bool.toNat_le (magOf (floatOf k) * 2 ^ 152 % 2 ^ 173 != 0)
  unfold sticky
  omega

theorem phaseInitDefault_ok (seed : Word) (i : Fin 8) :
    within posZero lit1 (phaseInitDefault seed i) = true ∧ flt (phaseInitDefault seed i) lit1 = true := by
  unfold phaseInitDefault
  obtain ⟨hs, hn, hm⟩ := u24_pattern (jitInitDefault seed i)
  have hlt : patMag 0x3F7FFFFF < magOf lit1 := by decide +kernel
  refine ⟨within_posZero_of_magOf_le (by decide) hs hn (by omega), ?_⟩
  have h1 := unitsOf_of_signOf hs
  have h2 := unitsOf_of_signOf (w := lit1) (by decide)
  have h3 : isNaN lit1 = false := by decide
  exact flt_of_unitsOf_lt hn h3 (by rw [h1, h2]; omega)

theorem isFinite_u24 (s : Word) : isFinite (u24 s) = true := by
  obtain ⟨_, _, hm⟩ := u24_pattern s
  rw [magOf_eq] at hm
  have := patMag_strictMono.le_iff_le.1 hm
  rw [isFinite_eq, decide_eq_true_eq]
  omega

theorem isNaN_of_isFinite {w : Word} (h : isFinite w = true) : isNaN w = false := by
  rw [isFinite_eq, decide_eq_true_eq] at h
  rw [isNaN_eq, decide_eq_false_iff_not]
  omega

theorem isInf_of_isFinite {w : Word} (h : isFinite w = true) : isInf w = false := by
  rw [isFinite_eq, decide_eq_true_eq] at h
  rw [isInf_eq, decide_eq_false_iff_not]
  omega

theorem isFinite_fneg (w : Word) : isFinite (fneg w) = isFinite w := by simp only [isFinite, expOf_fneg]

/-- The sum of finite values whose exact sum is at most one in magnitude. -/
theorem fadd_within_unit {a b : Word} (ha : isFinite a = true) (hb : isFinite b = true)
    (h : (unitsOf a + unitsOf b).natAbs ≤ 2 ^ 149) :
    isNaN (fadd a b) = false ∧ isInf (fadd a b) = false ∧ magOf (fadd a b) ≤ 2 ^ 149 := by
  have h1 : patMag 0x3F800000 * 2 ^ 0 = 2 ^ 149 := by decide +kernel
  have h2 := roundMag_le_of_le (n := (unitsOf a + unitsOf b).natAbs) (k := 0) (p := 0x3F800000) (by decide) (by omega)
  rw [Nat.add_zero] at h2
  have h3 := magOf_roundTo_le_one (decide (unitsOf a + unitsOf b < 0)) (k := 0) h
  rw [magOf_lit1, Nat.add_zero] at h3
  unfold fadd
  rw [isNaN_of_isFinite ha, isNaN_of_isFinite hb, isInf_of_isFinite ha, isInf_of_isFinite hb]
  simp only [Bool.or_self, Bool.false_eq_true, if_false]
  split
  · split <;> decide +kernel
  · refine ⟨isNaN_roundTo _ _ _, ?_, h3⟩
    rw [roundTo, isInf_eq, withSign_pattern _ (by omega), decide_eq_false_iff_not]
    omega

theorem jitterDefault_ok (js : Word) : within (fneg lit1e_4) lit1e_4 (jitterDefault js).1 = true := by
  have ha := u24_pattern (lcg js)
  have hb := u24_pattern (lcg (lcg js))
  have hle : patMag 0x3F7FFFFF ≤ 2 ^ 149 := by decide +kernel
  have hu := unitsOf_of_signOf ha.1
  have hv := unitsOf_of_signOf hb.1
  have hd := fadd_within_unit (isFinite_u24 (lcg js)) (b := fneg (u24 (lcg (lcg js))))
    (by rw [isFinite_fneg]; exact isFinite_u24 _) (by rw [unitsOf_fneg]; omega)
  have hJ : magOf lit1e_4 = patMag 0x38D1B717 := by decide +kernel
  have hm : jitterDefault js = (roundTo (signOf (fsub (u24 (lcg js)) (u24 (lcg (lcg js)))) != false)
      (magOf (fsub (u24 (lcg js)) (u24 (lcg (lcg js)))) * magOf lit1e_4) 298, lcg (lcg js)) := by
    simp only [jitterDefault, fmul]
    rw [fsub, hd.1, hd.2.1]
    rfl
  rw [hm]
  refine within_of_magOf_le (by decide +kernel) (by decide) (isNaN_roundTo _ _ _) ?_
  rw [magOf_roundTo, hJ]
  refine patMag_mono (roundMag_le_of_le (k := 149) (by decide) ?_)
  rw [Nat.mul_comm]
  exact Nat.mul_le_mul_left _ hd.2.2

/-! ## The sine (R10) -/

theorem trigOne_eq : trigOne = 2 ^ (149 + 491) := congrArg (2 ^ ·) (show 640 = 149 + 491 from rfl)

theorem numSin_within {x : Word} (hx : isFinite x = true) : within litNeg1 lit1 (numSin x) = true := by
  have hneg : unitsOf litNeg1 = -(magOf lit1 : Int) := by decide +kernel
  unfold numSin
  rw [hx, if_neg (by decide)]
  split
  · next h0 => exact within_of_magOf_le hneg (by decide) (isNaN_of_isFinite hx) (by omega)
  · dsimp only
    refine within_of_magOf_le hneg (by decide) (isNaN_roundTo _ _ _) (magOf_roundTo_le_one _ (k := 491) ?_)
    rw [← trigOne_eq]
    split <;> exact Nat.min_le_left _ _

/-! ## The tangent at the cutoffs R106 uses (R10) -/

theorem le_trigOne : 2 ^ 10 ≤ trigOne := by
  unfold trigOne
  exact Nat.pow_le_pow_right (by decide) (by decide)

theorem trigTail_le (r2 fuel k t : Nat) : trigTail r2 fuel k t ≤ t := by
  cases fuel with
  | zero => exact Nat.zero_le _
  | succ n => exact Nat.sub_le _ _

theorem trigTail_succ (r2 fuel k t : Nat) : trigTail r2 (fuel + 1) k t
    = t - trigTail r2 fuel (k + 2) (t * r2 / trigOne / ((k + 1) * (k + 2))) := rfl

theorem le_trigTail (r2 fuel k t : Nat) : t - t * r2 / trigOne / ((k + 1) * (k + 2)) ≤ trigTail r2 (fuel + 1) k t :=
  Nat.sub_le_sub_left (trigTail_le _ _ _ _) _

/-- A Taylor term against the one before it, for r² at most 5/2. -/
theorem taylor_step {o r2 t : Nat} (ho : 0 < o) (h : 2 * r2 ≤ 5 * o) : 2 * (t * r2 / o) ≤ 5 * t := by
  have h1 : t * r2 / o * o ≤ t * r2 := Nat.div_mul_le_self _ _
  have h2 : t * (2 * r2) ≤ t * (5 * o) := Nat.mul_le_mul_left _ h
  refine Nat.le_of_mul_le_mul_right (c := o) ?_ ho
  nlinarith

/-- The cosine's first terms, 1 − t + t4 − t4/12, stay above a margin while t = r²/2 is at most 1.185. -/
theorem cosine_margin {o t r2 t4 t6 m : Nat} (ho : 0 < o) (hr : 2 * t ≤ r2) (ht : 1000 * t ≤ 1185 * o)
    (h4 : t4 = t * r2 / o / 12) (h6 : 12 * t6 ≤ t4) (hm : 1000 * (m + 1) ≤ o) : t + m + t6 ≤ o + t4 := by
  have h1 : t * r2 < (12 * (t4 + 1)) * o := by
    have h2 : t * r2 / o < 12 * (t4 + 1) := by omega
    exact (Nat.div_lt_iff_lt_mul ho).1 h2
  have h3 : 2 * t * t ≤ t * r2 := by nlinarith
  by_contra hc
  have h5 : 12 * o + 11 * t4 < 12 * t + 12 * m := by omega
  have h7 : (1185 * o - 1000 * t : Int) * (1185 * o - 1000 * t) ≥ 0 := mul_self_nonneg _
  nlinarith

/-- The sine of a remainder between one unit of 2^−149 and 1.54 is above half of it, the cosine above 2^−10. -/
theorem tan_terms {o r : Nat} (hO : o = trigOne) (hr : 1000 * (r * r / o) ≤ 2370 * o) :
    7 * r ≤ 12 * trigTail (r * r / o) 48 1 r ∧ o ≤ 1000 * trigTail (r * r / o) 48 0 o + 2000 := by
  have ho : 2 ^ 10 ≤ o := hO ▸ le_trigOne
  have ho' : 0 < o := by omega
  have hS := trigTail_succ
  rw [← hO] at hS
  clear hO
  revert hr
  generalize r * r / o = r2
  intro hr
  have h52 : 2 * r2 ≤ 5 * o := by omega
  constructor
  · have e1 := hS r2 47 1 r
    have h1 := trigTail_le r2 47 3 (r * r2 / o / 6)
    have h2 := taylor_step (t := r) ho' h52
    simp only [Nat.reduceAdd, Nat.reduceMul] at e1
    omega
  · have e0 := hS r2 47 0 o
    have e2 := hS r2 46 2 (r2 / 2)
    have e4 := hS r2 45 4 (r2 / 2 * r2 / o / 12)
    simp only [Nat.reduceAdd, Nat.reduceMul] at e0 e2 e4
    rw [Nat.mul_div_cancel_left _ ho'] at e0
    have h1 := trigTail_le r2 45 6 (r2 / 2 * r2 / o / 12 * r2 / o / 30)
    have h2 := taylor_step (t := r2 / 2 * r2 / o / 12) ho' h52
    have h3 := cosine_margin (m := o / 1000 - 1) (t := r2 / 2) (r2 := r2) (t4 := r2 / 2 * r2 / o / 12)
      (t6 := r2 / 2 * r2 / o / 12 * r2 / o / 30) ho' (by omega) (by omega) rfl (by omega) (by omega)
    omega

/-- The quotient of a sine and a cosine with those bounds neither vanishes nor overflows when narrowed. -/
theorem tan_quotient {r S C : Nat} (h1 : 2 ^ 491 ≤ r) (hS : 7 * r ≤ 12 * S) (hC : trigOne ≤ 1000 * C + 2000) :
    0 < roundMag (min trigOne S * trigOne / min trigOne C) 640
      ∧ roundMag (min trigOne S * trigOne / min trigOne C) 640 < 0x7F800000 := by
  have hl : 2 ^ 490 + 1 ≤ trigOne := by decide +kernel
  have hC1 : 1000 * 2 ^ 600 + 2000 ≤ trigOne := by decide +kernel
  have hb : trigOne * trigOne / 2 ^ 600 ≤ 2 ^ 680 := by decide +kernel
  have hr0 : 0 < roundMag (2 ^ 490 + 1) 640 := by decide +kernel
  have hr1 : roundMag (2 ^ 680) 640 < 0x7F800000 := by decide +kernel
  have h2 : (2 : Nat) ^ 491 = 2 * 2 ^ 490 := by rw [← Nat.pow_succ']
  have ha : 0 < (2 : Nat) ^ 490 := Nat.two_pow_pos _
  have h3 : 0 < (2 : Nat) ^ 600 := Nat.two_pow_pos _
  generalize trigOne = o at *
  generalize (2 : Nat) ^ 600 = c at *
  generalize (2 : Nat) ^ 490 = a at *
  generalize (2 : Nat) ^ 491 = b at *
  have hc : c ≤ min o C := by omega
  constructor
  · refine Nat.lt_of_lt_of_le hr0 (roundMag_mono ?_ _)
    rw [Nat.le_div_iff_mul_le (by omega)]
    exact Nat.mul_le_mul (by omega) (Nat.min_le_left _ _)
  · refine Nat.lt_of_le_of_lt (roundMag_mono (Nat.le_trans ?_ hb) _) hr1
    exact Nat.le_trans (Nat.div_le_div_left hc h3) (Nat.div_le_div_right (Nat.mul_le_mul_right _ (Nat.min_le_left _ _)))

theorem numTan_pos {x : Word} (h0 : flt posZero x = true) (h1 : fge (fmul lit0_49 litPi) x = true) :
    isFinite (numTan x) = true ∧ flt posZero (numTan x) = true := by
  simp only [flt, fge, Bool.and_eq_true, Bool.not_eq_true', decide_eq_true_eq] at h0 h1
  have hz : unitsOf posZero = 0 := by decide
  have hW := unitsOf_of_signOf (w := fmul lit0_49 litPi) (by decide +kernel)
  have hWm : magOf (fmul lit0_49 litPi) < patMag 0x7F800000 := by decide +kernel
  have hWpi : 2 * (magOf (fmul lit0_49 litPi) * 2 ^ 491) < piScaled := by decide +kernel
  have hWr : 1000 * (magOf (fmul lit0_49 litPi) * 2 ^ 491 * (magOf (fmul lit0_49 litPi) * 2 ^ 491) / trigOne)
      ≤ 2370 * trigOne := by decide +kernel
  revert hW hWm hWpi hWr h1
  generalize fmul lit0_49 litPi = W
  intro h1 hW hWm hWpi hWr
  have hs : signOf x = false := by
    by_contra hc
    have : unitsOf x = -(magOf x : Int) := by simp [unitsOf, hc]
    omega
  have hx := unitsOf_of_signOf hs
  have hm : magOf x ≤ magOf W := by omega
  have hf : isFinite x = true := by
    rw [isFinite_eq, decide_eq_true_eq]
    refine patMag_strictMono.lt_iff_lt.1 ?_
    rw [← magOf_eq]
    omega
  have hn : magOf x * 2 ^ 491 ≤ magOf W * 2 ^ 491 := Nat.mul_le_mul_right _ hm
  have h1n : 2 ^ 491 ≤ magOf x * 2 ^ 491 := Nat.le_mul_of_pos_left _ (by omega)
  have hq : 2 * (magOf x * 2 ^ 491) / piScaled = 0 := Nat.div_eq_of_lt (by omega)
  have hr : 1000 * (magOf x * 2 ^ 491 * (magOf x * 2 ^ 491) / trigOne) ≤ 2370 * trigOne :=
    Nat.le_trans (Nat.mul_le_mul_left _ (Nat.div_le_div_right (Nat.mul_le_mul hn hn))) hWr
  have hv : numTan x = roundTo false (sinScaled (magOf x * 2 ^ 491) * trigOne / cosScaled (magOf x * 2 ^ 491)) 640 := by
    rw [numTan, isNaN_of_isFinite hf, hf, if_neg (by decide), if_neg (by decide), if_neg (by omega)]
    simp only [trigReduce, hq, hs]
    rw [if_pos (by decide), Nat.zero_mul, Nat.sub_zero, Nat.mul_div_cancel_left _ (by decide)]
  obtain ⟨t1, t2⟩ := tan_terms rfl hr
  obtain ⟨v1, v2⟩ := tan_quotient h1n t1 t2
  rw [hv, sinScaled, cosScaled]
  exact ⟨by rw [isFinite_eq, roundTo, withSign_pattern _ (by omega), decide_eq_true_eq]; exact v2, flt_posZero_roundTo v1⟩

/-! ## The exponentials (R10) -/

theorem expOne_pos : 0 < expOne := Nat.two_pow_pos _

theorem le_squareTimes (m : Nat) {v : Nat} (a : Nat) (h : expOne + a ≤ v) : expOne + 2 ^ m * a ≤ squareTimes m v := by
  induction m generalizing v a with
  | zero => simpa [squareTimes] using h
  | succ m ih =>
    rw [squareTimes, Nat.pow_succ, Nat.mul_assoc]
    refine ih (2 * a) ?_
    rw [Nat.le_div_iff_mul_le expOne_pos]
    nlinarith

theorem squareTimes_le {p q : Nat} (m : Nat) {v : Nat} (h : v * p ≤ q * expOne) :
    squareTimes m v * p ^ 2 ^ m ≤ q ^ 2 ^ m * expOne := by
  induction m generalizing v p q with
  | zero => simpa [squareTimes] using h
  | succ m ih =>
    rw [squareTimes, Nat.pow_succ', Nat.pow_mul, Nat.pow_mul]
    refine ih ?_
    have h1 : v * v / expOne * expOne ≤ v * v := Nat.div_mul_le_self _ _
    have h2 := Nat.mul_le_mul h h
    refine Nat.le_of_mul_le_mul_right (c := expOne) ?_ expOne_pos
    nlinarith

theorem expTail_ge (r fuel k t : Nat) : t ≤ expTail r (fuel + 1) k t := Nat.le_add_right _ _

/-- The tail against its first term, for r at most 5/16: a geometric series. -/
theorem expTail_le {r : Nat} (h : 16 * r ≤ 5 * expOne) (fuel k t : Nat) : 11 * expTail r fuel k t ≤ 16 * t := by
  induction fuel generalizing k t with
  | zero => simp [expTail]
  | succ n ih =>
    have h1 := ih (k + 1) (t * r / expOne / (k + 1))
    have h2 : 16 * (t * r / expOne) ≤ 5 * t := by
      have h3 : t * r / expOne * expOne ≤ t * r := Nat.div_mul_le_self _ _
      refine Nat.le_of_mul_le_mul_right (c := expOne) ?_ expOne_pos
      nlinarith
    have h4 : t * r / expOne / (k + 1) ≤ t * r / expOne := Nat.div_le_self _ _
    rw [expTail]
    omega

theorem expScaled_ge (y : Nat) : expOne + 2 ^ 8 * (y / 2 ^ 8) ≤ expScaled y := by
  refine le_squareTimes 8 _ ?_
  have h1 : expTail (y / 2 ^ 8) 50 0 expOne = expOne + expTail (y / 2 ^ 8) 49 1 (expOne * (y / 2 ^ 8) / expOne / 1) := rfl
  have h2 := expTail_ge (y / 2 ^ 8) 48 1 (expOne * (y / 2 ^ 8) / expOne / 1)
  rw [Nat.mul_div_cancel_left _ expOne_pos, Nat.div_one] at h1 h2
  simp only [Nat.reduceAdd] at h2
  omega

theorem expScaled_le {y : Nat} (h : y ≤ 80 * expOne) : expScaled y ≤ 2 ^ 139 * expOne := by
  have h1 := expTail_le (r := y / 2 ^ 8) (by omega) 50 0 expOne
  have h2 := squareTimes_le (p := 11) (q := 16) 8 (v := expTail (y / 2 ^ 8) 50 0 expOne) (by omega)
  have h3 : 16 ^ 2 ^ 8 ≤ 11 ^ 2 ^ 8 * 2 ^ 139 := by decide +kernel
  have h4 : 0 < 11 ^ 2 ^ 8 := Nat.pow_pos (by decide)
  refine Nat.le_of_mul_le_mul_left ?_ h4
  rw [expScaled]
  nlinarith

theorem expOne_eq : expOne = 2 ^ (149 + 171) := congrArg (2 ^ ·) (show 320 = 149 + 171 from rfl)

/-- The reciprocal of the exponential of y ≥ 0 is at most one. -/
theorem expRecip_le (y : Nat) : expOne * expOne / expScaled y ≤ expOne := by
  have h := expScaled_ge y
  exact Nat.le_trans (Nat.div_le_div_left (show expOne ≤ expScaled y by omega) expOne_pos)
    (Nat.le_of_eq (Nat.mul_div_cancel _ expOne_pos))

/-- e^−y rounded is in [0, 1]. -/
theorem expRounded_within (y : Nat) : within posZero lit1 (expRounded true y) = true := by
  unfold expRounded
  split
  · decide
  · refine within_posZero_of_magOf_le (by decide) (signOf_roundTo _ _ _) (isNaN_roundTo _ _ _)
      (magOf_roundTo_le_one _ (k := 171) ?_)
    rw [← expOne_eq]
    exact expRecip_le y

theorem numExp_of_neg {x : Word} (hs : signOf x = true) (hn : isNaN x = false) :
    numExp x = expRounded true (magOf x * 2 ^ 171) := by
  simp only [numExp, hn, hs, Bool.false_eq_true, if_false]

/-- A negative value by its magnitude. -/
theorem signOf_of_unitsOf_neg {x : Word} (h : unitsOf x < 0) : signOf x = true ∧ unitsOf x = -(magOf x : Int) := by
  unfold unitsOf at h ⊢
  split at h <;> [(next hs => exact ⟨hs, by rw [if_pos hs]⟩); omega]

/-- Where an operand of the exponential lies: R10's range, as a magnitude. -/
theorem exp_operand {x : Word} (h : flt 0xC2A00000#32 x = true) (h0 : unitsOf x < 0) :
    isNaN x = false ∧ signOf x = true ∧ unitsOf x = -(magOf x : Int) ∧ magOf x * 2 ^ 171 ≤ 80 * expOne := by
  simp only [flt, Bool.and_eq_true, Bool.not_eq_true', decide_eq_true_eq] at h
  obtain ⟨hs, hu⟩ := signOf_of_unitsOf_neg h0
  have h1 : unitsOf 0xC2A00000#32 = -((80 * 2 ^ 149 : Nat) : Int) := by decide +kernel
  refine ⟨h.1.2, hs, hu, ?_⟩
  rw [expOne_eq, Nat.pow_add, ← Nat.mul_assoc]
  exact Nat.mul_le_mul_right _ (by omega)

theorem expRounded_of_le {y : Nat} (h : y ≤ 80 * expOne) :
    expRounded true y = roundTo false (expOne * expOne / expScaled y) 320 := by
  have := expOne_pos
  rw [expRounded, if_neg (by omega)]
  rfl

theorem numExp_neg {x : Word} (h0 : flt x posZero = true) (h : flt 0xC2A00000#32 x = true) :
    flt posZero (numExp x) = true ∧ fge lit1 (numExp x) = true := by
  simp only [flt, Bool.and_eq_true, Bool.not_eq_true', decide_eq_true_eq, show unitsOf posZero = 0 by decide] at h0
  obtain ⟨hn, hs, _, hy⟩ := exp_operand h h0.2
  have hw := expRounded_within (magOf x * 2 ^ 171)
  have hE := expScaled_le hy
  have hE0 := expScaled_ge (magOf x * 2 ^ 171)
  have h1 := expOne_pos
  rw [numExp_of_neg hs hn]
  refine ⟨?_, ?_⟩
  · rw [expRounded_of_le hy]
    refine flt_posZero_roundTo (Nat.lt_of_lt_of_le (show 0 < roundMag (2 ^ 181) 320 by decide +kernel)
      (roundMag_mono ?_ _))
    rw [Nat.le_div_iff_mul_le (by omega)]
    have h2 := Nat.mul_le_mul_left (2 ^ 181) hE
    rwa [← Nat.mul_assoc, ← Nat.pow_add, ← show expOne = 2 ^ (181 + 139) from expOne_eq] at h2
  · simp only [within, Bool.and_eq_true, Bool.not_eq_true', decide_eq_true_eq] at hw
    simp only [fge, hw.1.1, hw.2, show isNaN lit1 = false by decide, Bool.not_false, Bool.and_self, decide_true]

theorem numExp_lt {x : Word} (h0 : fge 0xB3800000#32 x = true) (h : flt 0xC2A00000#32 x = true) :
    flt (numExp x) lit1 = true := by
  simp only [fge, Bool.and_eq_true, Bool.not_eq_true', decide_eq_true_eq] at h0
  have h1 : unitsOf 0xB3800000#32 = -((2 ^ 125 : Nat) : Int) := by decide +kernel
  obtain ⟨hn, hs, hu, hy⟩ := exp_operand h (by omega)
  have h2 : 2 ^ 296 ≤ magOf x * 2 ^ 171 := by
    rw [show (296 : Nat) = 125 + 171 from rfl, Nat.pow_add]
    exact Nat.mul_le_mul_right _ (by omega)
  have hE0 := expScaled_ge (magOf x * 2 ^ 171)
  have h3 : 2 ^ 8 * (2 ^ 296 / 2 ^ 8) ≤ 2 ^ 8 * (magOf x * 2 ^ 171 / 2 ^ 8) :=
    Nat.mul_le_mul_left _ (Nat.div_le_div_right h2)
  have h4 : expOne * expOne / expScaled (magOf x * 2 ^ 171) ≤ expOne * expOne / (expOne + 2 ^ 8 * (2 ^ 296 / 2 ^ 8)) :=
    Nat.div_le_div_left (Nat.le_trans (Nat.add_le_add_left h3 _) hE0) (Nat.add_pos_left expOne_pos _)
  have h5 : patMag (roundMag (expOne * expOne / (expOne + 2 ^ 8 * (2 ^ 296 / 2 ^ 8))) 320) < magOf lit1 := by
    decide +kernel
  have h6 := patMag_mono (roundMag_mono h4 320)
  rw [numExp_of_neg hs hn, expRounded_of_le hy]
  refine flt_of_unitsOf_lt (isNaN_roundTo _ _ _) (by decide) ?_
  rw [unitsOf_of_signOf (signOf_roundTo _ _ _), unitsOf_of_signOf (w := lit1) (by decide), magOf_roundTo]
  exact_mod_cast Nat.lt_of_le_of_lt h6 h5

theorem numPow10_within {x : Word} (h : fge posZero x = true) : within posZero lit1 (numPow10 x) = true := by
  simp only [fge, Bool.and_eq_true, Bool.not_eq_true', decide_eq_true_eq, show unitsOf posZero = 0 by decide] at h
  rw [numPow10, h.1.2, if_neg (by decide)]
  cases hs : signOf x
  · have h1 := unitsOf_of_signOf hs
    rw [show magOf x = 0 by omega]
    decide +kernel
  · exact expRounded_within _

/-! ## The instances (R5) -/

theorem numDefault_ok : numDefault.ok where
  sin_within := fun _ h => numSin_within h
  sin_zero := by decide
  sin_nan := fun x h => by simp [numDefault, numSin, h, show isNaN aNaN = true by decide]
  tan_pos := fun _ => numTan_pos
  tan_nan := fun x h => by simp [numDefault, numTan, h, show isNaN aNaN = true by decide]
  exp_neg := fun _ => numExp_neg
  exp_lt := fun _ => numExp_lt
  pow10_within := fun _ => numPow10_within
  pow10_zero := by decide +kernel
  pow10_nan := fun x h => by simp [numDefault, numPow10, h, show isNaN aNaN = true by decide]

theorem cfgDefault_ok : cfgDefault.ok where
  left := by decide +kernel
  right := ⟨numDefault_ok, phaseInitDefault_ok, jitterDefault_ok, layoutInjective_planarAddr⟩

theorem cfgTiny_ok : cfgTiny.ok where
  left := by decide +kernel
  right := ⟨numDefault_ok, fun _ _ => (by decide : within posZero lit1 posZero = true ∧ flt posZero lit1 = true),
    fun _ => (by decide : within (fneg lit1e_4) lit1e_4 posZero = true), layoutInjective_planarAddr⟩

end Sys2Proof.Machine
end

