-- ==== Sys2Proof/Laws/Encoding.lean ====
section
/-! SUPPORT. Head words: the fields of a word built from fields, the word rebuilt from its fields, and the opcode
map read both ways (spec/30_encoding.md R71, R73). -/

namespace Sys2Proof

set_option Elab.async false

theorem headWord_toNat {opc unit imm : Nat} (ho : opc < 256) (hu : unit < 256) (hi : imm < 65536) :
    (headWord opc unit imm).toNat = opc * 2 ^ 24 + unit * 2 ^ 16 + imm := by
  simp only [headWord, BitVec.toNat_append, BitVec.toNat_ofNat]
  rw [Nat.mod_eq_of_lt (by omega), Nat.mod_eq_of_lt (by omega), Nat.mod_eq_of_lt (by omega),
    ← Nat.shiftLeft_add_eq_or_of_lt (a := unit) (i := 16) (b := imm) (by omega),
    ← Nat.shiftLeft_add_eq_or_of_lt (i := 24) (by omega)]
  simp only [Nat.shiftLeft_eq]
  omega

theorem opcOf_eq (w : Word) : opcOf w = w.toNat / 2 ^ 24 := by
  simp only [opcOf, BitVec.extractLsb, BitVec.extractLsb'_toNat, Nat.shiftRight_eq_div_pow]
  have := w.isLt
  omega

theorem unitOf_eq (w : Word) : unitOf w = w.toNat / 2 ^ 16 % 256 := by
  simp [unitOf, BitVec.extractLsb, BitVec.extractLsb'_toNat, Nat.shiftRight_eq_div_pow]

theorem immOf_eq (w : Word) : immOf w = w.toNat % 65536 := by
  simp [immOf, BitVec.extractLsb, BitVec.extractLsb'_toNat]

@[simp] theorem opcOf_headWord {opc unit imm : Nat} (ho : opc < 256) (hu : unit < 256) (hi : imm < 65536) :
    opcOf (headWord opc unit imm) = opc := by
  rw [opcOf_eq, headWord_toNat ho hu hi]; omega

@[simp] theorem unitOf_headWord {opc unit imm : Nat} (ho : opc < 256) (hu : unit < 256) (hi : imm < 65536) :
    unitOf (headWord opc unit imm) = unit := by
  rw [unitOf_eq, headWord_toNat ho hu hi]; omega

@[simp] theorem immOf_headWord {opc unit imm : Nat} (ho : opc < 256) (hu : unit < 256) (hi : imm < 65536) :
    immOf (headWord opc unit imm) = imm := by
  rw [immOf_eq, headWord_toNat ho hu hi]; omega

/-- A head word is its three fields. -/
theorem headWord_fields (w : Word) : headWord (opcOf w) (unitOf w) (immOf w) = w := by
  apply BitVec.eq_of_toNat_eq
  have hw := w.isLt
  rw [headWord_toNat (by rw [opcOf_eq]; omega) (by rw [unitOf_eq]; omega) (by rw [immOf_eq]; omega),
    opcOf_eq, unitOf_eq, immOf_eq]
  omega

theorem Op.code_lt (o : Op) : o.code < 256 := by cases o <;> decide

theorem Op.mem_all (o : Op) : o ∈ Op.all := by cases o <;> decide

@[simp] theorem Op.ofCode_code (o : Op) : Op.ofCode o.code = some o := by cases o <;> decide

/-- No two rows of the opcode map share an opcode. -/
theorem Op.code_inj {o o' : Op} (h : o.code = o'.code) : o = o' := by
  have := Op.ofCode_code o
  rw [h, Op.ofCode_code] at this
  exact (Option.some.inj this).symm

theorem Op.code_of_ofCode {c : Nat} {o : Op} (h : Op.ofCode c = some o) : o.code = c := by
  have := List.find?_some h
  simpa using this

/-- A head word names a row exactly when it is legal by R75. -/
theorem headRow_eq_ok {h : Word} {o : Op} : headRow h = .ok o ↔
    o.code = opcOf h ∧ (unitOf h = 0 ∨ o.usesUnit = true) ∧ immOf h < 2 ^ o.immBits := by
  unfold headRow
  cases hc : Op.ofCode (opcOf h) with
  | none =>
    simp only [reduceCtorEq, false_iff]
    rintro ⟨e, -⟩
    rw [← e, Op.ofCode_code] at hc
    cases hc
  | some p =>
    have hp := Op.code_of_ofCode hc
    have hop : o.code = opcOf h ↔ p = o := ⟨fun e => Op.code_inj (hp.trans e.symm), fun e => e ▸ hp⟩
    rw [hop]
    dsimp only
    by_cases h1 : unitOf h = 0
    · by_cases h2 : 2 ^ p.immBits ≤ immOf h
      · simp [h1, h2]; intro e; subst e; omega
      · simp [h1, h2]; intro e; subst e; omega
    · by_cases h3 : p.usesUnit = true
      · by_cases h2 : 2 ^ p.immBits ≤ immOf h
        · simp [h1, h2, h3]; intro e; subst e; intro; omega
        · simp [h1, h2, h3]; intro e; subst e; exact ⟨h3, by omega⟩
      · simp [h1, h3]; intro e; subst e; simp [h3]

/-- The fields of a well-formed command fit the head word and are legal for its row. -/
theorem Instr.fields_fit {i : Instr} (h : i.wf = true) :
    i.unitField < 256 ∧ i.immField < 2 ^ i.op.immBits ∧ (i.unitField = 0 ∨ i.op.usesUnit = true) := by
  cases i <;>
    simp_all [Instr.wf, unitFits, channelsFit, Instr.unitField, Instr.immField, Instr.op, Op.immBits, Op.usesUnit,
      Op.format] <;> exact Bool.toNat_le _

theorem Op.immBits_le (o : Op) : o.immBits ≤ 2 := by cases o <;> decide

/-- The head word of a well-formed command names its row. -/
theorem headRow_of_wf {i : Instr} (h : i.wf = true) :
    headRow (headWord i.op.code i.unitField i.immField) = .ok i.op := by
  obtain ⟨hu, hi, hz⟩ := Instr.fields_fit h
  have hi' : i.immField < 65536 := by
    have := Op.immBits_le i.op
    have : 2 ^ i.op.immBits ≤ 2 ^ 2 := Nat.pow_le_pow_right (by omega) this
    omega
  rw [headRow_eq_ok]
  simp only [opcOf_headWord (Op.code_lt _) hu hi', unitOf_headWord (Op.code_lt _) hu hi',
    immOf_headWord (Op.code_lt _) hu hi']
  exact ⟨trivial, hz, hi⟩

end Sys2Proof
end

