-- ==== Sys2Proof/Laws/Untouched.lean ====
section
/-! SUPPORT. The fields each procedure of the units and of the engine leaves alone. -/

namespace Sys2Proof.Machine

set_option Elab.async false

variable (s : State)

@[simp] theorem State.relength_res (c : Cfg) : (s.relength c).res = s.res := by dsimp only [State.relength]
@[simp] theorem State.relength_status (c : Cfg) : (s.relength c).status = s.status := by dsimp only [State.relength]
@[simp] theorem State.relength_fs64 (c : Cfg) : (s.relength c).fs64 = s.fs64 := by dsimp only [State.relength]
@[simp] theorem State.relength_fs (c : Cfg) : (s.relength c).fs = s.fs := by dsimp only [State.relength]
@[simp] theorem State.relength_fsr (c : Cfg) : (s.relength c).fsr = s.fsr := by dsimp only [State.relength]
@[simp] theorem State.relength_maxBlock (c : Cfg) : (s.relength c).maxBlock = s.maxBlock := by dsimp only [State.relength]
@[simp] theorem State.relength_nch (c : Cfg) : (s.relength c).nch = s.nch := by dsimp only [State.relength]
@[simp] theorem State.relength_xfAlpha (c : Cfg) : (s.relength c).xfAlpha = s.xfAlpha := by dsimp only [State.relength]
@[simp] theorem State.relength_smN (c : Cfg) : (s.relength c).smN = s.smN := by dsimp only [State.relength]
@[simp] theorem State.relength_prm (c : Cfg) : (s.relength c).prm = s.prm := by dsimp only [State.relength]
@[simp] theorem State.relength_apG (c : Cfg) : (s.relength c).apG = s.apG := by dsimp only [State.relength]
@[simp] theorem State.relength_lp (c : Cfg) : (s.relength c).lp = s.lp := by dsimp only [State.relength]
@[simp] theorem State.relength_lfo (c : Cfg) : (s.relength c).lfo = s.lfo := by dsimp only [State.relength]
@[simp] theorem State.relength_sm (c : Cfg) : (s.relength c).sm = s.sm := by dsimp only [State.relength]
@[simp] theorem State.relength_n (c : Cfg) : (s.relength c).n = s.n := by dsimp only [State.relength]
@[simp] theorem State.relength_buf (c : Cfg) : (s.relength c).buf = s.buf := by dsimp only [State.relength]
@[simp] theorem State.relength_cmd (c : Cfg) : (s.relength c).cmd = s.cmd := by dsimp only [State.relength]
@[simp] theorem State.relength_draws (c : Cfg) : (s.relength c).draws = s.draws := by dsimp only [State.relength]

@[simp] theorem State.setDamp_res (c : Cfg) (hz : Word) : (s.setDamp c hz).res = s.res := by dsimp only [State.setDamp]
@[simp] theorem State.setDamp_status (c : Cfg) (hz : Word) : (s.setDamp c hz).status = s.status := by dsimp only [State.setDamp]
@[simp] theorem State.setDamp_fs64 (c : Cfg) (hz : Word) : (s.setDamp c hz).fs64 = s.fs64 := by dsimp only [State.setDamp]
@[simp] theorem State.setDamp_fs (c : Cfg) (hz : Word) : (s.setDamp c hz).fs = s.fs := by dsimp only [State.setDamp]
@[simp] theorem State.setDamp_fsr (c : Cfg) (hz : Word) : (s.setDamp c hz).fsr = s.fsr := by dsimp only [State.setDamp]
@[simp] theorem State.setDamp_maxBlock (c : Cfg) (hz : Word) : (s.setDamp c hz).maxBlock = s.maxBlock := by dsimp only [State.setDamp]
@[simp] theorem State.setDamp_nch (c : Cfg) (hz : Word) : (s.setDamp c hz).nch = s.nch := by dsimp only [State.setDamp]
@[simp] theorem State.setDamp_xfAlpha (c : Cfg) (hz : Word) : (s.setDamp c hz).xfAlpha = s.xfAlpha := by dsimp only [State.setDamp]
@[simp] theorem State.setDamp_smN (c : Cfg) (hz : Word) : (s.setDamp c hz).smN = s.smN := by dsimp only [State.setDamp]
@[simp] theorem State.setDamp_prm (c : Cfg) (hz : Word) : (s.setDamp c hz).prm = s.prm := by dsimp only [State.setDamp]
@[simp] theorem State.setDamp_dl (c : Cfg) (hz : Word) : (s.setDamp c hz).dl = s.dl := by dsimp only [State.setDamp]
@[simp] theorem State.setDamp_apG (c : Cfg) (hz : Word) : (s.setDamp c hz).apG = s.apG := by dsimp only [State.setDamp]
@[simp] theorem State.setDamp_lfo (c : Cfg) (hz : Word) : (s.setDamp c hz).lfo = s.lfo := by dsimp only [State.setDamp]
@[simp] theorem State.setDamp_fdn (c : Cfg) (hz : Word) : (s.setDamp c hz).fdn = s.fdn := by dsimp only [State.setDamp]
@[simp] theorem State.setDamp_sm (c : Cfg) (hz : Word) : (s.setDamp c hz).sm = s.sm := by dsimp only [State.setDamp]
@[simp] theorem State.setDamp_n (c : Cfg) (hz : Word) : (s.setDamp c hz).n = s.n := by dsimp only [State.setDamp]
@[simp] theorem State.setDamp_buf (c : Cfg) (hz : Word) : (s.setDamp c hz).buf = s.buf := by dsimp only [State.setDamp]
@[simp] theorem State.setDamp_cmd (c : Cfg) (hz : Word) : (s.setDamp c hz).cmd = s.cmd := by dsimp only [State.setDamp]
@[simp] theorem State.setDamp_draws (c : Cfg) (hz : Word) : (s.setDamp c hz).draws = s.draws := by dsimp only [State.setDamp]

@[simp] theorem State.setMod_res (c : Cfg) (r d : Word) : (s.setMod c r d).res = s.res := by dsimp only [State.setMod]
@[simp] theorem State.setMod_status (c : Cfg) (r d : Word) : (s.setMod c r d).status = s.status := by dsimp only [State.setMod]
@[simp] theorem State.setMod_fs64 (c : Cfg) (r d : Word) : (s.setMod c r d).fs64 = s.fs64 := by dsimp only [State.setMod]
@[simp] theorem State.setMod_fs (c : Cfg) (r d : Word) : (s.setMod c r d).fs = s.fs := by dsimp only [State.setMod]
@[simp] theorem State.setMod_fsr (c : Cfg) (r d : Word) : (s.setMod c r d).fsr = s.fsr := by dsimp only [State.setMod]
@[simp] theorem State.setMod_maxBlock (c : Cfg) (r d : Word) : (s.setMod c r d).maxBlock = s.maxBlock := by dsimp only [State.setMod]
@[simp] theorem State.setMod_nch (c : Cfg) (r d : Word) : (s.setMod c r d).nch = s.nch := by dsimp only [State.setMod]
@[simp] theorem State.setMod_xfAlpha (c : Cfg) (r d : Word) : (s.setMod c r d).xfAlpha = s.xfAlpha := by dsimp only [State.setMod]
@[simp] theorem State.setMod_smN (c : Cfg) (r d : Word) : (s.setMod c r d).smN = s.smN := by dsimp only [State.setMod]
@[simp] theorem State.setMod_prm (c : Cfg) (r d : Word) : (s.setMod c r d).prm = s.prm := by dsimp only [State.setMod]
@[simp] theorem State.setMod_dl (c : Cfg) (r d : Word) : (s.setMod c r d).dl = s.dl := by dsimp only [State.setMod]
@[simp] theorem State.setMod_apG (c : Cfg) (r d : Word) : (s.setMod c r d).apG = s.apG := by dsimp only [State.setMod]
@[simp] theorem State.setMod_lp (c : Cfg) (r d : Word) : (s.setMod c r d).lp = s.lp := by dsimp only [State.setMod]
@[simp] theorem State.setMod_sm (c : Cfg) (r d : Word) : (s.setMod c r d).sm = s.sm := by dsimp only [State.setMod]
@[simp] theorem State.setMod_n (c : Cfg) (r d : Word) : (s.setMod c r d).n = s.n := by dsimp only [State.setMod]
@[simp] theorem State.setMod_buf (c : Cfg) (r d : Word) : (s.setMod c r d).buf = s.buf := by dsimp only [State.setMod]
@[simp] theorem State.setMod_cmd (c : Cfg) (r d : Word) : (s.setMod c r d).cmd = s.cmd := by dsimp only [State.setMod]
@[simp] theorem State.setMod_draws (c : Cfg) (r d : Word) : (s.setMod c r d).draws = s.draws := by dsimp only [State.setMod]

@[simp] theorem State.setSize_res (c : Cfg) (w : Word) : (s.setSize c w).res = s.res := by dsimp only [State.setSize, State.relength, State.setFdn]
@[simp] theorem State.setSize_status (c : Cfg) (w : Word) : (s.setSize c w).status = s.status := by dsimp only [State.setSize, State.relength, State.setFdn]
@[simp] theorem State.setSize_fs64 (c : Cfg) (w : Word) : (s.setSize c w).fs64 = s.fs64 := by dsimp only [State.setSize, State.relength, State.setFdn]
@[simp] theorem State.setSize_fs (c : Cfg) (w : Word) : (s.setSize c w).fs = s.fs := by dsimp only [State.setSize, State.relength, State.setFdn]
@[simp] theorem State.setSize_fsr (c : Cfg) (w : Word) : (s.setSize c w).fsr = s.fsr := by dsimp only [State.setSize, State.relength, State.setFdn]
@[simp] theorem State.setSize_maxBlock (c : Cfg) (w : Word) : (s.setSize c w).maxBlock = s.maxBlock := by dsimp only [State.setSize, State.relength, State.setFdn]
@[simp] theorem State.setSize_nch (c : Cfg) (w : Word) : (s.setSize c w).nch = s.nch := by dsimp only [State.setSize, State.relength, State.setFdn]
@[simp] theorem State.setSize_xfAlpha (c : Cfg) (w : Word) : (s.setSize c w).xfAlpha = s.xfAlpha := by dsimp only [State.setSize, State.relength, State.setFdn]
@[simp] theorem State.setSize_smN (c : Cfg) (w : Word) : (s.setSize c w).smN = s.smN := by dsimp only [State.setSize, State.relength, State.setFdn]
@[simp] theorem State.setSize_prm (c : Cfg) (w : Word) : (s.setSize c w).prm = s.prm := by dsimp only [State.setSize, State.relength, State.setFdn]
@[simp] theorem State.setSize_apG (c : Cfg) (w : Word) : (s.setSize c w).apG = s.apG := by dsimp only [State.setSize, State.relength, State.setFdn]
@[simp] theorem State.setSize_lp (c : Cfg) (w : Word) : (s.setSize c w).lp = s.lp := by dsimp only [State.setSize, State.relength, State.setFdn]
@[simp] theorem State.setSize_lfo (c : Cfg) (w : Word) : (s.setSize c w).lfo = s.lfo := by dsimp only [State.setSize, State.relength, State.setFdn]
@[simp] theorem State.setSize_sm (c : Cfg) (w : Word) : (s.setSize c w).sm = s.sm := by dsimp only [State.setSize, State.relength, State.setFdn]
@[simp] theorem State.setSize_n (c : Cfg) (w : Word) : (s.setSize c w).n = s.n := by dsimp only [State.setSize, State.relength, State.setFdn]
@[simp] theorem State.setSize_buf (c : Cfg) (w : Word) : (s.setSize c w).buf = s.buf := by dsimp only [State.setSize, State.relength, State.setFdn]
@[simp] theorem State.setSize_cmd (c : Cfg) (w : Word) : (s.setSize c w).cmd = s.cmd := by dsimp only [State.setSize, State.relength, State.setFdn]
@[simp] theorem State.setSize_draws (c : Cfg) (w : Word) : (s.setSize c w).draws = s.draws := by dsimp only [State.setSize, State.relength, State.setFdn]

@[simp] theorem State.setRT60_res (c : Cfg) (w : Word) : (s.setRT60 c w).res = s.res := by dsimp only [State.setRT60, State.relength, State.setFdn]
@[simp] theorem State.setRT60_status (c : Cfg) (w : Word) : (s.setRT60 c w).status = s.status := by dsimp only [State.setRT60, State.relength, State.setFdn]
@[simp] theorem State.setRT60_fs64 (c : Cfg) (w : Word) : (s.setRT60 c w).fs64 = s.fs64 := by dsimp only [State.setRT60, State.relength, State.setFdn]
@[simp] theorem State.setRT60_fs (c : Cfg) (w : Word) : (s.setRT60 c w).fs = s.fs := by dsimp only [State.setRT60, State.relength, State.setFdn]
@[simp] theorem State.setRT60_fsr (c : Cfg) (w : Word) : (s.setRT60 c w).fsr = s.fsr := by dsimp only [State.setRT60, State.relength, State.setFdn]
@[simp] theorem State.setRT60_maxBlock (c : Cfg) (w : Word) : (s.setRT60 c w).maxBlock = s.maxBlock := by dsimp only [State.setRT60, State.relength, State.setFdn]
@[simp] theorem State.setRT60_nch (c : Cfg) (w : Word) : (s.setRT60 c w).nch = s.nch := by dsimp only [State.setRT60, State.relength, State.setFdn]
@[simp] theorem State.setRT60_xfAlpha (c : Cfg) (w : Word) : (s.setRT60 c w).xfAlpha = s.xfAlpha := by dsimp only [State.setRT60, State.relength, State.setFdn]
@[simp] theorem State.setRT60_smN (c : Cfg) (w : Word) : (s.setRT60 c w).smN = s.smN := by dsimp only [State.setRT60, State.relength, State.setFdn]
@[simp] theorem State.setRT60_prm (c : Cfg) (w : Word) : (s.setRT60 c w).prm = s.prm := by dsimp only [State.setRT60, State.relength, State.setFdn]
@[simp] theorem State.setRT60_apG (c : Cfg) (w : Word) : (s.setRT60 c w).apG = s.apG := by dsimp only [State.setRT60, State.relength, State.setFdn]
@[simp] theorem State.setRT60_lp (c : Cfg) (w : Word) : (s.setRT60 c w).lp = s.lp := by dsimp only [State.setRT60, State.relength, State.setFdn]
@[simp] theorem State.setRT60_lfo (c : Cfg) (w : Word) : (s.setRT60 c w).lfo = s.lfo := by dsimp only [State.setRT60, State.relength, State.setFdn]
@[simp] theorem State.setRT60_sm (c : Cfg) (w : Word) : (s.setRT60 c w).sm = s.sm := by dsimp only [State.setRT60, State.relength, State.setFdn]
@[simp] theorem State.setRT60_n (c : Cfg) (w : Word) : (s.setRT60 c w).n = s.n := by dsimp only [State.setRT60, State.relength, State.setFdn]
@[simp] theorem State.setRT60_buf (c : Cfg) (w : Word) : (s.setRT60 c w).buf = s.buf := by dsimp only [State.setRT60, State.relength, State.setFdn]
@[simp] theorem State.setRT60_cmd (c : Cfg) (w : Word) : (s.setRT60 c w).cmd = s.cmd := by dsimp only [State.setRT60, State.relength, State.setFdn]
@[simp] theorem State.setRT60_draws (c : Cfg) (w : Word) : (s.setRT60 c w).draws = s.draws := by dsimp only [State.setRT60, State.relength, State.setFdn]

@[simp] theorem State.setFreeze_res (on : Bool) : (s.setFreeze on).res = s.res := by dsimp only [State.setFreeze, State.setFdn]
@[simp] theorem State.setFreeze_status (on : Bool) : (s.setFreeze on).status = s.status := by dsimp only [State.setFreeze, State.setFdn]
@[simp] theorem State.setFreeze_fs64 (on : Bool) : (s.setFreeze on).fs64 = s.fs64 := by dsimp only [State.setFreeze, State.setFdn]
@[simp] theorem State.setFreeze_fs (on : Bool) : (s.setFreeze on).fs = s.fs := by dsimp only [State.setFreeze, State.setFdn]
@[simp] theorem State.setFreeze_fsr (on : Bool) : (s.setFreeze on).fsr = s.fsr := by dsimp only [State.setFreeze, State.setFdn]
@[simp] theorem State.setFreeze_maxBlock (on : Bool) : (s.setFreeze on).maxBlock = s.maxBlock := by dsimp only [State.setFreeze, State.setFdn]
@[simp] theorem State.setFreeze_nch (on : Bool) : (s.setFreeze on).nch = s.nch := by dsimp only [State.setFreeze, State.setFdn]
@[simp] theorem State.setFreeze_xfAlpha (on : Bool) : (s.setFreeze on).xfAlpha = s.xfAlpha := by dsimp only [State.setFreeze, State.setFdn]
@[simp] theorem State.setFreeze_smN (on : Bool) : (s.setFreeze on).smN = s.smN := by dsimp only [State.setFreeze, State.setFdn]
@[simp] theorem State.setFreeze_prm (on : Bool) : (s.setFreeze on).prm = s.prm := by dsimp only [State.setFreeze, State.setFdn]
@[simp] theorem State.setFreeze_dl (on : Bool) : (s.setFreeze on).dl = s.dl := by dsimp only [State.setFreeze, State.setFdn]
@[simp] theorem State.setFreeze_apG (on : Bool) : (s.setFreeze on).apG = s.apG := by dsimp only [State.setFreeze, State.setFdn]
@[simp] theorem State.setFreeze_lp (on : Bool) : (s.setFreeze on).lp = s.lp := by dsimp only [State.setFreeze, State.setFdn]
@[simp] theorem State.setFreeze_lfo (on : Bool) : (s.setFreeze on).lfo = s.lfo := by dsimp only [State.setFreeze, State.setFdn]
@[simp] theorem State.setFreeze_sm (on : Bool) : (s.setFreeze on).sm = s.sm := by dsimp only [State.setFreeze, State.setFdn]
@[simp] theorem State.setFreeze_n (on : Bool) : (s.setFreeze on).n = s.n := by dsimp only [State.setFreeze, State.setFdn]
@[simp] theorem State.setFreeze_buf (on : Bool) : (s.setFreeze on).buf = s.buf := by dsimp only [State.setFreeze, State.setFdn]
@[simp] theorem State.setFreeze_cmd (on : Bool) : (s.setFreeze on).cmd = s.cmd := by dsimp only [State.setFreeze, State.setFdn]
@[simp] theorem State.setFreeze_draws (on : Bool) : (s.setFreeze on).draws = s.draws := by dsimp only [State.setFreeze, State.setFdn]

@[simp] theorem State.setCutoff_res (c : Cfg) (f : Fin 10) (w : Word) : (s.setCutoff c f w).res = s.res := by dsimp only [State.setCutoff, State.setLP]
@[simp] theorem State.setCutoff_status (c : Cfg) (f : Fin 10) (w : Word) : (s.setCutoff c f w).status = s.status := by dsimp only [State.setCutoff, State.setLP]
@[simp] theorem State.setCutoff_fs64 (c : Cfg) (f : Fin 10) (w : Word) : (s.setCutoff c f w).fs64 = s.fs64 := by dsimp only [State.setCutoff, State.setLP]
@[simp] theorem State.setCutoff_fs (c : Cfg) (f : Fin 10) (w : Word) : (s.setCutoff c f w).fs = s.fs := by dsimp only [State.setCutoff, State.setLP]
@[simp] theorem State.setCutoff_fsr (c : Cfg) (f : Fin 10) (w : Word) : (s.setCutoff c f w).fsr = s.fsr := by dsimp only [State.setCutoff, State.setLP]
@[simp] theorem State.setCutoff_maxBlock (c : Cfg) (f : Fin 10) (w : Word) : (s.setCutoff c f w).maxBlock = s.maxBlock := by dsimp only [State.setCutoff, State.setLP]
@[simp] theorem State.setCutoff_nch (c : Cfg) (f : Fin 10) (w : Word) : (s.setCutoff c f w).nch = s.nch := by dsimp only [State.setCutoff, State.setLP]
@[simp] theorem State.setCutoff_xfAlpha (c : Cfg) (f : Fin 10) (w : Word) : (s.setCutoff c f w).xfAlpha = s.xfAlpha := by dsimp only [State.setCutoff, State.setLP]
@[simp] theorem State.setCutoff_smN (c : Cfg) (f : Fin 10) (w : Word) : (s.setCutoff c f w).smN = s.smN := by dsimp only [State.setCutoff, State.setLP]
@[simp] theorem State.setCutoff_prm (c : Cfg) (f : Fin 10) (w : Word) : (s.setCutoff c f w).prm = s.prm := by dsimp only [State.setCutoff, State.setLP]
@[simp] theorem State.setCutoff_dl (c : Cfg) (f : Fin 10) (w : Word) : (s.setCutoff c f w).dl = s.dl := by dsimp only [State.setCutoff, State.setLP]
@[simp] theorem State.setCutoff_apG (c : Cfg) (f : Fin 10) (w : Word) : (s.setCutoff c f w).apG = s.apG := by dsimp only [State.setCutoff, State.setLP]
@[simp] theorem State.setCutoff_lfo (c : Cfg) (f : Fin 10) (w : Word) : (s.setCutoff c f w).lfo = s.lfo := by dsimp only [State.setCutoff, State.setLP]
@[simp] theorem State.setCutoff_fdn (c : Cfg) (f : Fin 10) (w : Word) : (s.setCutoff c f w).fdn = s.fdn := by dsimp only [State.setCutoff, State.setLP]
@[simp] theorem State.setCutoff_sm (c : Cfg) (f : Fin 10) (w : Word) : (s.setCutoff c f w).sm = s.sm := by dsimp only [State.setCutoff, State.setLP]
@[simp] theorem State.setCutoff_n (c : Cfg) (f : Fin 10) (w : Word) : (s.setCutoff c f w).n = s.n := by dsimp only [State.setCutoff, State.setLP]
@[simp] theorem State.setCutoff_buf (c : Cfg) (f : Fin 10) (w : Word) : (s.setCutoff c f w).buf = s.buf := by dsimp only [State.setCutoff, State.setLP]
@[simp] theorem State.setCutoff_cmd (c : Cfg) (f : Fin 10) (w : Word) : (s.setCutoff c f w).cmd = s.cmd := by dsimp only [State.setCutoff, State.setLP]
@[simp] theorem State.setCutoff_draws (c : Cfg) (f : Fin 10) (w : Word) : (s.setCutoff c f w).draws = s.draws := by dsimp only [State.setCutoff, State.setLP]

@[simp] theorem State.setPredelay_res (pd : Nat) : (s.setPredelay pd).res = s.res := by dsimp only [State.setPredelay, State.setDL]
@[simp] theorem State.setPredelay_status (pd : Nat) : (s.setPredelay pd).status = s.status := by dsimp only [State.setPredelay, State.setDL]
@[simp] theorem State.setPredelay_fs64 (pd : Nat) : (s.setPredelay pd).fs64 = s.fs64 := by dsimp only [State.setPredelay, State.setDL]
@[simp] theorem State.setPredelay_fs (pd : Nat) : (s.setPredelay pd).fs = s.fs := by dsimp only [State.setPredelay, State.setDL]
@[simp] theorem State.setPredelay_fsr (pd : Nat) : (s.setPredelay pd).fsr = s.fsr := by dsimp only [State.setPredelay, State.setDL]
@[simp] theorem State.setPredelay_maxBlock (pd : Nat) : (s.setPredelay pd).maxBlock = s.maxBlock := by dsimp only [State.setPredelay, State.setDL]
@[simp] theorem State.setPredelay_nch (pd : Nat) : (s.setPredelay pd).nch = s.nch := by dsimp only [State.setPredelay, State.setDL]
@[simp] theorem State.setPredelay_xfAlpha (pd : Nat) : (s.setPredelay pd).xfAlpha = s.xfAlpha := by dsimp only [State.setPredelay, State.setDL]
@[simp] theorem State.setPredelay_smN (pd : Nat) : (s.setPredelay pd).smN = s.smN := by dsimp only [State.setPredelay, State.setDL]
@[simp] theorem State.setPredelay_prm (pd : Nat) : (s.setPredelay pd).prm = s.prm := by dsimp only [State.setPredelay, State.setDL]
@[simp] theorem State.setPredelay_apG (pd : Nat) : (s.setPredelay pd).apG = s.apG := by dsimp only [State.setPredelay, State.setDL]
@[simp] theorem State.setPredelay_lp (pd : Nat) : (s.setPredelay pd).lp = s.lp := by dsimp only [State.setPredelay, State.setDL]
@[simp] theorem State.setPredelay_lfo (pd : Nat) : (s.setPredelay pd).lfo = s.lfo := by dsimp only [State.setPredelay, State.setDL]
@[simp] theorem State.setPredelay_fdn (pd : Nat) : (s.setPredelay pd).fdn = s.fdn := by dsimp only [State.setPredelay, State.setDL]
@[simp] theorem State.setPredelay_sm (pd : Nat) : (s.setPredelay pd).sm = s.sm := by dsimp only [State.setPredelay, State.setDL]
@[simp] theorem State.setPredelay_n (pd : Nat) : (s.setPredelay pd).n = s.n := by dsimp only [State.setPredelay, State.setDL]
@[simp] theorem State.setPredelay_buf (pd : Nat) : (s.setPredelay pd).buf = s.buf := by dsimp only [State.setPredelay, State.setDL]
@[simp] theorem State.setPredelay_cmd (pd : Nat) : (s.setPredelay pd).cmd = s.cmd := by dsimp only [State.setPredelay, State.setDL]
@[simp] theorem State.setPredelay_draws (pd : Nat) : (s.setPredelay pd).draws = s.draws := by dsimp only [State.setPredelay, State.setDL]

@[simp] theorem State.setDiffusion_res (g : Word) : (s.setDiffusion g).res = s.res := by dsimp only [State.setDiffusion]
@[simp] theorem State.setDiffusion_status (g : Word) : (s.setDiffusion g).status = s.status := by dsimp only [State.setDiffusion]
@[simp] theorem State.setDiffusion_fs64 (g : Word) : (s.setDiffusion g).fs64 = s.fs64 := by dsimp only [State.setDiffusion]
@[simp] theorem State.setDiffusion_fs (g : Word) : (s.setDiffusion g).fs = s.fs := by dsimp only [State.setDiffusion]
@[simp] theorem State.setDiffusion_fsr (g : Word) : (s.setDiffusion g).fsr = s.fsr := by dsimp only [State.setDiffusion]
@[simp] theorem State.setDiffusion_maxBlock (g : Word) : (s.setDiffusion g).maxBlock = s.maxBlock := by dsimp only [State.setDiffusion]
@[simp] theorem State.setDiffusion_nch (g : Word) : (s.setDiffusion g).nch = s.nch := by dsimp only [State.setDiffusion]
@[simp] theorem State.setDiffusion_xfAlpha (g : Word) : (s.setDiffusion g).xfAlpha = s.xfAlpha := by dsimp only [State.setDiffusion]
@[simp] theorem State.setDiffusion_smN (g : Word) : (s.setDiffusion g).smN = s.smN := by dsimp only [State.setDiffusion]
@[simp] theorem State.setDiffusion_prm (g : Word) : (s.setDiffusion g).prm = s.prm := by dsimp only [State.setDiffusion]
@[simp] theorem State.setDiffusion_dl (g : Word) : (s.setDiffusion g).dl = s.dl := by dsimp only [State.setDiffusion]
@[simp] theorem State.setDiffusion_lp (g : Word) : (s.setDiffusion g).lp = s.lp := by dsimp only [State.setDiffusion]
@[simp] theorem State.setDiffusion_lfo (g : Word) : (s.setDiffusion g).lfo = s.lfo := by dsimp only [State.setDiffusion]
@[simp] theorem State.setDiffusion_fdn (g : Word) : (s.setDiffusion g).fdn = s.fdn := by dsimp only [State.setDiffusion]
@[simp] theorem State.setDiffusion_sm (g : Word) : (s.setDiffusion g).sm = s.sm := by dsimp only [State.setDiffusion]
@[simp] theorem State.setDiffusion_n (g : Word) : (s.setDiffusion g).n = s.n := by dsimp only [State.setDiffusion]
@[simp] theorem State.setDiffusion_buf (g : Word) : (s.setDiffusion g).buf = s.buf := by dsimp only [State.setDiffusion]
@[simp] theorem State.setDiffusion_cmd (g : Word) : (s.setDiffusion g).cmd = s.cmd := by dsimp only [State.setDiffusion]
@[simp] theorem State.setDiffusion_draws (g : Word) : (s.setDiffusion g).draws = s.draws := by dsimp only [State.setDiffusion]

@[simp] theorem State.setTarget_res (k : Fin 2) (t : Word) : (s.setTarget k t).res = s.res := by dsimp only [State.setTarget, State.setSM]
@[simp] theorem State.setTarget_status (k : Fin 2) (t : Word) : (s.setTarget k t).status = s.status := by dsimp only [State.setTarget, State.setSM]
@[simp] theorem State.setTarget_fs64 (k : Fin 2) (t : Word) : (s.setTarget k t).fs64 = s.fs64 := by dsimp only [State.setTarget, State.setSM]
@[simp] theorem State.setTarget_fs (k : Fin 2) (t : Word) : (s.setTarget k t).fs = s.fs := by dsimp only [State.setTarget, State.setSM]
@[simp] theorem State.setTarget_fsr (k : Fin 2) (t : Word) : (s.setTarget k t).fsr = s.fsr := by dsimp only [State.setTarget, State.setSM]
@[simp] theorem State.setTarget_maxBlock (k : Fin 2) (t : Word) : (s.setTarget k t).maxBlock = s.maxBlock := by dsimp only [State.setTarget, State.setSM]
@[simp] theorem State.setTarget_nch (k : Fin 2) (t : Word) : (s.setTarget k t).nch = s.nch := by dsimp only [State.setTarget, State.setSM]
@[simp] theorem State.setTarget_xfAlpha (k : Fin 2) (t : Word) : (s.setTarget k t).xfAlpha = s.xfAlpha := by dsimp only [State.setTarget, State.setSM]
@[simp] theorem State.setTarget_smN (k : Fin 2) (t : Word) : (s.setTarget k t).smN = s.smN := by dsimp only [State.setTarget, State.setSM]
@[simp] theorem State.setTarget_prm (k : Fin 2) (t : Word) : (s.setTarget k t).prm = s.prm := by dsimp only [State.setTarget, State.setSM]
@[simp] theorem State.setTarget_dl (k : Fin 2) (t : Word) : (s.setTarget k t).dl = s.dl := by dsimp only [State.setTarget, State.setSM]
@[simp] theorem State.setTarget_apG (k : Fin 2) (t : Word) : (s.setTarget k t).apG = s.apG := by dsimp only [State.setTarget, State.setSM]
@[simp] theorem State.setTarget_lp (k : Fin 2) (t : Word) : (s.setTarget k t).lp = s.lp := by dsimp only [State.setTarget, State.setSM]
@[simp] theorem State.setTarget_lfo (k : Fin 2) (t : Word) : (s.setTarget k t).lfo = s.lfo := by dsimp only [State.setTarget, State.setSM]
@[simp] theorem State.setTarget_fdn (k : Fin 2) (t : Word) : (s.setTarget k t).fdn = s.fdn := by dsimp only [State.setTarget, State.setSM]
@[simp] theorem State.setTarget_n (k : Fin 2) (t : Word) : (s.setTarget k t).n = s.n := by dsimp only [State.setTarget, State.setSM]
@[simp] theorem State.setTarget_buf (k : Fin 2) (t : Word) : (s.setTarget k t).buf = s.buf := by dsimp only [State.setTarget, State.setSM]
@[simp] theorem State.setTarget_cmd (k : Fin 2) (t : Word) : (s.setTarget k t).cmd = s.cmd := by dsimp only [State.setTarget, State.setSM]
@[simp] theorem State.setTarget_draws (k : Fin 2) (t : Word) : (s.setTarget k t).draws = s.draws := by dsimp only [State.setTarget, State.setSM]

@[simp] theorem State.seedAll_res (c : Cfg) : (s.seedAll c).res = s.res := by dsimp only [State.seedAll]
@[simp] theorem State.seedAll_status (c : Cfg) : (s.seedAll c).status = s.status := by dsimp only [State.seedAll]
@[simp] theorem State.seedAll_fs64 (c : Cfg) : (s.seedAll c).fs64 = s.fs64 := by dsimp only [State.seedAll]
@[simp] theorem State.seedAll_fs (c : Cfg) : (s.seedAll c).fs = s.fs := by dsimp only [State.seedAll]
@[simp] theorem State.seedAll_fsr (c : Cfg) : (s.seedAll c).fsr = s.fsr := by dsimp only [State.seedAll]
@[simp] theorem State.seedAll_maxBlock (c : Cfg) : (s.seedAll c).maxBlock = s.maxBlock := by dsimp only [State.seedAll]
@[simp] theorem State.seedAll_nch (c : Cfg) : (s.seedAll c).nch = s.nch := by dsimp only [State.seedAll]
@[simp] theorem State.seedAll_xfAlpha (c : Cfg) : (s.seedAll c).xfAlpha = s.xfAlpha := by dsimp only [State.seedAll]
@[simp] theorem State.seedAll_smN (c : Cfg) : (s.seedAll c).smN = s.smN := by dsimp only [State.seedAll]
@[simp] theorem State.seedAll_prm (c : Cfg) : (s.seedAll c).prm = s.prm := by dsimp only [State.seedAll]
@[simp] theorem State.seedAll_dl (c : Cfg) : (s.seedAll c).dl = s.dl := by dsimp only [State.seedAll]
@[simp] theorem State.seedAll_apG (c : Cfg) : (s.seedAll c).apG = s.apG := by dsimp only [State.seedAll]
@[simp] theorem State.seedAll_lp (c : Cfg) : (s.seedAll c).lp = s.lp := by dsimp only [State.seedAll]
@[simp] theorem State.seedAll_fdn (c : Cfg) : (s.seedAll c).fdn = s.fdn := by dsimp only [State.seedAll]
@[simp] theorem State.seedAll_sm (c : Cfg) : (s.seedAll c).sm = s.sm := by dsimp only [State.seedAll]
@[simp] theorem State.seedAll_n (c : Cfg) : (s.seedAll c).n = s.n := by dsimp only [State.seedAll]
@[simp] theorem State.seedAll_buf (c : Cfg) : (s.seedAll c).buf = s.buf := by dsimp only [State.seedAll]
@[simp] theorem State.seedAll_cmd (c : Cfg) : (s.seedAll c).cmd = s.cmd := by dsimp only [State.seedAll]
@[simp] theorem State.seedAll_draws (c : Cfg) : (s.seedAll c).draws = s.draws := by dsimp only [State.seedAll]

@[simp] theorem State.finishFirst_res  : s.finishFirst.res = s.res := by dsimp only [State.finishFirst]
@[simp] theorem State.finishFirst_fs64  : s.finishFirst.fs64 = s.fs64 := by dsimp only [State.finishFirst]
@[simp] theorem State.finishFirst_fs  : s.finishFirst.fs = s.fs := by dsimp only [State.finishFirst]
@[simp] theorem State.finishFirst_fsr  : s.finishFirst.fsr = s.fsr := by dsimp only [State.finishFirst]
@[simp] theorem State.finishFirst_maxBlock  : s.finishFirst.maxBlock = s.maxBlock := by dsimp only [State.finishFirst]
@[simp] theorem State.finishFirst_nch  : s.finishFirst.nch = s.nch := by dsimp only [State.finishFirst]
@[simp] theorem State.finishFirst_xfAlpha  : s.finishFirst.xfAlpha = s.xfAlpha := by dsimp only [State.finishFirst]
@[simp] theorem State.finishFirst_smN  : s.finishFirst.smN = s.smN := by dsimp only [State.finishFirst]
@[simp] theorem State.finishFirst_prm  : s.finishFirst.prm = s.prm := by dsimp only [State.finishFirst]
@[simp] theorem State.finishFirst_dl  : s.finishFirst.dl = s.dl := by dsimp only [State.finishFirst]
@[simp] theorem State.finishFirst_apG  : s.finishFirst.apG = s.apG := by dsimp only [State.finishFirst]
@[simp] theorem State.finishFirst_lp  : s.finishFirst.lp = s.lp := by dsimp only [State.finishFirst]
@[simp] theorem State.finishFirst_lfo  : s.finishFirst.lfo = s.lfo := by dsimp only [State.finishFirst]
@[simp] theorem State.finishFirst_fdn  : s.finishFirst.fdn = s.fdn := by dsimp only [State.finishFirst]
@[simp] theorem State.finishFirst_n  : s.finishFirst.n = s.n := by dsimp only [State.finishFirst]
@[simp] theorem State.finishFirst_buf  : s.finishFirst.buf = s.buf := by dsimp only [State.finishFirst]
@[simp] theorem State.finishFirst_cmd  : s.finishFirst.cmd = s.cmd := by dsimp only [State.finishFirst]
@[simp] theorem State.finishFirst_draws  : s.finishFirst.draws = s.draws := by dsimp only [State.finishFirst]

@[simp] theorem State.clearAudio_res  : s.clearAudio.res = s.res := by dsimp only [State.clearAudio]
@[simp] theorem State.clearAudio_status  : s.clearAudio.status = s.status := by dsimp only [State.clearAudio]
@[simp] theorem State.clearAudio_fs64  : s.clearAudio.fs64 = s.fs64 := by dsimp only [State.clearAudio]
@[simp] theorem State.clearAudio_fs  : s.clearAudio.fs = s.fs := by dsimp only [State.clearAudio]
@[simp] theorem State.clearAudio_fsr  : s.clearAudio.fsr = s.fsr := by dsimp only [State.clearAudio]
@[simp] theorem State.clearAudio_maxBlock  : s.clearAudio.maxBlock = s.maxBlock := by dsimp only [State.clearAudio]
@[simp] theorem State.clearAudio_nch  : s.clearAudio.nch = s.nch := by dsimp only [State.clearAudio]
@[simp] theorem State.clearAudio_xfAlpha  : s.clearAudio.xfAlpha = s.xfAlpha := by dsimp only [State.clearAudio]
@[simp] theorem State.clearAudio_smN  : s.clearAudio.smN = s.smN := by dsimp only [State.clearAudio]
@[simp] theorem State.clearAudio_prm  : s.clearAudio.prm = s.prm := by dsimp only [State.clearAudio]
@[simp] theorem State.clearAudio_apG  : s.clearAudio.apG = s.apG := by dsimp only [State.clearAudio]
@[simp] theorem State.clearAudio_lfo  : s.clearAudio.lfo = s.lfo := by dsimp only [State.clearAudio]
@[simp] theorem State.clearAudio_fdn  : s.clearAudio.fdn = s.fdn := by dsimp only [State.clearAudio]
@[simp] theorem State.clearAudio_sm  : s.clearAudio.sm = s.sm := by dsimp only [State.clearAudio]
@[simp] theorem State.clearAudio_n  : s.clearAudio.n = s.n := by dsimp only [State.clearAudio]
@[simp] theorem State.clearAudio_buf  : s.clearAudio.buf = s.buf := by dsimp only [State.clearAudio]
@[simp] theorem State.clearAudio_cmd  : s.clearAudio.cmd = s.cmd := by dsimp only [State.clearAudio]
@[simp] theorem State.clearAudio_draws  : s.clearAudio.draws = s.draws := by dsimp only [State.clearAudio]

@[simp] theorem State.beginBlock_res  : s.beginBlock.res = s.res := by dsimp only [State.beginBlock]
@[simp] theorem State.beginBlock_status  : s.beginBlock.status = s.status := by dsimp only [State.beginBlock]
@[simp] theorem State.beginBlock_fs64  : s.beginBlock.fs64 = s.fs64 := by dsimp only [State.beginBlock]
@[simp] theorem State.beginBlock_fs  : s.beginBlock.fs = s.fs := by dsimp only [State.beginBlock]
@[simp] theorem State.beginBlock_fsr  : s.beginBlock.fsr = s.fsr := by dsimp only [State.beginBlock]
@[simp] theorem State.beginBlock_maxBlock  : s.beginBlock.maxBlock = s.maxBlock := by dsimp only [State.beginBlock]
@[simp] theorem State.beginBlock_nch  : s.beginBlock.nch = s.nch := by dsimp only [State.beginBlock]
@[simp] theorem State.beginBlock_xfAlpha  : s.beginBlock.xfAlpha = s.xfAlpha := by dsimp only [State.beginBlock]
@[simp] theorem State.beginBlock_smN  : s.beginBlock.smN = s.smN := by dsimp only [State.beginBlock]
@[simp] theorem State.beginBlock_prm  : s.beginBlock.prm = s.prm := by dsimp only [State.beginBlock]
@[simp] theorem State.beginBlock_dl  : s.beginBlock.dl = s.dl := by dsimp only [State.beginBlock]
@[simp] theorem State.beginBlock_apG  : s.beginBlock.apG = s.apG := by dsimp only [State.beginBlock]
@[simp] theorem State.beginBlock_lp  : s.beginBlock.lp = s.lp := by dsimp only [State.beginBlock]
@[simp] theorem State.beginBlock_lfo  : s.beginBlock.lfo = s.lfo := by dsimp only [State.beginBlock]
@[simp] theorem State.beginBlock_fdn  : s.beginBlock.fdn = s.fdn := by dsimp only [State.beginBlock]
@[simp] theorem State.beginBlock_sm  : s.beginBlock.sm = s.sm := by dsimp only [State.beginBlock]
@[simp] theorem State.beginBlock_buf  : s.beginBlock.buf = s.buf := by dsimp only [State.beginBlock]
@[simp] theorem State.beginBlock_cmd  : s.beginBlock.cmd = s.cmd := by dsimp only [State.beginBlock]
@[simp] theorem State.beginBlock_draws  : s.beginBlock.draws = s.draws := by dsimp only [State.beginBlock]

@[simp] theorem State.endBlock_res  : s.endBlock.res = s.res := by dsimp only [State.endBlock]
@[simp] theorem State.endBlock_status  : s.endBlock.status = s.status := by dsimp only [State.endBlock]
@[simp] theorem State.endBlock_fs64  : s.endBlock.fs64 = s.fs64 := by dsimp only [State.endBlock]
@[simp] theorem State.endBlock_fs  : s.endBlock.fs = s.fs := by dsimp only [State.endBlock]
@[simp] theorem State.endBlock_fsr  : s.endBlock.fsr = s.fsr := by dsimp only [State.endBlock]
@[simp] theorem State.endBlock_maxBlock  : s.endBlock.maxBlock = s.maxBlock := by dsimp only [State.endBlock]
@[simp] theorem State.endBlock_nch  : s.endBlock.nch = s.nch := by dsimp only [State.endBlock]
@[simp] theorem State.endBlock_xfAlpha  : s.endBlock.xfAlpha = s.xfAlpha := by dsimp only [State.endBlock]
@[simp] theorem State.endBlock_smN  : s.endBlock.smN = s.smN := by dsimp only [State.endBlock]
@[simp] theorem State.endBlock_prm  : s.endBlock.prm = s.prm := by dsimp only [State.endBlock]
@[simp] theorem State.endBlock_dl  : s.endBlock.dl = s.dl := by dsimp only [State.endBlock]
@[simp] theorem State.endBlock_apG  : s.endBlock.apG = s.apG := by dsimp only [State.endBlock]
@[simp] theorem State.endBlock_lp  : s.endBlock.lp = s.lp := by dsimp only [State.endBlock]
@[simp] theorem State.endBlock_lfo  : s.endBlock.lfo = s.lfo := by dsimp only [State.endBlock]
@[simp] theorem State.endBlock_fdn  : s.endBlock.fdn = s.fdn := by dsimp only [State.endBlock]
@[simp] theorem State.endBlock_sm  : s.endBlock.sm = s.sm := by dsimp only [State.endBlock]
@[simp] theorem State.endBlock_buf  : s.endBlock.buf = s.buf := by dsimp only [State.endBlock]
@[simp] theorem State.endBlock_cmd  : s.endBlock.cmd = s.cmd := by dsimp only [State.endBlock]
@[simp] theorem State.endBlock_draws  : s.endBlock.draws = s.draws := by dsimp only [State.endBlock]

@[simp] theorem State.advance_res  : s.advance.res = s.res := by dsimp only [State.advance]
@[simp] theorem State.advance_status  : s.advance.status = s.status := by dsimp only [State.advance]
@[simp] theorem State.advance_fs64  : s.advance.fs64 = s.fs64 := by dsimp only [State.advance]
@[simp] theorem State.advance_fs  : s.advance.fs = s.fs := by dsimp only [State.advance]
@[simp] theorem State.advance_fsr  : s.advance.fsr = s.fsr := by dsimp only [State.advance]
@[simp] theorem State.advance_maxBlock  : s.advance.maxBlock = s.maxBlock := by dsimp only [State.advance]
@[simp] theorem State.advance_nch  : s.advance.nch = s.nch := by dsimp only [State.advance]
@[simp] theorem State.advance_xfAlpha  : s.advance.xfAlpha = s.xfAlpha := by dsimp only [State.advance]
@[simp] theorem State.advance_smN  : s.advance.smN = s.smN := by dsimp only [State.advance]
@[simp] theorem State.advance_prm  : s.advance.prm = s.prm := by dsimp only [State.advance]
@[simp] theorem State.advance_dl  : s.advance.dl = s.dl := by dsimp only [State.advance]
@[simp] theorem State.advance_apG  : s.advance.apG = s.apG := by dsimp only [State.advance]
@[simp] theorem State.advance_lp  : s.advance.lp = s.lp := by dsimp only [State.advance]
@[simp] theorem State.advance_lfo  : s.advance.lfo = s.lfo := by dsimp only [State.advance]
@[simp] theorem State.advance_fdn  : s.advance.fdn = s.fdn := by dsimp only [State.advance]
@[simp] theorem State.advance_sm  : s.advance.sm = s.sm := by dsimp only [State.advance]
@[simp] theorem State.advance_buf  : s.advance.buf = s.buf := by dsimp only [State.advance]
@[simp] theorem State.advance_cmd  : s.advance.cmd = s.cmd := by dsimp only [State.advance]

@[simp] theorem State.writeBack_res (c : Cfg) (nch m : Nat) (l r : Word) : (s.writeBack c nch m l r).res = s.res := by dsimp only [State.writeBack]
@[simp] theorem State.writeBack_status (c : Cfg) (nch m : Nat) (l r : Word) : (s.writeBack c nch m l r).status = s.status := by dsimp only [State.writeBack]
@[simp] theorem State.writeBack_fs64 (c : Cfg) (nch m : Nat) (l r : Word) : (s.writeBack c nch m l r).fs64 = s.fs64 := by dsimp only [State.writeBack]
@[simp] theorem State.writeBack_fs (c : Cfg) (nch m : Nat) (l r : Word) : (s.writeBack c nch m l r).fs = s.fs := by dsimp only [State.writeBack]
@[simp] theorem State.writeBack_fsr (c : Cfg) (nch m : Nat) (l r : Word) : (s.writeBack c nch m l r).fsr = s.fsr := by dsimp only [State.writeBack]
@[simp] theorem State.writeBack_maxBlock (c : Cfg) (nch m : Nat) (l r : Word) : (s.writeBack c nch m l r).maxBlock = s.maxBlock := by dsimp only [State.writeBack]
@[simp] theorem State.writeBack_nch (c : Cfg) (nch m : Nat) (l r : Word) : (s.writeBack c nch m l r).nch = s.nch := by dsimp only [State.writeBack]
@[simp] theorem State.writeBack_xfAlpha (c : Cfg) (nch m : Nat) (l r : Word) : (s.writeBack c nch m l r).xfAlpha = s.xfAlpha := by dsimp only [State.writeBack]
@[simp] theorem State.writeBack_smN (c : Cfg) (nch m : Nat) (l r : Word) : (s.writeBack c nch m l r).smN = s.smN := by dsimp only [State.writeBack]
@[simp] theorem State.writeBack_prm (c : Cfg) (nch m : Nat) (l r : Word) : (s.writeBack c nch m l r).prm = s.prm := by dsimp only [State.writeBack]
@[simp] theorem State.writeBack_dl (c : Cfg) (nch m : Nat) (l r : Word) : (s.writeBack c nch m l r).dl = s.dl := by dsimp only [State.writeBack]
@[simp] theorem State.writeBack_apG (c : Cfg) (nch m : Nat) (l r : Word) : (s.writeBack c nch m l r).apG = s.apG := by dsimp only [State.writeBack]
@[simp] theorem State.writeBack_lp (c : Cfg) (nch m : Nat) (l r : Word) : (s.writeBack c nch m l r).lp = s.lp := by dsimp only [State.writeBack]
@[simp] theorem State.writeBack_lfo (c : Cfg) (nch m : Nat) (l r : Word) : (s.writeBack c nch m l r).lfo = s.lfo := by dsimp only [State.writeBack]
@[simp] theorem State.writeBack_fdn (c : Cfg) (nch m : Nat) (l r : Word) : (s.writeBack c nch m l r).fdn = s.fdn := by dsimp only [State.writeBack]
@[simp] theorem State.writeBack_sm (c : Cfg) (nch m : Nat) (l r : Word) : (s.writeBack c nch m l r).sm = s.sm := by dsimp only [State.writeBack]
@[simp] theorem State.writeBack_n (c : Cfg) (nch m : Nat) (l r : Word) : (s.writeBack c nch m l r).n = s.n := by dsimp only [State.writeBack]
@[simp] theorem State.writeBack_cmd (c : Cfg) (nch m : Nat) (l r : Word) : (s.writeBack c nch m l r).cmd = s.cmd := by dsimp only [State.writeBack]
@[simp] theorem State.writeBack_draws (c : Cfg) (nch m : Nat) (l r : Word) : (s.writeBack c nch m l r).draws = s.draws := by dsimp only [State.writeBack]

@[simp] theorem State.prepare_res (c : Cfg) (nch : Nat) (f : DWord) (mb : Word) (z : Sizing) : (s.prepare c nch f mb z).res = s.res := by dsimp only [State.prepare, State.relength, State.setStatus]
@[simp] theorem State.prepare_prm (c : Cfg) (nch : Nat) (f : DWord) (mb : Word) (z : Sizing) : (s.prepare c nch f mb z).prm = s.prm := by dsimp only [State.prepare, State.relength, State.setStatus]
@[simp] theorem State.prepare_n (c : Cfg) (nch : Nat) (f : DWord) (mb : Word) (z : Sizing) : (s.prepare c nch f mb z).n = s.n := by dsimp only [State.prepare, State.relength, State.setStatus]
@[simp] theorem State.prepare_buf (c : Cfg) (nch : Nat) (f : DWord) (mb : Word) (z : Sizing) : (s.prepare c nch f mb z).buf = s.buf := by dsimp only [State.prepare, State.relength, State.setStatus]
@[simp] theorem State.prepare_cmd (c : Cfg) (nch : Nat) (f : DWord) (mb : Word) (z : Sizing) : (s.prepare c nch f mb z).cmd = s.cmd := by dsimp only [State.prepare, State.relength, State.setStatus]
@[simp] theorem State.prepare_draws (c : Cfg) (nch : Nat) (f : DWord) (mb : Word) (z : Sizing) : (s.prepare c nch f mb z).draws = s.draws := by dsimp only [State.prepare, State.relength, State.setStatus]

@[simp] theorem State.tickState_res (c : Cfg) (x : Word) : (s.tickState c x).res = s.res := by dsimp only [State.tickState]
@[simp] theorem State.tickState_status (c : Cfg) (x : Word) : (s.tickState c x).status = s.status := by dsimp only [State.tickState]
@[simp] theorem State.tickState_fs64 (c : Cfg) (x : Word) : (s.tickState c x).fs64 = s.fs64 := by dsimp only [State.tickState]
@[simp] theorem State.tickState_fs (c : Cfg) (x : Word) : (s.tickState c x).fs = s.fs := by dsimp only [State.tickState]
@[simp] theorem State.tickState_fsr (c : Cfg) (x : Word) : (s.tickState c x).fsr = s.fsr := by dsimp only [State.tickState]
@[simp] theorem State.tickState_maxBlock (c : Cfg) (x : Word) : (s.tickState c x).maxBlock = s.maxBlock := by dsimp only [State.tickState]
@[simp] theorem State.tickState_nch (c : Cfg) (x : Word) : (s.tickState c x).nch = s.nch := by dsimp only [State.tickState]
@[simp] theorem State.tickState_xfAlpha (c : Cfg) (x : Word) : (s.tickState c x).xfAlpha = s.xfAlpha := by dsimp only [State.tickState]
@[simp] theorem State.tickState_smN (c : Cfg) (x : Word) : (s.tickState c x).smN = s.smN := by dsimp only [State.tickState]
@[simp] theorem State.tickState_prm (c : Cfg) (x : Word) : (s.tickState c x).prm = s.prm := by dsimp only [State.tickState]
@[simp] theorem State.tickState_apG (c : Cfg) (x : Word) : (s.tickState c x).apG = s.apG := by dsimp only [State.tickState]
@[simp] theorem State.tickState_sm (c : Cfg) (x : Word) : (s.tickState c x).sm = s.sm := by dsimp only [State.tickState]
@[simp] theorem State.tickState_n (c : Cfg) (x : Word) : (s.tickState c x).n = s.n := by dsimp only [State.tickState]
@[simp] theorem State.tickState_buf (c : Cfg) (x : Word) : (s.tickState c x).buf = s.buf := by dsimp only [State.tickState]
@[simp] theorem State.tickState_cmd (c : Cfg) (x : Word) : (s.tickState c x).cmd = s.cmd := by dsimp only [State.tickState]
@[simp] theorem State.tickState_draws (c : Cfg) (x : Word) : (s.tickState c x).draws = s.draws := by dsimp only [State.tickState]

@[simp] theorem State.allpass_snd_res (a : Fin 8) (x : Word) : (s.allpass a x).2.res = s.res := by dsimp only [State.allpass, State.setDL]
@[simp] theorem State.allpass_snd_status (a : Fin 8) (x : Word) : (s.allpass a x).2.status = s.status := by dsimp only [State.allpass, State.setDL]
@[simp] theorem State.allpass_snd_fs64 (a : Fin 8) (x : Word) : (s.allpass a x).2.fs64 = s.fs64 := by dsimp only [State.allpass, State.setDL]
@[simp] theorem State.allpass_snd_fs (a : Fin 8) (x : Word) : (s.allpass a x).2.fs = s.fs := by dsimp only [State.allpass, State.setDL]
@[simp] theorem State.allpass_snd_fsr (a : Fin 8) (x : Word) : (s.allpass a x).2.fsr = s.fsr := by dsimp only [State.allpass, State.setDL]
@[simp] theorem State.allpass_snd_maxBlock (a : Fin 8) (x : Word) : (s.allpass a x).2.maxBlock = s.maxBlock := by dsimp only [State.allpass, State.setDL]
@[simp] theorem State.allpass_snd_nch (a : Fin 8) (x : Word) : (s.allpass a x).2.nch = s.nch := by dsimp only [State.allpass, State.setDL]
@[simp] theorem State.allpass_snd_xfAlpha (a : Fin 8) (x : Word) : (s.allpass a x).2.xfAlpha = s.xfAlpha := by dsimp only [State.allpass, State.setDL]
@[simp] theorem State.allpass_snd_smN (a : Fin 8) (x : Word) : (s.allpass a x).2.smN = s.smN := by dsimp only [State.allpass, State.setDL]
@[simp] theorem State.allpass_snd_prm (a : Fin 8) (x : Word) : (s.allpass a x).2.prm = s.prm := by dsimp only [State.allpass, State.setDL]
@[simp] theorem State.allpass_snd_apG (a : Fin 8) (x : Word) : (s.allpass a x).2.apG = s.apG := by dsimp only [State.allpass, State.setDL]
@[simp] theorem State.allpass_snd_lp (a : Fin 8) (x : Word) : (s.allpass a x).2.lp = s.lp := by dsimp only [State.allpass, State.setDL]
@[simp] theorem State.allpass_snd_lfo (a : Fin 8) (x : Word) : (s.allpass a x).2.lfo = s.lfo := by dsimp only [State.allpass, State.setDL]
@[simp] theorem State.allpass_snd_fdn (a : Fin 8) (x : Word) : (s.allpass a x).2.fdn = s.fdn := by dsimp only [State.allpass, State.setDL]
@[simp] theorem State.allpass_snd_sm (a : Fin 8) (x : Word) : (s.allpass a x).2.sm = s.sm := by dsimp only [State.allpass, State.setDL]
@[simp] theorem State.allpass_snd_n (a : Fin 8) (x : Word) : (s.allpass a x).2.n = s.n := by dsimp only [State.allpass, State.setDL]
@[simp] theorem State.allpass_snd_buf (a : Fin 8) (x : Word) : (s.allpass a x).2.buf = s.buf := by dsimp only [State.allpass, State.setDL]
@[simp] theorem State.allpass_snd_cmd (a : Fin 8) (x : Word) : (s.allpass a x).2.cmd = s.cmd := by dsimp only [State.allpass, State.setDL]
@[simp] theorem State.allpass_snd_draws (a : Fin 8) (x : Word) : (s.allpass a x).2.draws = s.draws := by dsimp only [State.allpass, State.setDL]

@[simp] theorem State.predelay_snd_res (u : Fin 18) (x : Word) : (s.predelay u x).2.res = s.res := by dsimp only [State.predelay, State.setDL]
@[simp] theorem State.predelay_snd_status (u : Fin 18) (x : Word) : (s.predelay u x).2.status = s.status := by dsimp only [State.predelay, State.setDL]
@[simp] theorem State.predelay_snd_fs64 (u : Fin 18) (x : Word) : (s.predelay u x).2.fs64 = s.fs64 := by dsimp only [State.predelay, State.setDL]
@[simp] theorem State.predelay_snd_fs (u : Fin 18) (x : Word) : (s.predelay u x).2.fs = s.fs := by dsimp only [State.predelay, State.setDL]
@[simp] theorem State.predelay_snd_fsr (u : Fin 18) (x : Word) : (s.predelay u x).2.fsr = s.fsr := by dsimp only [State.predelay, State.setDL]
@[simp] theorem State.predelay_snd_maxBlock (u : Fin 18) (x : Word) : (s.predelay u x).2.maxBlock = s.maxBlock := by dsimp only [State.predelay, State.setDL]
@[simp] theorem State.predelay_snd_nch (u : Fin 18) (x : Word) : (s.predelay u x).2.nch = s.nch := by dsimp only [State.predelay, State.setDL]
@[simp] theorem State.predelay_snd_xfAlpha (u : Fin 18) (x : Word) : (s.predelay u x).2.xfAlpha = s.xfAlpha := by dsimp only [State.predelay, State.setDL]
@[simp] theorem State.predelay_snd_smN (u : Fin 18) (x : Word) : (s.predelay u x).2.smN = s.smN := by dsimp only [State.predelay, State.setDL]
@[simp] theorem State.predelay_snd_prm (u : Fin 18) (x : Word) : (s.predelay u x).2.prm = s.prm := by dsimp only [State.predelay, State.setDL]
@[simp] theorem State.predelay_snd_apG (u : Fin 18) (x : Word) : (s.predelay u x).2.apG = s.apG := by dsimp only [State.predelay, State.setDL]
@[simp] theorem State.predelay_snd_lp (u : Fin 18) (x : Word) : (s.predelay u x).2.lp = s.lp := by dsimp only [State.predelay, State.setDL]
@[simp] theorem State.predelay_snd_lfo (u : Fin 18) (x : Word) : (s.predelay u x).2.lfo = s.lfo := by dsimp only [State.predelay, State.setDL]
@[simp] theorem State.predelay_snd_fdn (u : Fin 18) (x : Word) : (s.predelay u x).2.fdn = s.fdn := by dsimp only [State.predelay, State.setDL]
@[simp] theorem State.predelay_snd_sm (u : Fin 18) (x : Word) : (s.predelay u x).2.sm = s.sm := by dsimp only [State.predelay, State.setDL]
@[simp] theorem State.predelay_snd_n (u : Fin 18) (x : Word) : (s.predelay u x).2.n = s.n := by dsimp only [State.predelay, State.setDL]
@[simp] theorem State.predelay_snd_buf (u : Fin 18) (x : Word) : (s.predelay u x).2.buf = s.buf := by dsimp only [State.predelay, State.setDL]
@[simp] theorem State.predelay_snd_cmd (u : Fin 18) (x : Word) : (s.predelay u x).2.cmd = s.cmd := by dsimp only [State.predelay, State.setDL]
@[simp] theorem State.predelay_snd_draws (u : Fin 18) (x : Word) : (s.predelay u x).2.draws = s.draws := by dsimp only [State.predelay, State.setDL]

@[simp] theorem State.lowpass_snd_res (f : Fin 10) (x : Word) : (s.lowpass f x).2.res = s.res := by dsimp only [State.lowpass, State.setLP]
@[simp] theorem State.lowpass_snd_status (f : Fin 10) (x : Word) : (s.lowpass f x).2.status = s.status := by dsimp only [State.lowpass, State.setLP]
@[simp] theorem State.lowpass_snd_fs64 (f : Fin 10) (x : Word) : (s.lowpass f x).2.fs64 = s.fs64 := by dsimp only [State.lowpass, State.setLP]
@[simp] theorem State.lowpass_snd_fs (f : Fin 10) (x : Word) : (s.lowpass f x).2.fs = s.fs := by dsimp only [State.lowpass, State.setLP]
@[simp] theorem State.lowpass_snd_fsr (f : Fin 10) (x : Word) : (s.lowpass f x).2.fsr = s.fsr := by dsimp only [State.lowpass, State.setLP]
@[simp] theorem State.lowpass_snd_maxBlock (f : Fin 10) (x : Word) : (s.lowpass f x).2.maxBlock = s.maxBlock := by dsimp only [State.lowpass, State.setLP]
@[simp] theorem State.lowpass_snd_nch (f : Fin 10) (x : Word) : (s.lowpass f x).2.nch = s.nch := by dsimp only [State.lowpass, State.setLP]
@[simp] theorem State.lowpass_snd_xfAlpha (f : Fin 10) (x : Word) : (s.lowpass f x).2.xfAlpha = s.xfAlpha := by dsimp only [State.lowpass, State.setLP]
@[simp] theorem State.lowpass_snd_smN (f : Fin 10) (x : Word) : (s.lowpass f x).2.smN = s.smN := by dsimp only [State.lowpass, State.setLP]
@[simp] theorem State.lowpass_snd_prm (f : Fin 10) (x : Word) : (s.lowpass f x).2.prm = s.prm := by dsimp only [State.lowpass, State.setLP]
@[simp] theorem State.lowpass_snd_dl (f : Fin 10) (x : Word) : (s.lowpass f x).2.dl = s.dl := by dsimp only [State.lowpass, State.setLP]
@[simp] theorem State.lowpass_snd_apG (f : Fin 10) (x : Word) : (s.lowpass f x).2.apG = s.apG := by dsimp only [State.lowpass, State.setLP]
@[simp] theorem State.lowpass_snd_lfo (f : Fin 10) (x : Word) : (s.lowpass f x).2.lfo = s.lfo := by dsimp only [State.lowpass, State.setLP]
@[simp] theorem State.lowpass_snd_fdn (f : Fin 10) (x : Word) : (s.lowpass f x).2.fdn = s.fdn := by dsimp only [State.lowpass, State.setLP]
@[simp] theorem State.lowpass_snd_sm (f : Fin 10) (x : Word) : (s.lowpass f x).2.sm = s.sm := by dsimp only [State.lowpass, State.setLP]
@[simp] theorem State.lowpass_snd_n (f : Fin 10) (x : Word) : (s.lowpass f x).2.n = s.n := by dsimp only [State.lowpass, State.setLP]
@[simp] theorem State.lowpass_snd_buf (f : Fin 10) (x : Word) : (s.lowpass f x).2.buf = s.buf := by dsimp only [State.lowpass, State.setLP]
@[simp] theorem State.lowpass_snd_cmd (f : Fin 10) (x : Word) : (s.lowpass f x).2.cmd = s.cmd := by dsimp only [State.lowpass, State.setLP]
@[simp] theorem State.lowpass_snd_draws (f : Fin 10) (x : Word) : (s.lowpass f x).2.draws = s.draws := by dsimp only [State.lowpass, State.setLP]

@[simp] theorem State.smooth_snd_res (k : Fin 2) : (s.smooth k).2.res = s.res := by dsimp only [State.smooth, State.setSM]
@[simp] theorem State.smooth_snd_status (k : Fin 2) : (s.smooth k).2.status = s.status := by dsimp only [State.smooth, State.setSM]
@[simp] theorem State.smooth_snd_fs64 (k : Fin 2) : (s.smooth k).2.fs64 = s.fs64 := by dsimp only [State.smooth, State.setSM]
@[simp] theorem State.smooth_snd_fs (k : Fin 2) : (s.smooth k).2.fs = s.fs := by dsimp only [State.smooth, State.setSM]
@[simp] theorem State.smooth_snd_fsr (k : Fin 2) : (s.smooth k).2.fsr = s.fsr := by dsimp only [State.smooth, State.setSM]
@[simp] theorem State.smooth_snd_maxBlock (k : Fin 2) : (s.smooth k).2.maxBlock = s.maxBlock := by dsimp only [State.smooth, State.setSM]
@[simp] theorem State.smooth_snd_nch (k : Fin 2) : (s.smooth k).2.nch = s.nch := by dsimp only [State.smooth, State.setSM]
@[simp] theorem State.smooth_snd_xfAlpha (k : Fin 2) : (s.smooth k).2.xfAlpha = s.xfAlpha := by dsimp only [State.smooth, State.setSM]
@[simp] theorem State.smooth_snd_smN (k : Fin 2) : (s.smooth k).2.smN = s.smN := by dsimp only [State.smooth, State.setSM]
@[simp] theorem State.smooth_snd_prm (k : Fin 2) : (s.smooth k).2.prm = s.prm := by dsimp only [State.smooth, State.setSM]
@[simp] theorem State.smooth_snd_dl (k : Fin 2) : (s.smooth k).2.dl = s.dl := by dsimp only [State.smooth, State.setSM]
@[simp] theorem State.smooth_snd_apG (k : Fin 2) : (s.smooth k).2.apG = s.apG := by dsimp only [State.smooth, State.setSM]
@[simp] theorem State.smooth_snd_lp (k : Fin 2) : (s.smooth k).2.lp = s.lp := by dsimp only [State.smooth, State.setSM]
@[simp] theorem State.smooth_snd_lfo (k : Fin 2) : (s.smooth k).2.lfo = s.lfo := by dsimp only [State.smooth, State.setSM]
@[simp] theorem State.smooth_snd_fdn (k : Fin 2) : (s.smooth k).2.fdn = s.fdn := by dsimp only [State.smooth, State.setSM]
@[simp] theorem State.smooth_snd_n (k : Fin 2) : (s.smooth k).2.n = s.n := by dsimp only [State.smooth, State.setSM]
@[simp] theorem State.smooth_snd_buf (k : Fin 2) : (s.smooth k).2.buf = s.buf := by dsimp only [State.smooth, State.setSM]
@[simp] theorem State.smooth_snd_cmd (k : Fin 2) : (s.smooth k).2.cmd = s.cmd := by dsimp only [State.smooth, State.setSM]
@[simp] theorem State.smooth_snd_draws (k : Fin 2) : (s.smooth k).2.draws = s.draws := by dsimp only [State.smooth, State.setSM]

@[simp] theorem State.tick_fst (c : Cfg) (x : Word) : (s.tick c x).1 = s.tickReads c := rfl
@[simp] theorem State.tick_snd (c : Cfg) (x : Word) : (s.tick c x).2 = s.tickState c x := rfl

@[simp] theorem State.diffuse_snd_res (l : List (Fin 8)) (x : Word) : (s.diffuse l x).2.res = s.res := by
  induction l generalizing s x with
  | nil => rfl
  | cons a t ih => rw [State.diffuse, ih, State.allpass_snd_res]
@[simp] theorem State.diffuse_snd_status (l : List (Fin 8)) (x : Word) : (s.diffuse l x).2.status = s.status := by
  induction l generalizing s x with
  | nil => rfl
  | cons a t ih => rw [State.diffuse, ih, State.allpass_snd_status]
@[simp] theorem State.diffuse_snd_fs64 (l : List (Fin 8)) (x : Word) : (s.diffuse l x).2.fs64 = s.fs64 := by
  induction l generalizing s x with
  | nil => rfl
  | cons a t ih => rw [State.diffuse, ih, State.allpass_snd_fs64]
@[simp] theorem State.diffuse_snd_fs (l : List (Fin 8)) (x : Word) : (s.diffuse l x).2.fs = s.fs := by
  induction l generalizing s x with
  | nil => rfl
  | cons a t ih => rw [State.diffuse, ih, State.allpass_snd_fs]
@[simp] theorem State.diffuse_snd_fsr (l : List (Fin 8)) (x : Word) : (s.diffuse l x).2.fsr = s.fsr := by
  induction l generalizing s x with
  | nil => rfl
  | cons a t ih => rw [State.diffuse, ih, State.allpass_snd_fsr]
@[simp] theorem State.diffuse_snd_maxBlock (l : List (Fin 8)) (x : Word) : (s.diffuse l x).2.maxBlock = s.maxBlock := by
  induction l generalizing s x with
  | nil => rfl
  | cons a t ih => rw [State.diffuse, ih, State.allpass_snd_maxBlock]
@[simp] theorem State.diffuse_snd_nch (l : List (Fin 8)) (x : Word) : (s.diffuse l x).2.nch = s.nch := by
  induction l generalizing s x with
  | nil => rfl
  | cons a t ih => rw [State.diffuse, ih, State.allpass_snd_nch]
@[simp] theorem State.diffuse_snd_xfAlpha (l : List (Fin 8)) (x : Word) : (s.diffuse l x).2.xfAlpha = s.xfAlpha := by
  induction l generalizing s x with
  | nil => rfl
  | cons a t ih => rw [State.diffuse, ih, State.allpass_snd_xfAlpha]
@[simp] theorem State.diffuse_snd_smN (l : List (Fin 8)) (x : Word) : (s.diffuse l x).2.smN = s.smN := by
  induction l generalizing s x with
  | nil => rfl
  | cons a t ih => rw [State.diffuse, ih, State.allpass_snd_smN]
@[simp] theorem State.diffuse_snd_prm (l : List (Fin 8)) (x : Word) : (s.diffuse l x).2.prm = s.prm := by
  induction l generalizing s x with
  | nil => rfl
  | cons a t ih => rw [State.diffuse, ih, State.allpass_snd_prm]
@[simp] theorem State.diffuse_snd_apG (l : List (Fin 8)) (x : Word) : (s.diffuse l x).2.apG = s.apG := by
  induction l generalizing s x with
  | nil => rfl
  | cons a t ih => rw [State.diffuse, ih, State.allpass_snd_apG]
@[simp] theorem State.diffuse_snd_lp (l : List (Fin 8)) (x : Word) : (s.diffuse l x).2.lp = s.lp := by
  induction l generalizing s x with
  | nil => rfl
  | cons a t ih => rw [State.diffuse, ih, State.allpass_snd_lp]
@[simp] theorem State.diffuse_snd_lfo (l : List (Fin 8)) (x : Word) : (s.diffuse l x).2.lfo = s.lfo := by
  induction l generalizing s x with
  | nil => rfl
  | cons a t ih => rw [State.diffuse, ih, State.allpass_snd_lfo]
@[simp] theorem State.diffuse_snd_fdn (l : List (Fin 8)) (x : Word) : (s.diffuse l x).2.fdn = s.fdn := by
  induction l generalizing s x with
  | nil => rfl
  | cons a t ih => rw [State.diffuse, ih, State.allpass_snd_fdn]
@[simp] theorem State.diffuse_snd_sm (l : List (Fin 8)) (x : Word) : (s.diffuse l x).2.sm = s.sm := by
  induction l generalizing s x with
  | nil => rfl
  | cons a t ih => rw [State.diffuse, ih, State.allpass_snd_sm]
@[simp] theorem State.diffuse_snd_n (l : List (Fin 8)) (x : Word) : (s.diffuse l x).2.n = s.n := by
  induction l generalizing s x with
  | nil => rfl
  | cons a t ih => rw [State.diffuse, ih, State.allpass_snd_n]
@[simp] theorem State.diffuse_snd_buf (l : List (Fin 8)) (x : Word) : (s.diffuse l x).2.buf = s.buf := by
  induction l generalizing s x with
  | nil => rfl
  | cons a t ih => rw [State.diffuse, ih, State.allpass_snd_buf]
@[simp] theorem State.diffuse_snd_cmd (l : List (Fin 8)) (x : Word) : (s.diffuse l x).2.cmd = s.cmd := by
  induction l generalizing s x with
  | nil => rfl
  | cons a t ih => rw [State.diffuse, ih, State.allpass_snd_cmd]
@[simp] theorem State.diffuse_snd_draws (l : List (Fin 8)) (x : Word) : (s.diffuse l x).2.draws = s.draws := by
  induction l generalizing s x with
  | nil => rfl
  | cons a t ih => rw [State.diffuse, ih, State.allpass_snd_draws]

@[simp] theorem State.sample_res (c : Cfg) (nch m : Nat) : (State.sample c nch m s).res = s.res := by
  simp [State.sample, State.network, State.wetPair]
@[simp] theorem State.sample_status (c : Cfg) (nch m : Nat) : (State.sample c nch m s).status = s.status := by
  simp [State.sample, State.network, State.wetPair]
@[simp] theorem State.sample_fs64 (c : Cfg) (nch m : Nat) : (State.sample c nch m s).fs64 = s.fs64 := by
  simp [State.sample, State.network, State.wetPair]
@[simp] theorem State.sample_fs (c : Cfg) (nch m : Nat) : (State.sample c nch m s).fs = s.fs := by
  simp [State.sample, State.network, State.wetPair]
@[simp] theorem State.sample_fsr (c : Cfg) (nch m : Nat) : (State.sample c nch m s).fsr = s.fsr := by
  simp [State.sample, State.network, State.wetPair]
@[simp] theorem State.sample_maxBlock (c : Cfg) (nch m : Nat) : (State.sample c nch m s).maxBlock = s.maxBlock := by
  simp [State.sample, State.network, State.wetPair]
@[simp] theorem State.sample_nch (c : Cfg) (nch m : Nat) : (State.sample c nch m s).nch = s.nch := by
  simp [State.sample, State.network, State.wetPair]
@[simp] theorem State.sample_xfAlpha (c : Cfg) (nch m : Nat) : (State.sample c nch m s).xfAlpha = s.xfAlpha := by
  simp [State.sample, State.network, State.wetPair]
@[simp] theorem State.sample_smN (c : Cfg) (nch m : Nat) : (State.sample c nch m s).smN = s.smN := by
  simp [State.sample, State.network, State.wetPair]
@[simp] theorem State.sample_prm (c : Cfg) (nch m : Nat) : (State.sample c nch m s).prm = s.prm := by
  simp [State.sample, State.network, State.wetPair]
@[simp] theorem State.sample_apG (c : Cfg) (nch m : Nat) : (State.sample c nch m s).apG = s.apG := by
  simp [State.sample, State.network, State.wetPair]
@[simp] theorem State.sample_n (c : Cfg) (nch m : Nat) : (State.sample c nch m s).n = s.n := by
  simp [State.sample, State.network, State.wetPair]
@[simp] theorem State.sample_cmd (c : Cfg) (nch m : Nat) : (State.sample c nch m s).cmd = s.cmd := by
  simp [State.sample, State.network, State.wetPair]
@[simp] theorem State.sample_draws (c : Cfg) (nch m : Nat) : (State.sample c nch m s).draws = s.draws := by
  simp [State.sample, State.network, State.wetPair]

/-- A sample changes none of the fields the loop itself keeps: every sample of a block leaves them. -/
theorem State.samples_keeps {α : Type} (f : State → α) (c : Cfg) (nch : Nat)
    (hs : ∀ m t, f (State.sample c nch m t) = f t) (ha : ∀ t : State, f t.advance = f t) (k : Nat) :
    f (State.samples c nch k s) = f s := by
  induction k generalizing s with
  | zero => rfl
  | succ k ih => rw [State.samples, ih, ha, hs]

end Sys2Proof.Machine
end

