-- ==== Sys2Proof/Laws/Engine.lean ====
section
/-! SUPPORT. What the snapshot application, one sample and a block of samples keep: a predicate that every procedure
they call keeps. -/

namespace Sys2Proof.Machine

set_option Elab.async false

/-- A predicate kept by each procedure of `applySnapshot` (R150) is kept by `applySnapshot`. -/
theorem State.applySnapshot_keeps {P : State → Prop} (c : Cfg)
    (hSeed : ∀ t, P t → P (t.seedAll c))
    (hPre : ∀ t pd, P t → P (t.setPredelay pd))
    (hDif : ∀ t g, P t → P (t.setDiffusion g))
    (hSize : ∀ t w, P t → P (t.setSize c w))
    (hRt : ∀ t w, P t → P (t.setRT60 c w))
    (hDamp : ∀ t w, P t → P (t.setDamp c w))
    (hMod : ∀ t r d, P t → P (t.setMod c r d))
    (hFrz : ∀ t on, P t → P (t.setFreeze on))
    (hCut : ∀ t f w, P t → P (t.setCutoff c f w))
    (hTgt : ∀ t k w, P t → P (t.setTarget k w))
    (hFin : ∀ t, P t → P t.finishFirst)
    (s : State) (h : P s) : P (s.applySnapshot c) := by
  unfold State.applySnapshot
  extract_lets s0 s1 s2 s3 s4 s5 s6 s7 s8 s9 s10
  have h0 : P s0 := by
    show P (if s.status.first then s.seedAll c else s)
    split
    · exact hSeed _ h
    · exact h
  have h10 : P s10 :=
    hTgt _ _ _ (hTgt _ _ _ (hCut _ _ _ (hCut _ _ _ (hFrz _ _ (hMod _ _ _ (hDamp _ _ (hRt _ _ (hSize _ _
      (hDif _ _ (hPre _ _ h0))))))))))
  split
  · exact hFin _ h10
  · exact h10

/-- A predicate kept by each procedure of one sample (R152 to R160) is kept by the sample. -/
theorem State.sample_keeps {P : State → Prop} (c : Cfg)
    (hPre : ∀ t u x, u.val < 2 → P t → P (t.predelay u x).2)
    (hAll : ∀ t a x, P t → P (t.allpass a x).2)
    (hTick : ∀ t x, P t → P (t.tickState c x))
    (hSm : ∀ t k, P t → P (t.smooth k).2)
    (hLp : ∀ t f x, P t → P (t.lowpass f x).2)
    (hWb : ∀ t nch n l r, P t → P (t.writeBack c nch n l r))
    (nch n : Nat) (s : State) (h : P s) : P (State.sample c nch n s) := by
  have hDif : ∀ (l : List (Fin 8)) t x, P t → P (State.diffuse t l x).2 := by
    intro l
    induction l with
    | nil => intro t x ht; exact ht
    | cons a l ih => intro t x ht; exact ih _ _ (hAll _ _ _ ht)
  have hNet : ∀ t a b, P t → P (t.network c a b).2.2.2 := fun t a b ht =>
    hTick _ _ (hDif _ _ _ (hDif _ _ _ (hPre _ _ _ (by decide) (hPre _ _ _ (by decide) ht))))
  have hWet : ∀ t a b r, P t → P (t.wetPair c a b r).2.2 := fun t a b r ht =>
    hLp _ _ _ (hLp _ _ _ (hSm _ _ ht))
  exact hWb _ _ _ _ _ (hSm _ _ (hWet _ _ _ _ (hNet _ _ _ h)))

/-- A predicate kept by a sample and by the advance of the counter is kept by a block. -/
theorem State.samples_keep {P : State → Prop} (c : Cfg) (nch : Nat) (hS : ∀ n t, P t → P (State.sample c nch n t))
    (hA : ∀ t : State, P t → P t.advance) (k : Nat) (s : State) (h : P s) : P (State.samples c nch k s) := by
  induction k generalizing s with
  | zero => exact h
  | succ k ih => exact ih _ (hA _ (hS _ _ h))

/-- Both predelay reads see the lines before either push (R153). -/
theorem State.predelay_pair (s : State) (inL inR : Word) :
    (s.predelay 0 inL).2.predelay 1 inR
      = (s.dl[1].readLinear (floatOf s.dl[1].base) posZero,
        (s.setDL 0 (s.dl[0].push inL)).setDL 1 (s.dl[1].push inR)) := by
  have h : (s.setDL 0 (s.dl[(0 : Fin 18)].push inL)).dl[(1 : Fin 18)] = s.dl[(1 : Fin 18)] :=
    get_set_other s.dl (i := 0) (j := 1) (by decide) _
  simp only [State.predelay]
  rw [h]
  rfl

/-- The write-back of R160 in terms of an earlier state with the same buffer, block size and draw counter. -/
theorem State.writeBack_eq (c : Cfg) {s t : State} (nch n : Nat) (l r : Word) (hb : t.buf = s.buf)
    (hm : t.maxBlock = s.maxBlock) (hd : t.draws = s.draws) :
    t.writeBack c nch n l r = { t with
      buf :=
        if nch = 2 then
          memWrite (memWrite s.buf (c.bufAddr s.maxBlock.toNat nch 0 n) (sealNaN s.draws (.buf 0) l))
            (c.bufAddr s.maxBlock.toNat nch 1 n) (sealNaN s.draws (.buf 1) r)
        else memWrite s.buf (c.bufAddr s.maxBlock.toNat nch 0 n) (sealNaN s.draws (.buf 0) l) } := by
  unfold State.writeBack State.bufIndex
  rw [hb, hm, hd]

end Sys2Proof.Machine
end

