-- ==== Sys2Proof/Laws/Memory.lean ====
section
/-! SUPPORT. What a word memory does: a read after a write, the canonical form, and bounds on listed indexes. -/

namespace Sys2Proof.Machine

set_option Elab.async false

@[simp] theorem memRead_nil (a : Nat) : memRead [] a = memUnlisted := rfl

theorem memWfFrom_mono {lo lo' : Nat} (h : lo' ≤ lo) {m : Mem} (hm : memWfFrom lo m = true) :
    memWfFrom lo' m = true := by
  cases m with
  | nil => rfl
  | cons p t =>
    simp only [memWfFrom, Bool.and_eq_true, decide_eq_true_eq] at hm ⊢
    exact ⟨⟨by omega, hm.1.2⟩, hm.2⟩

/-- A canonical memory whose indexes start at `lo` lists nothing below `lo`. -/
theorem memRead_below {lo a : Nat} (h : a < lo) {m : Mem} (hm : memWfFrom lo m = true) :
    memRead m a = memUnlisted := by
  induction m generalizing lo with
  | nil => rfl
  | cons p t ih =>
    simp only [memWfFrom, Bool.and_eq_true, decide_eq_true_eq] at hm
    simp only [memRead]
    rw [if_neg (by omega)]
    exact ih (by omega) hm.2

/-- Read after write, at the same index. -/
theorem memRead_memWrite_same {lo : Nat} {m : Mem} (hm : memWfFrom lo m = true) (a : Nat) (v : Word) :
    memRead (memWrite m a v) a = v := by
  induction m generalizing lo with
  | nil => by_cases hv : v = memUnlisted <;> simp [memWrite, memRead, hv]
  | cons p t ih =>
    obtain ⟨b, x⟩ := p
    simp only [memWfFrom, Bool.and_eq_true, decide_eq_true_eq] at hm
    simp only [memWrite]
    split
    · by_cases hv : v = memUnlisted
      · rw [if_pos hv, hv, memRead, if_neg (by omega)]
        exact memRead_below (by omega) hm.2
      · simp [hv, memRead]
    · split
      · next h =>
        subst h
        by_cases hv : v = memUnlisted
        · rw [if_pos hv, hv]
          exact memRead_below (Nat.lt_succ_self a) hm.2
        · simp [hv, memRead]
      · rw [memRead, if_neg (by assumption)]
        exact ih hm.2

/-- A write leaves every other index alone. -/
theorem memRead_memWrite_other (m : Mem) {a b : Nat} (h : b ≠ a) (v : Word) :
    memRead (memWrite m a v) b = memRead m b := by
  induction m with
  | nil => by_cases hv : v = memUnlisted <;> simp [memWrite, memRead, hv, h]
  | cons p t ih =>
    obtain ⟨c, x⟩ := p
    simp only [memWrite]
    split
    · by_cases hv : v = memUnlisted
      · simp [hv]
      · simp [hv, memRead, h]
    · split
      · next hc =>
        subst hc
        by_cases hv : v = memUnlisted <;> simp [hv, memRead, h]
      · simp only [memRead]
        split
        · rfl
        · exact ih

/-- A write keeps the canonical form. -/
theorem memWfFrom_memWrite {lo : Nat} {m : Mem} (hm : memWfFrom lo m = true) {a : Nat} (ha : lo ≤ a)
    (v : Word) : memWfFrom lo (memWrite m a v) = true := by
  induction m generalizing lo with
  | nil =>
    by_cases hv : v = memUnlisted
    · simp [memWrite, hv, memWfFrom]
    · simp [memWrite, hv, memWfFrom, ha]
  | cons p t ih =>
    obtain ⟨b, x⟩ := p
    simp only [memWfFrom, Bool.and_eq_true, decide_eq_true_eq] at hm
    simp only [memWrite]
    split
    · next hab =>
      by_cases hv : v = memUnlisted
      · simp [hv, memWfFrom, hm]
      · simp only [hv, if_false, memWfFrom, Bool.and_eq_true, decide_eq_true_eq]
        exact ⟨⟨ha, by simpa using hv⟩, ⟨by omega, hm.1.2⟩, hm.2⟩
    · split
      · next hab =>
        subst hab
        by_cases hv : v = memUnlisted
        · simp only [hv, if_true]
          exact memWfFrom_mono (by omega) hm.2
        · simp [hv, memWfFrom, hm]
      · simp only [memWfFrom, Bool.and_eq_true, decide_eq_true_eq]
        exact ⟨hm.1, ih hm.2 (by omega)⟩

/-- Every memory operation keeps the canonical form. -/
theorem Memory.wf_memWrite {m : Mem} (hm : Memory.wf m = true) (a : Nat) (v : Word) :
    Memory.wf (memWrite m a v) = true := memWfFrom_memWrite hm (Nat.zero_le a) v

@[simp] theorem Memory.wf_nil : Memory.wf [] = true := rfl

/-- Read after write in a canonical memory. -/
theorem memRead_memWrite {m : Mem} (hm : Memory.wf m = true) (a b : Nat) (v : Word) :
    memRead (memWrite m a v) b = if b = a then v else memRead m b := by
  split
  · next h => subst h; exact memRead_memWrite_same hm b v
  · next h => exact memRead_memWrite_other m h v

/-- Two canonical memories that read alike everywhere are equal. -/
theorem mem_ext {lo : Nat} {m m' : Mem} (hm : memWfFrom lo m = true) (hm' : memWfFrom lo m' = true)
    (h : ∀ a, memRead m a = memRead m' a) : m = m' := by
  induction m generalizing lo m' with
  | nil =>
    cases m' with
    | nil => rfl
    | cons p t =>
      simp only [memWfFrom, Bool.and_eq_true, decide_eq_true_eq, bne_iff_ne] at hm'
      have := h p.1
      simp [memRead] at this
      exact absurd this.symm hm'.1.2
  | cons p t ih =>
    obtain ⟨a, v⟩ := p
    cases m' with
    | nil =>
      simp only [memWfFrom, Bool.and_eq_true, decide_eq_true_eq, bne_iff_ne] at hm
      have := h a
      simp [memRead] at this
      exact absurd this hm.1.2
    | cons q t' =>
      obtain ⟨b, w⟩ := q
      simp only [memWfFrom, Bool.and_eq_true, decide_eq_true_eq, bne_iff_ne] at hm hm'
      have hab : a = b := by
        rcases Nat.lt_trichotomy a b with hlt | heq | hlt
        · have := h a
          rw [memRead, if_pos rfl, memRead, if_neg (by omega), memRead_below (by omega) hm'.2] at this
          exact absurd this hm.1.2
        · exact heq
        · have := h b
          rw [memRead, if_neg (by omega), memRead_below (by omega) hm.2, memRead, if_pos rfl] at this
          exact absurd this.symm hm'.1.2
      subst hab
      have hvw : v = w := by simpa [memRead] using h a
      subst hvw
      rw [ih hm.2 hm'.2]
      intro c
      by_cases hc : c = a
      · subst hc
        rw [memRead_below (Nat.lt_succ_self c) hm.2, memRead_below (Nat.lt_succ_self c) hm'.2]
      · simpa [memRead, hc] using h c

/-- A write below a bound keeps every listed index below it. -/
theorem memBelow_memWrite {bound : Nat} {m : Mem} (hm : memBelow bound m = true) {a : Nat} (ha : a < bound)
    (v : Word) : memBelow bound (memWrite m a v) = true := by
  induction m with
  | nil => by_cases hv : v = memUnlisted <;> simp [memWrite, memBelow, hv, ha]
  | cons p t ih =>
    obtain ⟨b, x⟩ := p
    simp only [memBelow, List.all_cons, Bool.and_eq_true, decide_eq_true_eq] at hm ih ⊢
    simp only [memWrite]
    split
    · by_cases hv : v = memUnlisted
      · simp [hv, hm.1, hm.2]
      · simp [hv, ha, hm.1, hm.2]
    · split
      · by_cases hv : v = memUnlisted
        · simp [hv, hm.2]
        · simp [hv, hm.1, hm.2]
      · simp [hm.1, ih hm.2]

@[simp] theorem memBelow_nil (bound : Nat) : memBelow bound [] = true := rfl

end Sys2Proof.Machine
end

