-- ==== Sys2Proof/Laws/PerInstr.lean ====
section
/-! SUPPORT. Facts about every command as syntax, one lemma a constructor. Family `CommandWords`: the operand words
are as many as the row's length says (spec/30_encoding.md R73), and the row rebuilds the command from its fields. -/

namespace Sys2Proof.Laws.CommandWords

set_option Elab.async false

/-- What the family says of a command: the length of its operand list, and that its row rebuilds it. -/
def Statement (i : Instr) : Prop :=
  i.operands.length + 1 = i.op.len ∧ buildInstr i.op i.unitField i.immField i.operands = some i

theorem eprep (nch : Nat) (a b c : Word) : Statement (.eprep nch a b c) := ⟨rfl, rfl⟩
theorem erst : Statement (.erst) := ⟨rfl, rfl⟩
theorem esetp (p : Vector Word 13) : Statement (.esetp p) := by
  obtain ⟨⟨l⟩, h⟩ := p
  match l, h with
  | [_, _, _, _, _, _, _, _, _, _, _, _, _], _ => exact ⟨rfl, rfl⟩
theorem eproc (nch : Nat) (n : Word) : Statement (.eproc nch n) := ⟨rfl, rfl⟩
theorem dlprep (u : Nat) (x : Word) : Statement (.dlprep u x) := ⟨rfl, rfl⟩
theorem dlrst (u : Nat) : Statement (.dlrst u) := ⟨rfl, rfl⟩
theorem dlsetd (u : Nat) (x : Word) : Statement (.dlsetd u x) := ⟨rfl, rfl⟩
theorem dlpush (u : Nat) (x : Word) : Statement (.dlpush u x) := ⟨rfl, rfl⟩
theorem dlrdlin (u : Nat) (d m : Word) : Statement (.dlrdlin u d m) := ⟨rfl, rfl⟩
theorem dlrdlag (u : Nat) (d m : Word) : Statement (.dlrdlag u d m) := ⟨rfl, rfl⟩
theorem dlproc (u : Nat) (mode : Bool) (x d m : Word) : Statement (.dlproc u mode x d m) := by
  cases mode <;> exact ⟨rfl, rfl⟩
theorem apprep (u : Nat) (x : Word) : Statement (.apprep u x) := ⟨rfl, rfl⟩
theorem aprst (u : Nat) : Statement (.aprst u) := ⟨rfl, rfl⟩
theorem apsetg (u : Nat) (x : Word) : Statement (.apsetg u x) := ⟨rfl, rfl⟩
theorem approc (u : Nat) (x : Word) : Statement (.approc u x) := ⟨rfl, rfl⟩
theorem lprst (u : Nat) : Statement (.lprst u) := ⟨rfl, rfl⟩
theorem lpsetc (u : Nat) (x : Word) : Statement (.lpsetc u x) := ⟨rfl, rfl⟩
theorem lpproc (u : Nat) (x : Word) : Statement (.lpproc u x) := ⟨rfl, rfl⟩
theorem lfoseed (u : Nat) (x : Word) : Statement (.lfoseed u x) := ⟨rfl, rfl⟩
theorem lfosetr (u : Nat) (x : Word) : Statement (.lfosetr u x) := ⟨rfl, rfl⟩
theorem lfosetd (u : Nat) (x : Word) : Statement (.lfosetd u x) := ⟨rfl, rfl⟩
theorem lfonext (u : Nat) : Statement (.lfonext u) := ⟨rfl, rfl⟩
theorem fsetsize (x : Word) : Statement (.fsetsize x) := ⟨rfl, rfl⟩
theorem fsetrt60 (x : Word) : Statement (.fsetrt60 x) := ⟨rfl, rfl⟩
theorem fsetdamp (x : Word) : Statement (.fsetdamp x) := ⟨rfl, rfl⟩
theorem fsetmod (r d : Word) : Statement (.fsetmod r d) := ⟨rfl, rfl⟩
theorem fsetfrz (on : Bool) : Statement (.fsetfrz on) := by
  cases on <;> exact ⟨rfl, rfl⟩
theorem ftick (x : Word) : Statement (.ftick x) := ⟨rfl, rfl⟩
theorem fmix (v : Vector Word 8) (w : Word) : Statement (.fmix v w) := by
  obtain ⟨⟨l⟩, h⟩ := v
  match l, h with
  | [_, _, _, _, _, _, _, _], _ => exact ⟨rfl, rfl⟩
theorem smset (u : Nat) (x : Word) : Statement (.smset u x) := ⟨rfl, rfl⟩
theorem smnext (u : Nat) : Statement (.smnext u) := ⟨rfl, rfl⟩
theorem smsnap (u : Nat) : Statement (.smsnap u) := ⟨rfl, rfl⟩

end Sys2Proof.Laws.CommandWords
end

