-- ==== Sys2Proof/Machine/Assembler.lean ====
section
/-! DEFINITION. The textual syntax of commands (spec/30_encoding.md R77, R78): a line of text to the words it stands
for. The core sees words only; this is how the spec's own programs are read. R77 says nothing of a literal's sign or
exponent: a leading minus is read as the sign, as spec/95_test_vectors.md V11 writes it, and an exponent is not read
(DEDUCED, log 20). -/

namespace Sys2Proof.Machine.Asm

open Sys2Proof Sys2Proof.Machine

/-! ## Characters -/

/-- A blank inside a line. -/
def isBlank (c : Char) : Bool := c == ' ' || c == '\t' || c == '\r'

/-- The value of a decimal digit. -/
def digitOf (c : Char) : Option Nat :=
  if '0'.toNat ≤ c.toNat ∧ c.toNat ≤ '9'.toNat then some (c.toNat - '0'.toNat) else none

/-- The value of a hexadecimal digit. -/
def hexDigitOf (c : Char) : Option Nat :=
  if 'a'.toNat ≤ c.toNat ∧ c.toNat ≤ 'f'.toNat then some (c.toNat - 'a'.toNat + 10)
  else if 'A'.toNat ≤ c.toNat ∧ c.toNat ≤ 'F'.toNat then some (c.toNat - 'A'.toNat + 10)
  else digitOf c

/-- Blanks removed at both ends. -/
def trim (t : List Char) : List Char := ((t.dropWhile isBlank).reverse.dropWhile isBlank).reverse

/-- The pieces of a text between separators. -/
def splitAt (sep : Char) : List Char → List (List Char)
  | [] => [[]]
  | c :: t =>
    if c == sep then [] :: splitAt sep t
    else
      match splitAt sep t with
      | [] => [[c]]
      | p :: ps => (c :: p) :: ps

/-! ## Numbers -/

/-- The digits of a number in a base, from a first value on; none when a character is no digit. -/
def digitsValue (digit : Char → Option Nat) (base : Nat) : Nat → List Char → Option Nat
  | acc, [] => some acc
  | acc, c :: t =>
    match digit c with
    | some d => digitsValue digit base (acc * base + d) t
    | none => none

/-- A decimal integer of one digit or more. -/
def decimalInt (t : List Char) : Option Nat := if t.isEmpty then none else digitsValue digitOf 10 0 t

/-- The digits after `0x`. -/
def hexDigits : List Char → Option (List Char)
  | '0' :: 'x' :: t => some t
  | _ => none

/-- A decimal literal: its sign, its digits as an integer, and how many of them follow the point. -/
structure Literal where
  neg : Bool
  digits : Nat
  places : Nat
  deriving DecidableEq, Repr

/-- The sign a literal starts with, and the rest. -/
def literalSign : List Char → Bool × List Char
  | c :: t => if c == '-' || c == '−' then (true, t) else (false, c :: t)
  | [] => (false, [])

/-- A decimal literal: digits, and optionally a point with digits after it. -/
def decimalLiteral (t : List Char) : Option Literal :=
  let (neg, u) := literalSign t
  match splitAt '.' u with
  | [whole] => (decimalInt whole).map fun n => { neg := neg, digits := n, places := 0 }
  | [whole, frac] =>
    if whole.isEmpty || frac.isEmpty then none
    else (decimalInt (whole ++ frac)).map fun n => { neg := neg, digits := n, places := frac.length }
  | _ => none

/-- The literal's magnitude in units of 2^−(u + 1), kept with a sticky bit. -/
def Literal.scaled (l : Literal) (u : Nat) : Nat :=
  let n := l.digits * 2 ^ u
  sticky (n / 10 ^ l.places) (n % 10 ^ l.places != 0)

/-- The binary32 word nearest to the literal (R77: rounded to nearest even). -/
def Literal.toWord (l : Literal) : Word := roundTo l.neg (l.scaled 200) 201

/-- The magnitude pattern of the binary64 value nearest to n · 2^−u, for u ≥ 1074; as `roundMag` at binary64. -/
def roundMag64 (n u : Nat) : Nat :=
  let q := max (Nat.log2 n - 52) (u - 1074)
  min ((q - (u - 1074)) * 2 ^ 52 + divNearestEven n q) 0x7FF0000000000000

/-- The binary64 nearest to the literal (R77: the EPREP sample rate). -/
def Literal.toDWord (l : Literal) : DWord :=
  BitVec.ofNat 64 ((if l.neg then 2 ^ 63 else 0) + roundMag64 (l.scaled 1200) 1201)

/-! ## Fields (R77) -/

/-- What one comma-separated field of a line is. -/
inductive Field where
  /-- `UNIT`, a decimal integer -/
  | unit
  /-- `IMM16`, `#` and a decimal integer -/
  | imm
  /-- a binary32 operand -/
  | f32
  /-- a `uint32` operand -/
  | u32
  /-- the EPREP sample rate, two operand words -/
  | rate
  deriving DecidableEq, Repr

/-- The fields of a row's line: the used head fields, then the operand words with the types R73 gives them. -/
def fieldsOf : Op → List Field
  | .eprep => [.imm, .rate, .u32]
  | .erst => []
  | .esetp => List.replicate 11 .f32 ++ [.u32, .u32]
  | .eproc => [.imm, .u32]
  | .dlprep => [.unit, .u32]
  | .dlrst => [.unit]
  | .dlsetd => [.unit, .u32]
  | .dlpush => [.unit, .f32]
  | .dlrdlin => [.unit, .f32, .f32]
  | .dlrdlag => [.unit, .f32, .f32]
  | .dlproc => [.unit, .imm, .f32, .f32, .f32]
  | .apprep => [.unit, .u32]
  | .aprst => [.unit]
  | .apsetg => [.unit, .f32]
  | .approc => [.unit, .f32]
  | .lprst => [.unit]
  | .lpsetc => [.unit, .f32]
  | .lpproc => [.unit, .f32]
  | .lfoseed => [.unit, .u32]
  | .lfosetr => [.unit, .f32]
  | .lfosetd => [.unit, .f32]
  | .lfonext => [.unit]
  | .fsetsize => [.f32]
  | .fsetrt60 => [.f32]
  | .fsetdamp => [.f32]
  | .fsetmod => [.f32, .f32]
  | .fsetfrz => [.imm]
  | .ftick => [.f32]
  | .fmix => List.replicate 9 .f32
  | .smset => [.unit, .f32]
  | .smnext => [.unit]
  | .smsnap => [.unit]

/-- The mnemonic of a row (R73). -/
def nameOf : Op → String
  | .eprep => "EPREP" | .erst => "ERST" | .esetp => "ESETP" | .eproc => "EPROC"
  | .dlprep => "DLPREP" | .dlrst => "DLRST" | .dlsetd => "DLSETD" | .dlpush => "DLPUSH"
  | .dlrdlin => "DLRDLIN" | .dlrdlag => "DLRDLAG" | .dlproc => "DLPROC"
  | .apprep => "APPREP" | .aprst => "APRST" | .apsetg => "APSETG" | .approc => "APPROC"
  | .lprst => "LPRST" | .lpsetc => "LPSETC" | .lpproc => "LPPROC"
  | .lfoseed => "LFOSEED" | .lfosetr => "LFOSETR" | .lfosetd => "LFOSETD" | .lfonext => "LFONEXT"
  | .fsetsize => "FSETSIZE" | .fsetrt60 => "FSETRT60" | .fsetdamp => "FSETDAMP" | .fsetmod => "FSETMOD"
  | .fsetfrz => "FSETFRZ" | .ftick => "FTICK" | .fmix => "FMIX"
  | .smset => "SMSET" | .smnext => "SMNEXT" | .smsnap => "SMSNAP"

/-- The head fields and operand words read so far. -/
structure Parsed where
  unit : Nat
  imm : Nat
  words : List Word
  deriving DecidableEq, Repr

/-- A binary32 operand: eight hex digits are the word itself, anything else a decimal literal. -/
def f32Field (t : List Char) : Option Word :=
  match hexDigits t with
  | some ds => if ds.length = 8 then (digitsValue hexDigitOf 16 0 ds).map (BitVec.ofNat 32) else none
  | none => (decimalLiteral t).map Literal.toWord

/-- A `uint32` operand, in decimal or in hex. -/
def u32Field (t : List Char) : Option Word :=
  let n := match hexDigits t with
    | some ds => if ds.isEmpty then none else digitsValue hexDigitOf 16 0 ds
    | none => decimalInt t
  n.bind fun k => if k < 2 ^ 32 then some (BitVec.ofNat 32 k) else none

/-- An immediate: `#` and a decimal integer that fits the field. -/
def immField : List Char → Option Nat
  | '#' :: t => (decimalInt t).bind fun k => if k < 2 ^ 16 then some k else none
  | _ => none

/-- A unit index that fits the field. -/
def unitField (t : List Char) : Option Nat := (decimalInt t).bind fun k => if k < 2 ^ 8 then some k else none

/-- One field of a line, added to what was read before it. -/
def readField (p : Parsed) (t : List Char) : Field → Option Parsed
  | .unit => (unitField t).map fun u => { p with unit := u }
  | .imm => (immField t).map fun k => { p with imm := k }
  | .f32 => (f32Field t).map fun w => { p with words := p.words ++ [w] }
  | .u32 => (u32Field t).map fun w => { p with words := p.words ++ [w] }
  | .rate => (decimalLiteral t).map fun l =>
      { p with words := p.words ++ [l.toDWord.extractLsb 63 32, l.toDWord.extractLsb 31 0] }

/-- The fields of a line in order; none when there are too few or too many. -/
def readFields (p : Parsed) : List Field → List (List Char) → Option Parsed
  | [], [] => some p
  | f :: fs, t :: ts => (readField p (trim t) f).bind fun q => readFields q fs ts
  | [], _ :: _ => none
  | _ :: _, [] => none

/-! ## Lines and programs -/

/-- The row of a mnemonic, with the immediate a pseudo-command fixes (R78: there are four, and no others). -/
def rowOf (m : List Char) : Option (Op × Option Nat) :=
  if m = "FREEZE".toList then some (.fsetfrz, some 1)
  else if m = "UNFREEZE".toList then some (.fsetfrz, some 0)
  else if m = "DLPROCL".toList then some (.dlproc, some 0)
  else if m = "DLPROCC".toList then some (.dlproc, some 1)
  else (Op.all.find? fun o => m = (nameOf o).toList).map fun o => (o, none)

/-- The fields left to write when a pseudo-command has fixed the immediate. -/
def fieldsLeft (o : Op) (fixed : Option Nat) : List Field :=
  if fixed.isSome then (fieldsOf o).filter (· != .imm) else fieldsOf o

/-- The words of one line (R77): none for a line the syntax does not have, no words for an empty one. -/
def assembleLine (line : List Char) : Option (List Word) :=
  let text := trim (line.takeWhile (· != ';'))
  if text.isEmpty then some []
  else
    let name := text.takeWhile fun c => !isBlank c
    let rest := trim (text.drop name.length)
    let parts := if rest.isEmpty then [] else splitAt ',' rest
    (rowOf name).bind fun r =>
      (readFields { unit := 0, imm := r.2.getD 0, words := [] } (fieldsLeft r.1 r.2) parts).map fun p =>
        headWord r.1.code p.unit p.imm :: p.words

/-- The words of several lines, one after another. -/
def assembleLines : List (List Char) → Option (List Word)
  | [] => some []
  | l :: ls => (assembleLine l).bind fun ws => (assembleLines ls).map fun vs => ws ++ vs

/-- The words of a program text, one command a line (R77). -/
def assemble (text : String) : Option (List Word) := assembleLines (splitAt '\n' text.toList)

end Sys2Proof.Machine.Asm
end

