-- ==== Sys2Proof/Tests/Slice0.lean ====
section
/-! SUPPORT. The model's own tests. Expected words and values are those of spec/30_encoding.md and of the vectors and
programs of spec/95_test_vectors.md (named at each test), never the model's own answers. The second half holds, for
every obligation with hypotheses, a named witness that meets them. -/

namespace Sys2Proof.Tests

set_option Elab.async false

open Sys2Proof Sys2Proof.Machine

/-! ## Helpers -/

/-- A line of capacity 8 whose last pushes are 100, 81, 64, … (line A of V1). -/
def lineA : DelayLine where
  cap := 8
  w := 2
  base := 2
  ram := [(0, floatOf 81), (1, floatOf 100), (2, floatOf 9), (3, floatOf 16), (4, floatOf 25), (5, floatOf 36),
    (6, floatOf 49), (7, floatOf 64)]

/-- An empty line of capacity 8. -/
def lineZ : DelayLine := { cap := 8, w := 0, base := 2, ram := [] }

/-- A small prepared core at 48000 Hz with a snapshot delivered and not yet applied: every line has capacity 8, line 0
is line A, ramps take 4 samples. -/
def ready : State :=
  { State.reset with
    status := { prepared := true, pvalid := true, first := true, err := false, cause := .noFault }
    fs64 := 0x40E7700000000000#64
    fs := lit48000
    fsr := lit1
    maxBlock := 4
    nch := 2
    xfAlpha := 0x3991A000#32
    smN := 4
    dl := (Vector.replicate 18 lineZ).set 0 lineA
    fdn := { Fdn.reset with scale := lit1, rt60 := lit1 } }

/-- The same core, its snapshot applied. -/
def applied : State := { ready with status := { ready.status with first := false } }

/-- What the command leaves, if it answers a next state. -/
def after (i : Instr) (s : State) : Option State :=
  match exec i s with
  | .next t => some t
  | _ => none

/-- What a step leaves, if it answers a next state. -/
def stepped (s : State) : Option State :=
  match step s with
  | .next t => some t
  | _ => none

/-- `RES[0]` after the command. -/
def res0 (i : Instr) (s : State) : Option Word := (after i s).map (·.res[0])

/-- `STATUS` after the command. -/
def statusAfter (i : Instr) (s : State) : Option Word := (after i s).map (·.status.word)

/-! ## Well-formedness: an ill-formed term for each check -/

theorem test_unit_too_wide :
    [Instr.dlprep 256 0, .dlrst 256, .dlsetd 256 0, .dlpush 256 0, .dlrdlin 256 0 0, .dlrdlag 256 0 0,
      .dlproc 256 true 0 0 0, .apprep 256 0, .aprst 256, .apsetg 256 0, .approc 256 0].all (fun i => !i.wf) = true
    ∧ [Instr.lprst 256, .lpsetc 256 0, .lpproc 256 0, .lfoseed 256 0, .lfosetr 256 0, .lfosetd 256 0, .lfonext 256,
      .smset 256 0, .smnext 256, .smsnap 256].all (fun i => !i.wf) = true := by decide

theorem test_channels_too_wide : (Instr.eprep 4 0 0 1).wf = false ∧ (Instr.eproc 4 1).wf = false := by decide

theorem test_widest_fields_fit :
    (Instr.dlpush 255 0).wf = true ∧ (Instr.eprep 3 0 0 1).wf = true ∧ (Instr.eproc 0 0).wf = true := by decide

/-! ## Decoding: the words of V11 -/

theorem test_decode_interface :
    decode [0x01000002#32, 0x40E77000#32, 0#32, 0x200#32] = .command (.eprep 2 0x40E77000#32 0#32 0x200#32) []
    ∧ decode [0x02000000#32] = .command .erst []
    ∧ decode [0x03000000#32, 0x42C80000#32, 0x40400000#32, 0x3F800000#32, 0x41A00000#32, 0x3F400000#32,
        0x3E99999A#32, 0x3FC00000#32, 0x45BB8000#32, 0x41A00000#32, 0x469C4000#32, 0x3F800000#32, 0#32, 0#32]
      = .command (.esetp #v[0x42C80000#32, 0x40400000#32, 0x3F800000#32, 0x41A00000#32, 0x3F400000#32,
        0x3E99999A#32, 0x3FC00000#32, 0x45BB8000#32, 0x41A00000#32, 0x469C4000#32, 0x3F800000#32, 0#32, 0#32]) []
    ∧ decode [0x04000002#32, 0x200#32] = .command (.eproc 2 0x200#32) [] := by decide

theorem test_decode_delay_line :
    decode [0x10000000#32, 0xC#32] = .command (.dlprep 0 0xC#32) []
    ∧ decode [0x11110000#32] = .command (.dlrst 17) []
    ∧ decode [0x120A0000#32, 0x44F#32] = .command (.dlsetd 10 0x44F#32) []
    ∧ decode [0x13000000#32, 0x3F800000#32] = .command (.dlpush 0 0x3F800000#32) []
    ∧ decode [0x140A0000#32, 0x42C80000#32, 0x3E800000#32] = .command (.dlrdlin 10 0x42C80000#32 0x3E800000#32) []
    ∧ decode [0x15000000#32, 0x40000000#32, 0x3F000000#32] = .command (.dlrdlag 0 0x40000000#32 0x3F000000#32) []
    ∧ decode [0x16030001#32, 0xBFC00000#32, 0x40000000#32, 0x3F000000#32]
      = .command (.dlprocc 3 0xBFC00000#32 0x40000000#32 0x3F000000#32) []
    ∧ decode [0x16000000#32, 0x43AB8000#32, 0x40C00000#32, 0#32]
      = .command (.dlprocl 0 0x43AB8000#32 0x40C00000#32 0#32) [] := by decide

theorem test_decode_allpass_and_filter :
    decode [0x20000000#32, 2#32] = .command (.apprep 0 2#32) []
    ∧ decode [0x21070000#32] = .command (.aprst 7) []
    ∧ decode [0x22000000#32, 0x3F000000#32] = .command (.apsetg 0 0x3F000000#32) []
    ∧ decode [0x23000000#32, 0x3F800000#32] = .command (.approc 0 0x3F800000#32) []
    ∧ decode [0x30090000#32] = .command (.lprst 9) []
    ∧ decode [0x31000000#32, 0x463B8000#32] = .command (.lpsetc 0 0x463B8000#32) []
    ∧ decode [0x32000000#32, 0x3F800000#32] = .command (.lpproc 0 0x3F800000#32) [] := by decide

theorem test_decode_modulator_and_smoother :
    decode [0x40070000#32, 0xFFFFFFFF#32] = .command (.lfoseed 7 0xFFFFFFFF#32) []
    ∧ decode [0x41000000#32, 0x463B8000#32] = .command (.lfosetr 0 0x463B8000#32) []
    ∧ decode [0x42040000#32, 0x42900000#32] = .command (.lfosetd 4 0x42900000#32) []
    ∧ decode [0x43000000#32] = .command (.lfonext 0) []
    ∧ decode [0x60000000#32, 0x3F000000#32] = .command (.smset 0 0x3F000000#32) []
    ∧ decode [0x61010000#32] = .command (.smnext 1) []
    ∧ decode [0x62000000#32] = .command (.smsnap 0) [] := by decide

theorem test_decode_network :
    decode [0x50000000#32, 0x3F800000#32] = .command (.fsetsize 0x3F800000#32) []
    ∧ decode [0x51000000#32, 0x40400000#32] = .command (.fsetrt60 0x40400000#32) []
    ∧ decode [0x52000000#32, 0x45BB8000#32] = .command (.fsetdamp 0x45BB8000#32) []
    ∧ decode [0x53000000#32, 0x3E99999A#32, 0x3FC00000#32] = .command (.fsetmod 0x3E99999A#32 0x3FC00000#32) []
    ∧ decode [0x54000001#32] = .command .freeze [] ∧ decode [0x54000000#32] = .command .unfreeze []
    ∧ decode [0x55000000#32, 0x3F800000#32] = .command (.ftick 0x3F800000#32) []
    ∧ decode [0x56000000#32, 0x3F800000#32, 0xC0000000#32, 0x40400000#32, 0xC0800000#32, 0x40A00000#32,
        0xC0C00000#32, 0x40E00000#32, 0xC1000000#32, 0x3E99999A#32]
      = .command (.fmix #v[0x3F800000#32, 0xC0000000#32, 0x40400000#32, 0xC0800000#32, 0x40A00000#32,
        0xC0C00000#32, 0x40E00000#32, 0xC1000000#32] 0x3E99999A#32) [] := by decide

/-- The illegal head words V11 lists, on the head word alone; a truncated stream is not one of them (R70). -/
theorem test_decode_illegal :
    decode [0#32] = .rejected .unknownOpcode ∧ decode [0xFFFFFFFF#32] = .rejected .unknownOpcode
    ∧ decode [0x05000000#32] = .rejected .unknownOpcode ∧ decode [0x02000001#32] = .rejected .immNotZero
    ∧ decode [0x02010000#32] = .rejected .unitNotZero ∧ decode [0x01000004#32] = .rejected .immNotZero
    ∧ decode [0x16000002#32] = .rejected .immNotZero ∧ decode [0x54000002#32] = .rejected .immNotZero
    ∧ decode [0x13000001#32] = .rejected .immNotZero
    ∧ decode [0x13000000#32] = .rejected .truncated ∧ decode [] = .rejected .noHead := by decide

/-- The opcode table's numbering: bit 0 of the second word is bit 32 (V11: `DLPUSH 0, 1.0`). -/
theorem test_table_word :
    decodeTableWord 64 0x3F80000013000000 = some (.dlpush 0 0x3F800000#32)
    ∧ decodeTableWord 32 0x11110000 = some (.dlrst 17) ∧ decodeTableWord 32 0x54000002 = none := by decide

/-- A placed command is the next step's (R70). -/
theorem test_placed_command_runs :
    stepped (State.reset.withFetchWord 32 0x02000000) = some ((State.reset.consume []).faulted .notPrepared) := by
  decide +kernel

/-! ## The text syntax (R77, R78; lines of V11) -/

theorem test_assemble :
    Asm.assemble "EPREP #2, 48000.0, 512 ; a comment\nDLRDLIN 10, 100.0, 0.25\n\nFSETFRZ #1"
      = some [0x01000002#32, 0x40E77000#32, 0#32, 0x200#32, 0x140A0000#32, 0x42C80000#32, 0x3E800000#32,
          0x54000001#32]
    ∧ Asm.assemble "DLPROCC 3, −1.5, 2.0, 0.5\nUNFREEZE\nLFOSEED 7, 0xFFFFFFFF"
      = some [0x16030001#32, 0xBFC00000#32, 0x40000000#32, 0x3F000000#32, 0x54000000#32, 0x40070000#32,
          0xFFFFFFFF#32]
    ∧ Asm.assemble "DLPUSH 0" = none := by decide +kernel

/-! ## Arithmetic (the worked values of spec/00_scope.md R8 to R12) -/

theorem test_conversions :
    rnd lit0_5 = 1 ∧ rnd 0x3FC00000#32 = 2 ∧ rnd 0xBF800000#32 = 0 ∧ rnd posInf = 0 ∧ rnd aNaN = 0
    ∧ ffloor 0x40600000#32 = 3 ∧ floatOf 3407 = 0x4554F000#32
    ∧ nextPow2 4 = 4 ∧ nextPow2 5 = 8 ∧ nextPow2 9605 = 16384 ∧ nextPow2 1048576 = 1048576 := by decide +kernel

theorem test_arithmetic :
    fadd 0x7F7FFFFF#32 0x7F7FFFFF#32 = posInf ∧ fadd negZero posZero = posZero ∧ fadd negZero negZero = negZero
    ∧ fmul 0x00000001#32 lit0_5 = posZero ∧ fmul 0x00000003#32 lit0_5 = 0x00000002#32
    ∧ fdiv lit1 lit3 = 0x3EAAAAAB#32 ∧ fsqrt lit2 = 0x3FB504F3#32
    ∧ isNaN (fdiv posZero posZero) = true ∧ isNaN (fsub posInf posInf) = true
    ∧ fclamp aNaN lit1 lit2 = lit1 ∧ fclamp negZero posZero lit1 = negZero := by decide +kernel

/-! ## Configuration records -/

theorem test_configurations_meet_R5 : cfgDefault.tablesOk = true ∧ cfgTiny.tablesOk = true := by decide +kernel

/-- R5: 0 < FS_MIN ≤ FS_MAX, so a NaN, a zero, an infinity and a minimum above the maximum are refused. -/
theorem test_rate_limits_are_checked :
    [0x7FF8000000000000#64, 0#64, 0x7FF0000000000000#64, 0x4117700000000000#64].all
      (fun w => !({ cfgDefault with fsMin := w } : Cfg).tablesOk) = true := by decide +kernel

/-! ## Commands: delay lines (V1, P1) -/

theorem test_dlprep :
    (after (.dlprep 3 347#32) ready).map (·.dl[3]) = some { cap := 512, w := 0, base := 0, ram := [] }
    ∧ statusAfter (.dlprep 0 1048573#32) ready = some 0x4F#32 := by decide +kernel

theorem test_dlrst :
    (after (.dlrst 0) ready).map (·.dl[0]) = some { cap := 8, w := 0, base := 2, ram := [] } := by decide +kernel

theorem test_dlsetd : (after (.dlsetd 0 100#32) ready).map (·.dl[0].base) = some 4 := by decide +kernel

theorem test_dlpush :
    (after (.dlpush 0 0x7FC00001#32) ready).map (fun t => (memRead t.dl[0].ram 2, memRead t.dl[0].ram 1, t.dl[0].w))
      = some (0x7FC00001#32, floatOf 100, 3) := by decide +kernel

theorem test_dlrdlin :
    res0 (.dlrdlin 0 lit3 lit0_5) ready = some 0x42620000#32
    ∧ res0 (.dlrdlin 0 0x7FC00000#32 posZero) ready = some (floatOf 100) := by decide +kernel

theorem test_dlrdlag :
    res0 (.dlrdlag 0 lit3 lit0_5) ready = some 0x42610000#32
    ∧ res0 (.dlrdlag 0 0x40A00000#32 lit0_5) ready = some (floatOf 36) := by decide +kernel

/-- DLPROC reads before it pushes (P1): at D = 5, Df = 0 it answers the word the sixth push left. -/
theorem test_dlproc :
    (after (.dlproc 0 false lit1 lit6 posZero) ready).map (fun t => (t.res[0], memRead t.dl[0].ram 2, t.dl[0].w))
      = some (floatOf 36, lit1, 3) := by decide +kernel

/-! ## Commands: allpass (V2, P2) -/

theorem test_apprep :
    (after (.apprep 1 2#32) ready).map (·.dl[3]) = some { cap := 8, w := 0, base := 2, ram := [] }
    ∧ statusAfter (.apprep 8 2#32) ready = some 0x5F#32 := by decide +kernel

theorem test_aprst :
    (after (.aprst 5) { ready with dl := ready.dl.set 7 lineA }).map (·.dl[7]) = some { lineA with w := 0, ram := [] } := by
  decide +kernel

theorem test_apsetg :
    (after (.apsetg 6 lit2) ready).map (·.apG[6]) = some 0x3F7FBE77#32
    ∧ (after (.apsetg 6 aNaN) ready).map (·.apG[6]) = some posZero := by decide +kernel

theorem test_approc :
    (after (.approc 0 lit1) { ready with apG := Vector.replicate 8 lit0_5 }).map
        (fun t => (t.res[0], memRead t.dl[2].ram 0, t.dl[2].w))
      = some (0xBF000000#32, 0x3F400000#32, 1) := by decide +kernel

/-! ## Commands: filters (V3, P2) -/

theorem test_lprst :
    (after (.lprst 9) { ready with lp := Vector.replicate 10 { G := lit0_5, s := lit1 } }).map (·.lp[9])
      = some { G := lit0_5, s := posZero } := by decide +kernel

theorem test_lpsetc :
    (after (.lpsetc 8 0x45BB8000#32) ready).map (·.lp[8].G) = some 0x3E95F61A#32
    ∧ (after (.lpsetc 8 aNaN) ready).map (·.lp[8].G) = some 0x38893FD2#32 := by decide +kernel

theorem test_lpproc :
    (after (.lpproc 2 lit1) { ready with lp := Vector.replicate 10 { G := lit0_5, s := posZero } }).map
        (fun t => (t.res[0], t.lp[2].s))
      = some (lit0_5, lit1) := by decide +kernel

/-! ## Commands: modulators (V4) -/

theorem test_lfoseed :
    (after (.lfoseed 0 1#32) ready).map (fun t => (t.lfo[0].js, t.lfo[0].phase)) = some (0x42B771B7#32, 0x3E856EE2#32)
    ∧ (after (.lfoseed 7 0xFFFFFFFF#32) ready).map (fun t => (t.lfo[7].js, t.lfo[7].phase))
      = some (0x09466A2A#32, 0x3D1466A0#32) := by decide +kernel

theorem test_lfosetr :
    (after (.lfosetr 0 0x3E99999A#32) ready).map (·.lfo[0].inc) = some 0x36D1B718#32
    ∧ (after (.lfosetr 7 0x4E6E6B28#32) ready).map (fun t => (t.lfo[7].rate, t.lfo[7].inc))
      = some (floatOf 24000, lit0_5) := by decide +kernel

theorem test_lfosetd :
    (after (.lfosetd 4 0x42900000#32) ready).map (·.lfo[4].depth) = some 0x42900000#32
    ∧ (after (.lfosetd 4 litNeg1) ready).map (·.lfo[4].depth) = some posZero := by decide +kernel

/-- V4, lane 4 of the T7 snapshot: the first LFONEXT. -/
theorem test_lfonext :
    (after (.lfonext 4)
        { ready with
          lfo := ready.lfo.set 4
            { phase := 0x3EB8B0D2#32, rate := 0x3EAC0832#32, inc := 0x36EAE18C#32, depth := 0x42900000#32
              js := jitInitDefault 0#32 4 } }).map (·.res[0])
      = some 0x425D11F6#32 := by decide +kernel

/-! ## Commands: the network (V5, V6, V8; R123, R130) -/

/-- Lines wide enough for the lengths of R123 at 48000 Hz. -/
def wide : State := { ready with dl := Vector.replicate 18 { cap := 8192, w := 0, base := 0, ram := [] } }

theorem test_fsetsize :
    (after (.fsetsize lit1) wide).map (fun t => (t.dl[10].base, t.dl[17].base, t.fdn.g[0], t.fdn.g[7]))
      = some (1103, 3407, 0x3F5A6CD1#32, 0x3F1CC8C5#32) := by decide +kernel

theorem test_fsetrt60 :
    (after (.fsetrt60 lit3) wide).map (fun t => (t.fdn.g[0], t.fdn.g[7])) = some (0x3F72CE89#32, 0x3F596690#32) := by
  decide +kernel

theorem test_fsetdamp :
    (after (.fsetdamp 0x463B8000#32) ready).map (fun t => (t.lp[0].G, t.lp[7].G, t.lp[8].G))
      = some (lit0_5, lit0_5, posZero) := by decide +kernel

theorem test_fsetmod :
    (after (.fsetmod 0x3E99999A#32 0x3FC00000#32) ready).map
        (fun t => (t.lfo[3].depth, t.lfo[4].depth, t.fdn.mode[3], t.fdn.mode[4], t.lfo[7].rate, t.lfo[7].inc))
      = some (posZero, 0x42900000#32, false, true, 0x3EB9DB24#32, 0x36FDC163#32) := by decide +kernel

theorem test_fsetfrz :
    (after .freeze ready).map (·.fdn.xfT) = some lit1 ∧ (after .unfreeze ready).map (·.fdn.xfT) = some posZero := by
  decide +kernel

/-- V6, tick 0: injection only; and V8, the first tick of the freeze ramp. -/
theorem test_ftick :
    (after (.ftick lit1) ready).map (fun t => (memRead t.dl[10].ram 0, memRead t.dl[11].ram 0, t.dl[10].w, t.res[0]))
      = some (lit1, litNeg1, 1, posZero)
    ∧ (after (.ftick posZero) { ready with fdn := { ready.fdn with xfT := lit1 } }).map (·.fdn.xf)
      = some 0x3991A000#32 := by decide +kernel

/-- The operands of V5's FMIX. -/
def oneToEight : Vector Word 8 :=
  #v[floatOf 1, floatOf 2, floatOf 3, floatOf 4, floatOf 5, floatOf 6, floatOf 7, floatOf 8]

/-- V5: mid 9 and side −2 at widths 0 and 1. -/
theorem test_fmix :
    (after (.fmix oneToEight posZero) ready).map (fun t => (t.res[0], t.res[1])) = some (floatOf 9, floatOf 9)
    ∧ (after (.fmix oneToEight lit1) ready).map (fun t => (t.res[0], t.res[1])) = some (0xC0000000#32, lit2) := by
  decide +kernel

/-! ## Commands: smoothers (V7) -/

theorem test_smset :
    (after (.smset 0 lit1) ready).map (fun t => (t.sm[0].step, t.sm[0].count)) = some (lit0_25, 4)
    ∧ after (.smset 0 aNaN) ready = some ready := by decide +kernel

theorem test_smnext :
    (after (.smnext 1)
        { ready with sm := ready.sm.set 1 { cur := 0x3F088888#32, target := 0x3E99999A#32, step := 0xBE6EEEEF#32, count := 1 } }).map
        (fun t => (t.res[0], t.sm[1].count))
      = some (0x3E99999A#32, 0) := by decide +kernel

theorem test_smsnap :
    (after (.smsnap 0)
        { ready with sm := ready.sm.set 0 { cur := posZero, target := lit1, step := lit0_25, count := 3 } }).map (·.sm[0])
      = some { cur := lit1, target := lit1, step := posZero, count := 0 } := by decide +kernel

/-! ## The interface commands (V5, V9, V10) -/

theorem test_eprep :
    (after (.eprep 2 0x40E77000#32 0#32 512#32) State.reset).map
        (fun t => (t.status.word, t.dl[0].cap, t.dl[2].cap, t.fdn.g[0], t.smN, t.xfAlpha))
      = some (5#32, 16384, 128, 0x3F5A6CD1#32, 2400, 0x3991A000#32)
    ∧ statusAfter (.eprep 3 0x40E77000#32 0#32 512#32) State.reset = some 0x48#32 := by decide +kernel

theorem test_erst :
    (after .erst { ready with lp := Vector.replicate 10 { G := lit0_5, s := lit1 } }).map (fun t => (t.dl[0], t.lp[9]))
      = some ({ lineA with w := 0, ram := [] }, { G := lit0_5, s := posZero }) := by decide +kernel

theorem test_esetp :
    (after (.esetp (Vector.replicate 13 0xFFFFFFFE#32)) ready).map (fun t => (t.prm[11], t.prm[12], t.status.word))
      = some (0xFFFFFFFE#32, 0#32, 7#32) := by decide +kernel

/-- A predelay line with an impulse one sample back. -/
def impulseLine : DelayLine := { cap := 8, w := 1, base := 0, ram := [(0, lit1)] }

/-- The snapshot of V9 waiting, an impulse one sample back in both predelay lines. -/
def impulsed : State :=
  { ready with
    dl := (ready.dl.set 0 impulseLine).set 1 impulseLine
    prm := #v[lit100, lit3, lit1, posZero, posZero, 0x3E99999A#32, posZero, 0x463B8000#32, posZero,
      0x469C4000#32, lit1, 0#32, 0#32] }

/-- V10's last rows, and row n = 1 of P3. -/
theorem test_eproc :
    statusAfter (.eproc 2 5#32) ready = some 0x6F#32
    ∧ (after (.eproc 2 1#32) impulsed).map (fun t => (t.status.word, memRead t.buf 0, memRead t.buf 4))
      = some (3#32, 0x3CBF1A5F#32, 0x3CBF1A5F#32) := by decide +kernel

/-- V10, P5: a fault is sticky and its words are dropped one by one. -/
theorem test_fault_is_sticky :
    statusAfter (.dlpush 18 lit1) ready = some 0x5F#32
    ∧ stepped { ready with status := ready.status.withFault .badUnit, cmd := [0x02000000#32, 5#32] }
      = some { ready with status := ready.status.withFault .badUnit, cmd := [5#32] } := by decide +kernel

/-! ## Witnesses: concrete states and operands that meet an obligation's hypotheses, and its clauses' boundaries -/

/-- For every obligation whose only hypothesis on the state is `PREPARED` = 1 (the command obligations), and for those
that add canonical delay memories. -/
theorem witness_prepared_and_canonical :
    ready.status.prepared = true ∧ (∀ u : Fin 18, Memory.wf ready.dl[u].ram = true)
    ∧ applied.status.prepared = true := by decide +kernel

/-- EprepChecksThenPreparesEveryUnit: the boundaries of its `legal` clause, on both sides (8000.0, 192000.0 and 7999.0,
block sizes 1, 2^24 − 1, 0 and 2^24, channel counts 1 and 0). -/
theorem witness_EprepChecksThenPreparesEveryUnit :
    statusAfter (.eprep 1 0x40BF4000#32 0#32 1#32) State.reset = some 5#32
    ∧ statusAfter (.eprep 2 0x41077000#32 0#32 0xFFFFFF#32) State.reset = some 5#32
    ∧ statusAfter (.eprep 2 0x40BF3F00#32 0#32 1#32) State.reset = some 0x48#32
    ∧ statusAfter (.eprep 2 0x40BF4000#32 0#32 0#32) State.reset = some 0x48#32
    ∧ statusAfter (.eprep 2 0x40BF4000#32 0#32 0x1000000#32) State.reset = some 0x48#32
    ∧ statusAfter (.eprep 0 0x40BF4000#32 0#32 1#32) State.reset = some 0x48#32 := by decide +kernel

/-- EprocChecksThenRunsEachSample, one witness a clause: no snapshot; a count above, at and below its limits. -/
theorem witness_EprocChecksThenRunsEachSample :
    ready.status.prepared = true ∧ ready.status.pvalid = true ∧ ready.nch.toNat = 2 ∧ ready.maxBlock.toNat = 4
    ∧ statusAfter (.eproc 2 1#32) { ready with status := { ready.status with pvalid := false } } = some 0x3D#32
    ∧ statusAfter (.eproc 3 4#32) ready = some 0x6F#32 ∧ statusAfter (.eproc 0 4#32) ready = some 0x6F#32
    ∧ statusAfter (.eproc 2 5#32) ready = some 0x6F#32 ∧ statusAfter (.eproc 2 0#32) ready = some 3#32 := by
  decide +kernel

/-- SnapshotSetsEveryParameter has no hypothesis; both branches of `FIRST` and of a moved target occur. -/
theorem witness_SnapshotSetsEveryParameter :
    ready.status.first = true ∧ applied.status.first = false
    ∧ feq (fdiv (fclamp impulsed.prm[0] posZero lit100) lit100) impulsed.sm[0].target = false
    ∧ feq (fdiv (fclamp ready.prm[0] posZero lit100) lit100) ready.sm[0].target = true := by decide +kernel

/-- DlprepAndApprepSizeALine: the greatest size that fits and the least that does not. -/
theorem witness_DlprepAndApprepSizeALine :
    ready.status.prepared = true ∧ (1048572#32).toNat + 4 ≤ cfg.capMax ∧ cfg.capMax < (1048573#32).toNat + 4 := by
  decide +kernel

/-- ApsetgStoresClampedGain: a NaN, a negative gain, one above the limit, and both ends of the range. -/
theorem witness_ApsetgStoresClampedGain :
    isNaN aNaN = true ∧ flt litNeg1 posZero = true ∧ flt lit0_999 lit1 = true
    ∧ within posZero lit0_999 negZero = true ∧ within posZero lit0_999 lit0_999 = true := by decide +kernel

/-- SmsetStartsARamp: a NaN, the target as a value (−0 for +0), and another target. -/
theorem witness_SmsetStartsARamp :
    isNaN aNaN = true ∧ feq negZero ready.sm[0].target = true ∧ isNaN lit1 = false
    ∧ feq lit1 ready.sm[0].target = false := by decide +kernel

/-- SmnextAdvancesAndSmsnapJumps: counts 0, 1 and 2 all occur. -/
theorem witness_SmnextAdvancesAndSmsnapJumps :
    ready.sm[0].count = 0
    ∧ (after (.smset 0 lit1) { ready with smN := 1 }).map (·.sm[0].count) = some 1
    ∧ (after (.smset 0 lit1) { ready with smN := 2 }).map (·.sm[0].count) = some 2 := by decide +kernel

/-- DecodeInvertsEncode, EncodeInvertsDecode, StepRunsTheDecodedCommand, CommandsAreConsumedWhole: a well-formed command
whose words decode, at a port with more words behind it and with some of its own missing. -/
theorem witness_decode_and_step :
    (Instr.dlpush 255 lit1).wf = true
    ∧ decode (encode (.dlpush 255 lit1) ++ [7#32]) = .command (.dlpush 255 lit1) [7#32]
    ∧ decode ((encode (.dlpush 255 lit1)).take 1) = .rejected .truncated
    ∧ ready.status.err = false
    ∧ opcOf ((encode (.dlpush 255 lit1)).headD 0) = opcOf ((encode (.dlpush 0 lit2)).headD 0) := by decide +kernel

/-- IllegalHeadWordsFault, one witness a clause at its boundary: a reserved opcode, a unit where none is used, 4 for two
bits, 2 for one bit, 1 for none; and the greatest immediates that are legal. -/
theorem witness_IllegalHeadWordsFault :
    (let status := fun h : Word => (stepped { ready with cmd := [h] }).map (·.status.word)
    status 0x05000000#32 = some 0x1F#32 ∧ status 0x55010000#32 = some 0x1F#32 ∧ status 0x01000004#32 = some 0x1F#32
    ∧ status 0x16000002#32 = some 0x1F#32 ∧ status 0x13000001#32 = some 0x1F#32
    ∧ status 0x01000003#32 = some 7#32 ∧ status 0x16FF0001#32 = some 7#32) := by decide +kernel

/-- FaultsArePreciseAndSticky, NoStepEndsAFault: a command without a fault, one with, and a state with one pending. -/
theorem witness_FaultsArePreciseAndSticky :
    statusAfter .erst ready = some 7#32 ∧ statusAfter (.dlpush 18 lit1) ready = some 0x5F#32
    ∧ (ready.faulted .badUnit).status.err = true := by decide +kernel

/-- OnlyEprepRunsUnprepared: both clauses, and both outcomes of the second. -/
theorem witness_OnlyEprepRunsUnprepared :
    State.reset.status.prepared = false ∧ Instr.erst.op ≠ .eprep
    ∧ statusAfter (.eprep 1 0x40BF4000#32 0#32 1#32) State.reset = some 5#32
    ∧ statusAfter (.eprep 3 0x40BF4000#32 0#32 1#32) State.reset = some 0x48#32 := by decide +kernel

/-- UnitAboveRangeFaults: the first unit above each range and the last one in it. -/
theorem witness_UnitAboveRangeFaults :
    (Instr.dlpush 18 lit1).op.unitLimit = some 18 ∧ ready.status.prepared = true
    ∧ statusAfter (.dlpush 18 lit1) ready = some 0x5F#32 ∧ statusAfter (.dlpush 17 lit1) ready = some 7#32
    ∧ statusAfter (.aprst 8) ready = some 0x5F#32 ∧ statusAfter (.aprst 7) ready = some 7#32
    ∧ statusAfter (.lprst 10) ready = some 0x5F#32 ∧ statusAfter (.lprst 9) ready = some 7#32
    ∧ statusAfter (.lfosetd 8 lit1) ready = some 0x5F#32 ∧ statusAfter (.lfosetd 7 lit1) ready = some 7#32
    ∧ statusAfter (.smsnap 2) ready = some 0x5F#32 ∧ statusAfter (.smsnap 1) ready = some 7#32 := by decide +kernel

/-- StatusPortReadsTheMap: the boundary addresses of the map, with `PVALID` = 1. -/
theorem witness_StatusPortReadsTheMap :
    ready.status.pvalid = true ∧ ready.portWord 0x06 = 1#32 ∧ ready.portWord 0x07 = 0#32
    ∧ ({ ready with res := ready.res.set 7 5#32 } : State).portWord 0x0F = 5#32
    ∧ ({ ready with prm := ready.prm.set 12 1#32 } : State).portWord 0x1C = 1#32
    ∧ ready.portWord 0x1D = 0#32 ∧ ready.portWord 0x03 = 0x40E77000#32 := by decide +kernel

/-- EveryRegisterHasItsWriters, OnlyNamedResultRegistersChange, DelayMemoryFrame: a command that answers a next state,
another command than each writer, a result register and a delay word it does not name. -/
theorem witness_frames :
    (after (.dlpush 3 lit1) ready).isSome = true ∧ ready.n = none
    ∧ (Instr.dlpush 3 lit1).op ∉ [Op.eprep, .esetp, .eproc, .dlprep, .apprep]
    ∧ 0 ∉ (Instr.dlpush 3 lit1).op.resultRegs ∧ 7 ∉ (Instr.fmix oneToEight lit1).op.resultRegs
    ∧ ¬ (3 = 3 ∧ 1 = ready.dl[3].w) := by decide +kernel

/-- DelayMemoryFrame's premise, in its own words. -/
theorem witness_DelayMemoryFrame : ¬ (Instr.dlpush 3 lit1).storesTo ready 3 1 := by
  simp only [Instr.storesTo]
  decide +kernel

/-- EprocWritesOnlyItsBlock: a block of one sample, and an address outside it. -/
theorem witness_EprocWritesOnlyItsBlock :
    statusAfter (.eproc 2 1#32) ready = some 3#32
    ∧ ∀ c n, c < 2 → n < (1#32).toNat → 1 ≠ cfg.bufAddr ready.maxBlock.toNat 2 c n := by
  constructor
  · decide +kernel
  · intro c n hc hn
    have h : n = 0 := by simp at hn; omega
    subst h
    change 1 ≠ c * 4 + 0
    omega

/-- StepKeepsTheMemoriesSound, StepKeepsTheRegistersSound, StepKeepsTheModulatorsSound, StepKeepsTheCrossfadeInUnit:
`ready` meets the four invariants and steps. -/
theorem witness_invariants :
    MemoryInv cfg ready ∧ MemoryInv cfgTiny ready ∧ RegisterInv ready ∧ ModulatorInv ready ∧ CrossfadeInv ready
    ∧ cfgTiny.tablesOk = true
    ∧ (stepped { ready with cmd := encode (.ftick lit1) }).isSome = true := by
  simp only [MemoryInv, RegisterInv, ModulatorInv, CrossfadeInv, Lfo.sound]
  decide +kernel

/-- EprepLeavesNothingOfTheUnits: two different states with one draw counter, and an EPREP that both accept. -/
theorem witness_EprepLeavesNothingOfTheUnits :
    State.reset.draws = ready.draws ∧ State.reset.dl ≠ ready.dl
    ∧ statusAfter (.eprep 1 0x40BF4000#32 0#32 1#32) State.reset = some 5#32
    ∧ statusAfter (.eprep 1 0x40BF4000#32 0#32 1#32) ready = some 5#32 := by decide +kernel

/-- ReapplyingASnapshotChangesNothing: an application that changes the state, the first time. -/
theorem witness_ReapplyingASnapshotChangesNothing :
    statusAfter (.eproc 2 0#32) impulsed = some 3#32
    ∧ (after (.eproc 2 0#32) impulsed).map (·.sm[0].cur) = some lit1 := by decide +kernel

/-- UnreadParametersHaveNoEffect: a command that is not ESETP, with `FIRST` = 1 and with `FIRST` = 0. -/
theorem witness_UnreadParametersHaveNoEffect :
    (Instr.eproc 2 0#32).op ≠ .esetp ∧ (after (.eproc 2 0#32) ready).isSome = true
    ∧ (after (.eproc 2 0#32) applied).isSome = true ∧ applied.status.first = false := by decide +kernel

/-- MonoBlockIsTheLeftOfAStereoBlock: one sample of 1.0, in the left channel and in both. -/
theorem witness_MonoBlockIsTheLeftOfAStereoBlock :
    (let b1 : Mem := [(0, lit1)]
    let b2 : Mem := [(0, lit1), (4, lit1)]
    Memory.wf b1 = true ∧ Memory.wf b2 = true ∧ 2 ≤ impulsed.nch.toNat
    ∧ cfg.bufAddr impulsed.maxBlock.toNat 2 0 0 = 0 ∧ cfg.bufAddr impulsed.maxBlock.toNat 2 1 0 = 4
    ∧ memRead b2 0 = memRead b1 0 ∧ memRead b2 4 = memRead b1 0
    ∧ statusAfter (.eproc 1 1#32) { impulsed with buf := b1 } = some 3#32
    ∧ statusAfter (.eproc 2 1#32) { impulsed with buf := b2 } = some 3#32) := by decide +kernel

/-- LaterSamplesDoNotReachEarlierOutputs: two blocks of two samples that differ at the second (m = 0). -/
theorem witness_LaterSamplesDoNotReachEarlierOutputs :
    (let b1 : Mem := [(0, lit1)]
    let b2 : Mem := [(0, lit1), (1, lit2)]
    Memory.wf b1 = true ∧ Memory.wf b2 = true ∧ memRead b1 0 = memRead b2 0 ∧ memRead b1 1 ≠ memRead b2 1
    ∧ statusAfter (.eproc 1 2#32) { impulsed with buf := b1 } = some 3#32
    ∧ statusAfter (.eproc 1 2#32) { impulsed with buf := b2 } = some 3#32) := by decide +kernel

/-- MixZeroReturnsTheDryInput: the largest finite input and the least subnormal one. -/
theorem witness_MixZeroReturnsTheDryInput :
    isFinite 0x7F7FFFFF#32 = true ∧ (0x7F7FFFFF#32 : Word) ≠ negZero
    ∧ isFinite 0x00000001#32 = true ∧ (0x00000001#32 : Word) ≠ negZero := by decide +kernel

/-- WidthZeroIsMono: V5's operands at width 0 and at a NaN. -/
theorem witness_WidthZeroIsMono :
    ready.status.prepared = true ∧ isFinite (mixSide cfg oneToEight) = true ∧ isNaN (mixMid cfg oneToEight) = false
    ∧ (after (.fmix oneToEight posZero) ready).isSome = true ∧ (after (.fmix oneToEight aNaN) ready).isSome = true := by
  decide +kernel

/-- A ramp to 1.0 on `SM[0]` of `ready`, one SMNEXT after another. -/
def ramp : Nat → State
  | 0 => smset 0 lit1 ready
  | j + 1 => smnext 0 (ramp j)

/-- RampLandsOnItsTarget. -/
theorem witness_RampLandsOnItsTarget :
    ready.status.prepared = true ∧ 1 ≤ ready.smN ∧ isNaN lit1 = false ∧ feq lit1 ready.sm[0].target = false
    ∧ exec (.smset 0 lit1) ready = .next (ramp 0) ∧ ∀ j, exec (.smnext 0) (ramp j) = .next (ramp (j + 1)) :=
  ⟨by decide, by decide, by decide, by decide, rfl, fun _ => rfl⟩

/-- TapsReturnPastPushes, TotalDelayStaysInsideTheGuard: a sound line, and one of the least capacity. -/
theorem witness_lines :
    lineA.sound cfg = true ∧ (DelayLine.prepared 0).sound cfg = true ∧ (DelayLine.prepared 0).cap = 4 := by
  decide +kernel

/-- OperatorsRoundToNearestEven: finite operands, the least and the greatest. -/
theorem witness_OperatorsRoundToNearestEven :
    isFinite 0x00000001#32 = true ∧ isFinite 0x7F7FFFFF#32 = true ∧ unitsOf 0x00000001#32 ≠ 0 := by decide +kernel

end Sys2Proof.Tests
end

/-! Rounding to nearest, ties to even (spec/00_scope.md R8): the pattern `roundMag` answers is told by comparing the
exact magnitude with the midpoints of neighbouring patterns. That order fact gives the least distance, the tie rule and
the overflow threshold at once; each operator of R8 then only has to be brought to a sign and a rounded magnitude. -/

namespace Sys2Proof.Machine

/-! ## The pattern a magnitude rounds to -/

/-- `divNearestEven` as a comparison with the midpoint of the two candidates. The scale 0 has no tie. -/
theorem divNearestEven_eq_of_midpoint (n q : Nat) :
    divNearestEven n q = if 2 * n < (2 * (n / 2 ^ q) + 1) * 2 ^ q then n / 2 ^ q
      else if (2 * (n / 2 ^ q) + 1) * 2 ^ q < 2 * n then n / 2 ^ q + 1 else n / 2 ^ q + n / 2 ^ q % 2 := by
  have hdm := Nat.div_add_mod n (2 ^ q)
  have hmid : (2 * (n / 2 ^ q) + 1) * 2 ^ q = 2 * (2 ^ q * (n / 2 ^ q)) + 2 ^ q := by ring
  have hq : q = 0 → 2 ^ q = 1 := fun h => by rw [h, Nat.pow_zero]
  unfold divNearestEven
  dsimp only
  rw [hmid]
  split
  · rw [if_pos (by omega)]
  · split
    · rw [if_neg (by omega), if_pos (by omega)]
    · rw [if_neg (by omega), if_neg (by omega), if_neg (by omega)]

/-- The grid `roundMag` rounds on: its exponent `e`, with a normalised significand unless `e` is 0. -/
theorem roundMag_grid (n k : Nat) : ∃ e, n / 2 ^ (e + k) < 2 ^ 24 ∧ (e = 0 ∨ 2 ^ 23 ≤ n / 2 ^ (e + k)) ∧
    roundMag n (149 + k) = min (e * 2 ^ 23 + divNearestEven n (e + k)) 0x7F800000 := by
  obtain ⟨e, he⟩ : ∃ e, max (Nat.log2 n - 23) k = e + k := ⟨max (Nat.log2 n - 23) k - k, by omega⟩
  refine ⟨e, ?_, ?_, ?_⟩
  · rw [Nat.div_lt_iff_lt_mul (Nat.two_pow_pos _), ← Nat.pow_add]
    exact Nat.lt_of_lt_of_le Nat.lt_log2_self (Nat.pow_le_pow_right (by omega) (by omega))
  · refine or_iff_not_imp_left.2 fun h0 => ?_
    have hn : n ≠ 0 := by rintro rfl; rw [Nat.log2_zero] at he; omega
    rw [Nat.le_div_iff_mul_le (Nat.two_pow_pos _), ← Nat.pow_add]
    exact Nat.le_trans (Nat.pow_le_pow_right (by omega) (by omega)) (Nat.log2_self_le hn)
  · unfold roundMag
    dsimp only
    rw [Nat.add_sub_cancel_left, he, Nat.add_sub_cancel]

/-- The neighbouring patterns around a magnitude, and which of the two it rounds to. -/
theorem roundMag_bracket (n k : Nat) : ∃ f, patMag f * 2 ^ k ≤ n ∧ n < patMag (f + 1) * 2 ^ k ∧
    roundMag n (149 + k) = min
      (if 2 * n < (patMag f + patMag (f + 1)) * 2 ^ k then f
        else if (patMag f + patMag (f + 1)) * 2 ^ k < 2 * n then f + 1 else f + f % 2) 0x7F800000 := by
  obtain ⟨e, hd, hnorm, hround⟩ := roundMag_grid n k
  rw [hround, divNearestEven_eq_of_midpoint]
  have hdm := Nat.div_add_mod n (2 ^ (e + k))
  have hr := Nat.mod_lt n (Nat.two_pow_pos (e + k))
  generalize n / 2 ^ (e + k) = d at *
  have hlo : patMag (e * 2 ^ 23 + d) * 2 ^ k = 2 ^ (e + k) * d := by
    rw [patMag_mul_add (by omega) hnorm]; ring
  have hhi : patMag (e * 2 ^ 23 + d + 1) * 2 ^ k = 2 ^ (e + k) * d + 2 ^ (e + k) := by
    rw [Nat.add_assoc, patMag_mul_add (by omega) (by omega)]; ring
  have hmid : (2 * d + 1) * 2 ^ (e + k) = (patMag (e * 2 ^ 23 + d) + patMag (e * 2 ^ 23 + d + 1)) * 2 ^ k := by
    rw [Nat.add_mul (patMag _), hlo, hhi]; ring
  refine ⟨e * 2 ^ 23 + d, by omega, by omega, ?_⟩
  rw [hmid]
  congr 1
  split
  · rfl
  · split <;> omega

/-- `r` is the pattern a magnitude of num / den units rounds to: at most p exactly where num / den lies below the
midpoint of the patterns p and p + 1, or on it with p even. -/
def RoundsTo (num den r : Nat) : Prop :=
  r ≤ 0x7F800000 ∧ ∀ p, p < 0x7F800000 →
    (r ≤ p ↔ 2 * num < (patMag p + patMag (p + 1)) * den
      ∨ 2 * num = (patMag p + patMag (p + 1)) * den ∧ p % 2 = 0)

theorem patMag_mul_le {p p' : Nat} (h : p ≤ p') (den : Nat) : patMag p * den ≤ patMag p' * den :=
  Nat.mul_le_mul_right _ (patMag_mono h)

theorem patMag_mul_lt_succ (p : Nat) {den : Nat} (hden : 0 < den) : patMag p * den < patMag (p + 1) * den :=
  Nat.mul_lt_mul_of_pos_right (patMag_lt_succ p) hden

theorem roundsTo_roundMag (n k : Nat) : RoundsTo n (2 ^ k) (roundMag n (149 + k)) := by
  refine ⟨roundMag_le _ _, fun p hp => ?_⟩
  obtain ⟨f, hlo, hhi, hr⟩ := roundMag_bracket n k
  have hstep := patMag_mul_lt_succ p (Nat.two_pow_pos k)
  rw [hr]
  simp only [Nat.add_mul]
  rcases Nat.lt_trichotomy p f with h | rfl | h
  · have hbelow := patMag_mul_le (show p + 1 ≤ f from h) (2 ^ k)
    split_ifs <;> omega
  · split_ifs <;> omega
  · have habove := patMag_mul_le (show f + 1 ≤ p from h) (2 ^ k)
    split_ifs <;> omega

/-! ## What the order fact says: zero, overflow, least distance, ties -/

theorem RoundsTo.eq_zero {den r : Nat} (hden : 0 < den) (h : RoundsTo 0 den r) : r = 0 := by
  have hpos : 0 < (patMag 0 + patMag (0 + 1)) * den := Nat.mul_pos (by decide) hden
  have := (h.2 0 (by omega)).2 (.inl hpos)
  omega

/-- The result is finite exactly below the overflow threshold, the midpoint of the greatest finite value and 2^128. -/
theorem RoundsTo.lt_inf_iff {num den r : Nat} (h : RoundsTo num den r) :
    r < 0x7F800000 ↔ num < (2 ^ 25 - 1) * 2 ^ 252 * den := by
  have hmid : patMag 0x7F7FFFFF + patMag (0x7F7FFFFF + 1) = 2 * ((2 ^ 25 - 1) * 2 ^ 252) := by decide +kernel
  have := h.2 0x7F7FFFFF (by omega)
  rw [hmid, Nat.mul_assoc] at this
  omega

/-- No pattern is nearer than the rounded one, and where another is as near the rounded one is even. -/
theorem RoundsTo.nearest {num den r : Nat} (hden : 0 < den) (h : RoundsTo num den r) (hr : r < 0x7F800000) (p : Nat) :
    (((patMag r * den : Nat) : Int) - num).natAbs ≤ (((patMag p * den : Nat) : Int) - num).natAbs
      ∧ ((((patMag r * den : Nat) : Int) - num).natAbs = (((patMag p * den : Nat) : Int) - num).natAbs →
          p ≠ r → r % 2 = 0) := by
  have hiff := h.2
  simp only [Nat.add_mul] at hiff
  rcases Nat.lt_trichotomy p r with hp | rfl | hp
  · obtain ⟨m, rfl⟩ : ∃ m, r = m + 1 := ⟨r - 1, by omega⟩
    have hmid := hiff m (by omega)
    have hbelow := patMag_mul_le (show p ≤ m by omega) den
    have hstep := patMag_mul_lt_succ m hden
    omega
  · exact ⟨Nat.le_refl _, fun _ h => absurd rfl h⟩
  · have hmid := hiff r hr
    have habove := patMag_mul_le (show r + 1 ≤ p from hp) den
    have hstep := patMag_mul_lt_succ r hden
    omega

/-! ## From magnitudes to words -/

theorem natAbs_unitsOf_mul (w : Word) (den : Nat) : (unitsOf w * den).natAbs = magOf w * den := by
  rw [Int.natAbs_mul, natAbs_unitsOf, Int.natAbs_natCast]

theorem getLsbD_zero_withSign (neg : Bool) {p : Nat} (hp : p < 2 ^ 31) :
    (withSign neg p).getLsbD 0 = decide (p % 2 = 1) := by
  have hpar : (withSign neg p).toNat % 2 = p % 2 := by rw [withSign_toNat neg hp]; split <;> omega
  rw [BitVec.getLsbD, Nat.testBit_zero, hpar]

/-- A value with the sign of the exact result is as far from it as the magnitudes are apart. -/
theorem natAbs_withSign_sub {num : Int} {den r : Nat} {neg : Bool} (hr : r < 2 ^ 31)
    (hneg : num ≠ 0 → neg = decide (num < 0)) :
    (unitsOf (withSign neg r) * den - num).natAbs = (((patMag r * den : Nat) : Int) - num.natAbs).natAbs := by
  rw [unitsOf, signOf_withSign neg hr, magOf_eq, withSign_pattern neg hr]
  cases neg
  · have hnum : 0 ≤ num := by
      by_contra hc
      exact of_decide_eq_false (hneg (by omega)).symm (by omega)
    rw [if_neg (by decide), ← Int.natCast_mul]
    omega
  · have hnum : num ≤ 0 := by
      by_contra hc
      exact absurd (of_decide_eq_true (hneg (by omega)).symm) (by omega)
    rw [if_pos rfl, Int.neg_mul, ← Int.natCast_mul]
    omega

/-- A rounded magnitude under the sign of the exact result is the nearest binary32 value. -/
theorem nearestTo_withSign {num : Int} {den r : Nat} {neg : Bool} (hden : 0 < den)
    (hneg : num ≠ 0 → neg = decide (num < 0)) (h : RoundsTo num.natAbs den r) :
    nearestTo num den (withSign neg r) := by
  have hr31 : r < 2 ^ 31 := Nat.lt_of_le_of_lt h.1 (by decide)
  have hzero : num = 0 → r = 0 := by rintro rfl; exact h.eq_zero hden
  unfold nearestTo
  rw [isFinite_eq, isInf_eq, withSign_pattern neg hr31, signOf_withSign neg hr31, getLsbD_zero_withSign neg hr31]
  by_cases hr : r < 0x7F800000
  · rw [if_pos (by simpa using hr)]
    refine ⟨h.lt_inf_iff.1 hr, fun w _ => ?_⟩
    have hdist := natAbs_withSign_sub (den := den) hr31 hneg
    obtain ⟨hle, htie⟩ := h.nearest hden hr (w.toNat % 2 ^ 31)
    rw [← magOf_eq, ← natAbs_unitsOf_mul] at hle htie
    refine ⟨by omega, fun heq hne => decide_eq_false ?_⟩
    by_cases hp : w.toNat % 2 ^ 31 = r
    · have hw : (unitsOf w * den).natAbs = (unitsOf (withSign neg r) * den).natAbs := by
        rw [natAbs_unitsOf_mul, natAbs_unitsOf_mul, magOf_eq, magOf_eq, hp, withSign_pattern neg hr31]
      have hne' : unitsOf w * den ≠ unitsOf (withSign neg r) * den :=
        fun h => hne (Int.eq_of_mul_eq_mul_right (by omega) h)
      have := hzero (by omega)
      omega
    · have := htie (by omega) hp
      omega
  · rw [if_neg (by simpa using hr)]
    have hinf := h.1
    have hlt := mt h.lt_inf_iff.2 hr
    exact ⟨decide_eq_true (by omega), hneg fun h0 => by have := hzero h0; omega, by omega⟩

/-! ## The quotient with its sticky bit -/

/-- The sticky bit keeps every comparison of a quotient with an integer. -/
theorem sticky_div_lt_iff {n d : Nat} (hd : 0 < d) (m : Nat) :
    sticky (n / d) (n % d != 0) < 2 * m ↔ n < m * d := by
  have hlt : n / d < m ↔ n < m * d := Nat.div_lt_iff_lt_mul hd
  have hb := Bool.toNat_le (n % d != 0)
  unfold sticky
  omega

theorem sticky_div_eq_iff {n d : Nat} (hd : 0 < d) (m : Nat) :
    sticky (n / d) (n % d != 0) = 2 * m ↔ n = m * d := by
  have hb := Bool.toNat_le (n % d != 0)
  unfold sticky
  constructor
  · intro h
    have hq : n / d = m := by omega
    have h0 : (n % d != 0).toNat = 0 := by omega
    have hr : n % d = 0 := by simpa using h0
    rw [← Nat.div_add_mod n d, hr, hq, Nat.add_zero, Nat.mul_comm]
  · rintro rfl
    simp [Nat.mul_div_cancel _ hd]

theorem roundsTo_quotient {a d : Nat} (hd : 0 < d) :
    RoundsTo (a * 2 ^ 149) d (roundMag (sticky (a * 2 ^ 152 / d) (a * 2 ^ 152 % d != 0)) 153) := by
  refine ⟨roundMag_le _ _, fun p hp => ?_⟩
  rw [(roundsTo_roundMag _ 4).2 p hp]
  have hlt := sticky_div_lt_iff (n := a * 2 ^ 152) hd (4 * (patMag p + patMag (p + 1)))
  have heq := sticky_div_eq_iff (n := a * 2 ^ 152) hd (4 * (patMag p + patMag (p + 1)))
  rw [Nat.mul_assoc] at hlt heq
  omega

/-! ## The operators -/

theorem fadd_of_isFinite {a b : Word} (ha : isFinite a = true) (hb : isFinite b = true) :
    ∃ neg, (unitsOf a + unitsOf b ≠ 0 → neg = decide (unitsOf a + unitsOf b < 0)) ∧
      fadd a b = roundTo neg (unitsOf a + unitsOf b).natAbs 149 := by
  simp only [fadd, isNaN_of_isFinite ha, isNaN_of_isFinite hb, isInf_of_isFinite ha, isInf_of_isFinite hb]
  by_cases hx : unitsOf a + unitsOf b = 0
  · refine ⟨signOf a && signOf b, fun h => absurd hx h, ?_⟩
    rw [hx, Int.natAbs_zero, roundTo, roundMag_zero]
    cases signOf a && signOf b <;> rfl
  · exact ⟨_, fun _ => rfl, by simp [hx]⟩

theorem fmul_of_isFinite {a b : Word} (ha : isFinite a = true) (hb : isFinite b = true) :
    fmul a b = roundTo (signOf a != signOf b) (magOf a * magOf b) 298 := by
  simp [fmul, isNaN_of_isFinite ha, isNaN_of_isFinite hb, isInf_of_isFinite ha, isInf_of_isFinite hb]

theorem fdiv_of_isFinite {a b : Word} (ha : isFinite a = true) (hb : isFinite b = true) (h0 : magOf b ≠ 0) :
    fdiv a b = roundTo (signOf a != signOf b)
      (sticky (magOf a * 2 ^ 152 / magOf b) (magOf a * 2 ^ 152 % magOf b != 0)) 153 := by
  simp [fdiv, isNaN_of_isFinite ha, isNaN_of_isFinite hb, isInf_of_isFinite ha, isInf_of_isFinite hb, h0]

theorem signOf_eq_of_unitsOf_ne_zero {w : Word} (h : unitsOf w ≠ 0) : signOf w = decide (unitsOf w < 0) := by
  unfold unitsOf at *
  cases hs : signOf w <;> simp [hs] at h ⊢
  omega

/-- The sign of a product or quotient that is not zero. -/
theorem signOf_bne {a b : Word} (h : unitsOf a * unitsOf b ≠ 0) :
    (signOf a != signOf b) = decide (unitsOf a * unitsOf b < 0) := by
  obtain ⟨ha, hb⟩ := mul_ne_zero_iff.1 h
  rw [signOf_eq_of_unitsOf_ne_zero ha, signOf_eq_of_unitsOf_ne_zero hb, Bool.eq_iff_iff]
  simp only [bne_iff_ne, ne_eq, decide_eq_decide, decide_eq_true_eq, mul_neg_iff]
  omega

theorem nearestTo_fadd {a b : Word} (ha : isFinite a = true) (hb : isFinite b = true) :
    nearestTo (unitsOf a + unitsOf b) 1 (fadd a b) := by
  obtain ⟨neg, hneg, heq⟩ := fadd_of_isFinite ha hb
  rw [heq]
  exact nearestTo_withSign Nat.one_pos hneg (roundsTo_roundMag _ 0)

theorem nearestTo_fsub {a b : Word} (ha : isFinite a = true) (hb : isFinite b = true) :
    nearestTo (unitsOf a - unitsOf b) 1 (fsub a b) := by
  have h := nearestTo_fadd ha (b := fneg b) (by rwa [isFinite_fneg])
  rwa [unitsOf_fneg, ← sub_eq_add_neg] at h

theorem nearestTo_fmul {a b : Word} (ha : isFinite a = true) (hb : isFinite b = true) :
    nearestTo (unitsOf a * unitsOf b) (2 ^ 149) (fmul a b) := by
  rw [fmul_of_isFinite ha hb]
  refine nearestTo_withSign (Nat.two_pow_pos _) signOf_bne ?_
  rw [Int.natAbs_mul, natAbs_unitsOf, natAbs_unitsOf]
  exact roundsTo_roundMag _ 149

theorem nearestTo_fdiv {a b : Word} (ha : isFinite a = true) (hb : isFinite b = true) (h0 : unitsOf b ≠ 0) :
    nearestTo (unitsOf a * (unitsOf b).sign * 2 ^ 149) (magOf b) (fdiv a b) := by
  have hmag : magOf b ≠ 0 := by rwa [← natAbs_unitsOf, Int.natAbs_ne_zero]
  rw [fdiv_of_isFinite ha hb hmag]
  refine nearestTo_withSign (Nat.pos_of_ne_zero hmag) ?_ ?_
  · intro hne
    have hab : unitsOf a * unitsOf b ≠ 0 := mul_ne_zero (fun h => hne (by rw [h, Int.zero_mul, Int.zero_mul])) h0
    rw [signOf_bne hab, decide_eq_decide, ← not_le (b := _ * 2 ^ 149), mul_nonneg_iff_of_pos_right (by decide),
      not_le, mul_neg_iff, mul_neg_iff, Int.sign_neg_iff, Int.sign_pos_iff]
  · rw [Int.natAbs_mul, Int.natAbs_mul, natAbs_unitsOf, Int.natAbs_sign_of_ne_zero h0, Nat.mul_one]
    exact roundsTo_quotient (Nat.pos_of_ne_zero hmag)

/-- Settles O60: each operator is a sign and a magnitude rounded by `roundMag`, which `RoundsTo` makes the nearest. -/
theorem operatorsRoundToNearestEven : Obligations.OperatorsRoundToNearestEven := fun _ _ ha hb =>
  ⟨nearestTo_fadd ha hb, nearestTo_fsub ha hb, nearestTo_fmul ha hb, nearestTo_fdiv ha hb⟩

end Sys2Proof.Machine


/-! What every command and every step keeps, in layers: what a command's common checks, EPREP and EPROC can answer, said
once each; an invariant of every command is one of every step; a predicate of a delay line that pushes, clears and base
changes keep is kept by every command. -/

namespace Sys2Proof.Machine

/-! ## What the checks can answer -/

theorem whenPrepared_keeps {P : State → Prop} {s k : State} (hFault : ∀ e, e ≠ .noFault → P (s.faulted e))
    (hRun : s.status.prepared = true → P k) : P (whenPrepared s k) :=
  whenPrepared_cases (fun _ => hFault _ (by decide)) hRun

theorem onUnit_keeps {P : State → Prop} {limit u : Nat} {s : State} {k : Fin limit → State}
    (hFault : ∀ e, e ≠ .noFault → P (s.faulted e)) (hRun : ∀ i : Fin limit, P (k i)) : P (onUnit limit u s k) :=
  onUnit_cases (fun _ => hFault _ (by decide)) (fun _ _ => hFault _ (by decide)) fun i _ _ => hRun i

/-- DLPREP and APPREP refuse a capacity that does not fit (R90, R100). -/
theorem capacityCheck_keeps {P : State → Prop} {s t : State} {capMax need : Nat}
    (hFault : ∀ e, e ≠ .noFault → P (s.faulted e)) (hFits : need ≤ capMax → P t) :
    P (if capMax < need then raise .badConfig s else t) := by
  split
  · exact hFault _ (by decide)
  · next h => exact hFits (Nat.le_of_not_lt h)

/-- Everything EPREP can do (R146). -/
theorem eprep_cases {P : State → Prop} {c : Cfg} {s : State} {nch : Nat} {fsHi fsLo maxBlock : Word}
    (hBad : P (s.faulted .badConfig))
    (hRun : (sizingOf c s.draws (joinWords fsHi fsLo)).fits c = true →
      P (s.prepare c nch (joinWords fsHi fsLo) maxBlock (sizingOf c s.draws (joinWords fsHi fsLo)))) :
    P (eprep c nch fsHi fsLo maxBlock s) := by
  unfold eprep
  dsimp only
  split
  · next h =>
    simp only [prepareAllowed, Bool.and_eq_true] at h
    exact hRun h.2
  · exact hBad

/-- Everything EPROC can do (R151). -/
theorem eproc_keeps {P : State → Prop} {c : Cfg} {s : State} {nch : Nat} {numSamples : Word}
    (hFault : ∀ e, e ≠ .noFault → P (s.faulted e))
    (hRun : P (State.samples c nch (u32 numSamples) (s.applySnapshot c).beginBlock).endBlock) :
    P (eproc c nch numSamples s) := by
  refine whenPrepared_keeps hFault fun _ => ?_
  split
  · exact hFault _ (by decide)
  · split
    · exact hFault _ (by decide)
    · split
      · exact hFault _ (by decide)
      · exact hRun

/-! ## From commands to steps -/

/-- An invariant that neither the port nor a fault touches, and that every command keeps, is kept by every step. -/
theorem stepIn_keeps {P : State → Prop} {c : Cfg}
    (hPort : ∀ s words d, P s → P { s with cmd := words, draws := d })
    (hFault : ∀ s e, e ≠ .noFault → P s → P (s.faulted e))
    (hExec : ∀ i s, P s → P (execIn c i s)) {s t : State} (hs : P s) (h : stepIn c s = .next t) : P t := by
  obtain ⟨-, rfl⟩ | ⟨-, i, rest, -, rfl⟩ | ⟨-, r, -, -, rfl⟩ | ⟨-, r, -, -, rfl⟩ := stepIn_cases h
  · exact hPort s _ _ hs
  · exact hExec i _ (hPort s _ _ hs)
  · exact hs
  · exact hFault _ _ (by decide) (hPort s _ _ hs)

/-! ## Predicates of the delay lines -/

/-- A predicate of each line that a push (R95), a clear (R92) and a new base inside the guard (R94, R123) keep. -/
structure LineClosed (p : Fin 18 → DelayLine → Prop) : Prop where
  push : ∀ u d x, p u d → p u (d.push x)
  cleared : ∀ u d, p u d → p u d.cleared
  base : ∀ u d b, b ≤ d.cap - 4 → p u d → p u { d with base := b }

/-- Every line has the predicate. -/
def State.Lines (p : Fin 18 → DelayLine → Prop) (s : State) : Prop := ∀ u : Fin 18, p u s.dl[u]

/-- The predicate holds of every newly sized line that fits (R90). -/
def FreshLines (c : Cfg) (p : Fin 18 → DelayLine → Prop) : Prop :=
  ∀ u m, m + 4 ≤ c.capMax → p u (DelayLine.prepared m)

theorem lineClosed_cap (k : Fin 18 → Nat) : LineClosed fun u d => d.cap = k u :=
  ⟨fun _ _ _ h => h, fun _ _ h => h, fun _ _ _ _ h => h⟩

theorem LineClosed.or {p q : Fin 18 → DelayLine → Prop} (hp : LineClosed p) (hq : LineClosed q) :
    LineClosed fun u d => p u d ∨ q u d where
  push u d x := Or.imp (hp.push u d x) (hq.push u d x)
  cleared u d := Or.imp (hp.cleared u d) (hq.cleared u d)
  base u d b hb := Or.imp (hp.base u d b hb) (hq.base u d b hb)

section
variable {p : Fin 18 → DelayLine → Prop} {s t : State}

theorem State.Lines.congr (h : s.Lines p) (e : t.dl = s.dl) : t.Lines p := fun u => e ▸ h u

theorem State.Lines.setDL (h : s.Lines p) {u : Fin 18} {d : DelayLine} (hd : p u d) : (s.setDL u d).Lines p :=
  forall_set h hd

theorem State.Lines.whenPrepared (h : s.Lines p) (ht : t.Lines p) : (whenPrepared s t).Lines p :=
  whenPrepared_keeps (fun _ _ => h) fun _ => ht

theorem State.Lines.onUnit {limit u : Nat} {k : Fin limit → State} (h : s.Lines p) (hk : ∀ i, (k i).Lines p) :
    (onUnit limit u s k).Lines p := onUnit_keeps (fun _ _ => h) hk

theorem State.Lines.capacityCheck {capMax need : Nat} (h : s.Lines p) (ht : need ≤ capMax → t.Lines p) :
    State.Lines p (if capMax < need then raise .badConfig s else t) := capacityCheck_keeps (fun _ _ => h) ht

/-- A predicate of the lines survives a change of the network lines that keeps it. -/
theorem lines_of_mapLanes {dl : Vector DelayLine 18} {f : Fin 8 → DelayLine → DelayLine} (h : ∀ u : Fin 18, p u dl[u])
    (ht : t.dl = mapLanes dl f) (hf : ∀ i u d, p u d → p u (f i d)) : t.Lines p := fun u => by
  rw [ht, get_mapLanes]
  split
  · exact hf _ _ _ (h u)
  · exact h u

end

/-! ## The lines the operations leave -/

theorem State.relength_dl (s : State) (c : Cfg) : (s.relength c).dl = mapLanes s.dl fun i d =>
    { d with base := laneLength c s.fsr s.fdn.scale d.cap i } := by dsimp only [State.relength, State.newLines]

theorem State.tickState_dl (s : State) (c : Cfg) (x : Word) : (s.tickState c x).dl = mapLanes s.dl fun i d =>
    d.push (sealNaN s.draws (.ram (fdnLine i)) (s.tickPushed c x i)) := by dsimp only [State.tickState, State.tickDL]

theorem State.prepare_dl (s : State) (c : Cfg) (nch : Nat) (fs64 : DWord) (maxBlock : Word) (z : Sizing) :
    (s.prepare c nch fs64 maxBlock z).dl = mapLanes (preparedLines z) fun i d =>
      { d with base := laneLength c z.fsr lit1 d.cap i } := by
  dsimp only [State.prepare, State.setStatus, State.relength, State.newLines, Fdn.prepared]

/-- One sample of a diffuser stores its line alone (R103). -/
theorem State.allpass_snd (s : State) (a : Fin 8) (x : Word) : (s.allpass a x).2 =
    s.setDL (apLine a) (s.dl[apLine a].push (sealNaN s.draws (.ram (apLine a))
      (allpassPushed s.apG[a] x (s.allpass a x).1))) := rfl

theorem Sizing.fits_iff {c : Cfg} {z : Sizing} : z.fits c = true ↔
    z.predelayMax + 4 ≤ c.capMax ∧ ∀ i : Fin 8, z.apLen[i] + 4 ≤ c.capMax ∧ z.fdnMax[i] + 4 ≤ c.capMax := by
  simp only [Sizing.fits, Bool.and_eq_true, decide_eq_true_eq, List.all_eq_true, List.mem_finRange, true_implies]

/-! ## What keeps a closed predicate -/

section
variable {p : Fin 18 → DelayLine → Prop} (hp : LineClosed p)
include hp

theorem LineClosed.allpassLine {c : Cfg} (hNew : FreshLines c p) (u : Fin 18) {m : Nat} (hm : m + 4 ≤ c.capMax) :
    p u (allpassLine m) := by
  refine hp.base u _ m ?_ (hNew u m hm)
  have := le_nextPow2 (m + 4)
  exact Nat.le_sub_of_add_le this

theorem LineClosed.relength {s : State} (h : s.Lines p) (c : Cfg) : (s.relength c).Lines p :=
  lines_of_mapLanes h (s.relength_dl c) fun _ u d => hp.base u d _ (clampInt_le _ _ _)

theorem LineClosed.tickState {s : State} (h : s.Lines p) (c : Cfg) (x : Word) : (s.tickState c x).Lines p :=
  lines_of_mapLanes h (s.tickState_dl c x) fun _ u d => hp.push u d _

theorem LineClosed.clearAudio {s : State} (h : s.Lines p) : s.clearAudio.Lines p := fun u => by
  rw [State.clearAudio, get_ofFn]
  exact hp.cleared u _ (h u)

theorem LineClosed.withBase {s : State} (h : s.Lines p) (u : Fin 18) (b : Nat) :
    (s.setDL u (s.dl[u].withBase b)).Lines p := h.setDL (hp.base u _ _ (Nat.min_le_right _ _) (h u))

theorem LineClosed.pushed {s : State} (h : s.Lines p) (u : Fin 18) (x : Word) :
    (s.setDL u (s.dl[u].push x)).Lines p := h.setDL (hp.push u _ x (h u))

theorem LineClosed.setPredelay {s : State} (h : s.Lines p) (pd : Nat) : (s.setPredelay pd).Lines p := by
  unfold State.setPredelay
  exact (hp.withBase h 0 pd).setDL (hp.base 1 _ _ (Nat.min_le_right _ _) (h 1))

theorem LineClosed.setSize {s : State} (h : s.Lines p) (c : Cfg) (w : Word) : (s.setSize c w).Lines p :=
  hp.relength (h.congr (s.setFdn_dl _)) c

theorem LineClosed.setRT60 {s : State} (h : s.Lines p) (c : Cfg) (w : Word) : (s.setRT60 c w).Lines p :=
  hp.relength (h.congr (s.setFdn_dl _)) c

theorem LineClosed.applySnapshot {s : State} (h : s.Lines p) (c : Cfg) : (s.applySnapshot c).Lines p :=
  State.applySnapshot_keeps (P := State.Lines p) c (fun t h => h.congr (t.seedAll_dl c))
    (fun _ pd h => hp.setPredelay h pd) (fun t g h => h.congr (t.setDiffusion_dl g)) (fun _ w h => hp.setSize h c w)
    (fun _ w h => hp.setRT60 h c w) (fun t w h => h.congr (t.setDamp_dl c w))
    (fun t r d h => h.congr (t.setMod_dl c r d)) (fun t on h => h.congr (t.setFreeze_dl on))
    (fun t f w h => h.congr (t.setCutoff_dl c f w))
    (fun t k w h => h.congr (t.setTarget_dl k w)) (fun t h => h.congr t.finishFirst_dl) s h

theorem LineClosed.allpass {s : State} (h : s.Lines p) (a : Fin 8) (x : Word) : (s.allpass a x).2.Lines p := by
  rw [s.allpass_snd]
  exact hp.pushed h _ _

theorem LineClosed.sample {s : State} (h : s.Lines p) (c : Cfg) (nch n : Nat) : (s.sample c nch n).Lines p :=
  State.sample_keeps (P := State.Lines p) c (fun _ u x _ h => hp.pushed h u x) (fun _ a x h => hp.allpass h a x)
    (fun _ x h => hp.tickState h c x) (fun t k h => h.congr (t.smooth_snd_dl k))
    (fun t f x h => h.congr (t.lowpass_snd_dl f x))
    (fun t nch n l r h => h.congr (t.writeBack_dl c nch n l r)) nch n s h

theorem LineClosed.samples {s : State} (h : s.Lines p) (c : Cfg) (nch k : Nat) : (s.samples c nch k).Lines p :=
  State.samples_keep (P := State.Lines p) c nch (fun n _ h => hp.sample h c nch n)
    (fun t h => h.congr t.advance_dl) k s h

/-- EPREP sizes every line afresh (R146, R121), whatever the lines were. -/
theorem LineClosed.prepare {c : Cfg} (hNew : FreshLines c p) (s : State) (nch : Nat) (fs64 : DWord) (maxBlock : Word)
    {z : Sizing} (hz : z.fits c = true) : (s.prepare c nch fs64 maxBlock z).Lines p := by
  obtain ⟨hpd, hrest⟩ := Sizing.fits_iff.1 hz
  have hlines : ∀ u : Fin 18, p u (preparedLines z)[u] := fun u => by
    rw [preparedLines, get_ofFn]
    split
    · exact hNew u _ hpd
    · split
      · exact hp.allpassLine hNew u (hrest ⟨u.val - 2, by omega⟩).1
      · exact hNew u _ (hrest ⟨u.val - 10, by omega⟩).2
  exact lines_of_mapLanes hlines (s.prepare_dl c nch fs64 maxBlock z) fun _ u d => hp.base u d _ (clampInt_le _ _ _)

theorem LineClosed.block {s : State} (h : s.Lines p) (c : Cfg) (nch k : Nat) :
    (State.samples c nch k (s.applySnapshot c).beginBlock).endBlock.Lines p :=
  (hp.samples ((hp.applySnapshot h c).congr (State.beginBlock_dl _)) c nch k).congr (State.endBlock_dl _)

/-- Every command keeps a closed predicate of the lines, if the lines that a preparing command makes have it. -/
theorem execIn_lines {c : Cfg} {i : Instr} {s : State}
    (hNew : i.op = .eprep ∨ i.op = .dlprep ∨ i.op = .apprep → FreshLines c p) (h : s.Lines p) :
    (execIn c i s).Lines p := by
  cases i with
  | eprep nch hi lo mb => exact eprep_cases (P := State.Lines p) h (hp.prepare (hNew (.inl rfl)) s _ _ _)
  | erst => exact h.whenPrepared (hp.clearAudio h)
  | eproc nch n => exact eproc_keeps (P := State.Lines p) (fun _ _ => h) (hp.block h c nch (u32 n))
  | dlprep u m => exact h.onUnit fun j => h.capacityCheck fun hm => h.setDL (hNew (.inr (.inl rfl)) j _ hm)
  | apprep a m =>
    exact h.onUnit fun j => h.capacityCheck fun hm => h.setDL (hp.allpassLine (hNew (.inr (.inr rfl))) (apLine j) hm)
  | dlrst u => exact h.onUnit fun j => h.setDL (hp.cleared j _ (h j))
  | aprst a => exact h.onUnit fun j => h.setDL (hp.cleared (apLine j) _ (h (apLine j)))
  | dlsetd u d => exact h.onUnit fun j => hp.withBase h j (u32 d)
  | dlpush u x => exact h.onUnit fun j => hp.pushed h j x
  | dlproc u mode x d m => exact h.onUnit fun j => (hp.pushed h j x).congr (State.putRes_dl _ _ _)
  | approc a x => exact h.onUnit fun j => (hp.allpass h j x).congr (State.putRes_dl _ _ _)
  | fsetsize w => exact h.whenPrepared (hp.setSize h c w)
  | fsetrt60 w => exact h.whenPrepared (hp.setRT60 h c w)
  | ftick x => exact h.whenPrepared ((hp.tickState h c x).congr (State.putAllRes_dl _ _))
  | esetp _ | fsetdamp _ | fsetmod _ _ | fsetfrz _ | fmix _ _ => exact h.whenPrepared (h.congr (by simp))
  | dlrdlin _ _ _ | dlrdlag _ _ _ | apsetg _ _ | lprst _ | lpsetc _ _ | lpproc _ _ | lfoseed _ _ | lfosetr _ _
  | lfosetd _ _ | lfonext _ | smset _ _ | smnext _ | smsnap _ => exact h.onUnit fun _ => h.congr (by simp)

end

end Sys2Proof.Machine

/-! Which command writes which register (spec/10_state.md R22 to R27; spec/20_memory.md R50), and the memories, which
every step keeps sound (R28, R52, R99). All but three commands leave every control register alone, so a statement about
one of these registers is a case analysis into EPREP, ESETP, EPROC and the rest (`execIn_cases`). -/

namespace Sys2Proof.Machine

/-! ## Which command writes which register -/

/-- The configuration, the derived constants and `PREPARED`, which EPREP alone writes (R24, R25). -/
structure Config where
  fs64 : DWord
  fs : Word
  fsr : Word
  maxBlock : Word
  nch : Word
  xfAlpha : Word
  smN : Nat
  prepared : Bool

/-- What EPREP and ESETP alone write, and the port, which no command touches (R24, R25, R27, R70). -/
structure Setup where
  config : Config
  prm : Vector Word 13
  pvalid : Bool
  cmd : List Word

/-- The control registers: what a command that is none of EPREP, ESETP and EPROC leaves alone, a fault included. They
are the setup and what EPROC writes besides units (R22, R50, R150). -/
structure Control where
  setup : Setup
  first : Bool
  buf : Mem
  n : Option Nat

/-- The configuration of a state. -/
def State.config (s : State) : Config where
  fs64 := s.fs64
  fs := s.fs
  fsr := s.fsr
  maxBlock := s.maxBlock
  nch := s.nch
  xfAlpha := s.xfAlpha
  smN := s.smN
  prepared := s.status.prepared

/-- The setup of a state. -/
def State.setup (s : State) : Setup where
  config := s.config
  prm := s.prm
  pvalid := s.status.pvalid
  cmd := s.cmd

/-- The control registers of a state. -/
def State.control (s : State) : Control where
  setup := s.setup
  first := s.status.first
  buf := s.buf
  n := s.n

theorem control_whenPrepared {s k : State} (h : k.control = s.control) : (whenPrepared s k).control = s.control :=
  whenPrepared_keeps (P := fun t => t.control = s.control) (fun _ _ => rfl) fun _ => h

theorem control_onUnit {limit u : Nat} {s : State} {k : Fin limit → State} (h : ∀ i, (k i).control = s.control) :
    (onUnit limit u s k).control = s.control :=
  onUnit_keeps (P := fun t => t.control = s.control) (fun _ _ => rfl) h

theorem control_capacityCheck {s t : State} {capMax need : Nat} (h : t.control = s.control) :
    (if capMax < need then raise .badConfig s else t).control = s.control :=
  capacityCheck_keeps (P := fun t => t.control = s.control) (fun _ _ => rfl) fun _ => h

/-- A command is EPREP, ESETP or EPROC, or it leaves the control registers alone. -/
theorem execIn_cases {Q : Op → State → Prop} (c : Cfg) (i : Instr) (s : State)
    (hEprep : ∀ nch hi lo mb, Q .eprep (eprep c nch hi lo mb s))
    (hEsetp : ∀ p, Q .esetp (esetp p s))
    (hEproc : ∀ nch n, Q .eproc (eproc c nch n s))
    (hOther : ∀ o t, t.control = s.control → Q o t) : Q i.op (execIn c i s) := by
  cases i with
  | eprep nch hi lo mb => exact hEprep nch hi lo mb
  | esetp p => exact hEsetp p
  | eproc nch n => exact hEproc nch n
  | erst | fsetsize _ | fsetrt60 _ | fsetdamp _ | fsetmod _ _ | fsetfrz _ | ftick _ | fmix _ _ =>
    exact hOther _ _ (control_whenPrepared (by simp [State.control, State.setup, State.config]))
  | dlprep _ _ | apprep _ _ =>
    exact hOther _ _ (control_onUnit fun _ => control_capacityCheck <| by
      simp [State.control, State.setup, State.config])
  | dlrst _ | dlsetd _ _ | dlpush _ _ | dlrdlin _ _ _ | dlrdlag _ _ _ | dlproc _ _ _ _ _ | aprst _ | apsetg _ _
  | approc _ _ | lprst _ | lpsetc _ _ | lpproc _ _ | lfoseed _ _ | lfosetr _ _ | lfosetd _ _ | lfonext _ | smset _ _
  | smnext _ | smsnap _ =>
    exact hOther _ _ (control_onUnit fun _ => by simp [State.control, State.setup, State.config])

/-- The snapshot application writes units, smoothers and `FIRST`, no setup register and no word of `BUF` (R150). -/
theorem State.applySnapshot_setup_buf (s : State) (c : Cfg) :
    ((s.applySnapshot c).setup, (s.applySnapshot c).buf) = (s.setup, s.buf) := by
  refine State.applySnapshot_keeps (P := fun t => (t.setup, t.buf) = (s.setup, s.buf)) c
    ?_ ?_ ?_ ?_ ?_ ?_ ?_ ?_ ?_ ?_ ?_ s rfl <;>
    (intros; refine Eq.trans ?_ ‹_›; simp [State.setup, State.config, State.finishFirst, Status.afterFirst])

theorem State.applySnapshot_setup (s : State) (c : Cfg) : (s.applySnapshot c).setup = s.setup :=
  congrArg Prod.fst (s.applySnapshot_setup_buf c)

theorem State.applySnapshot_buf (s : State) (c : Cfg) : (s.applySnapshot c).buf = s.buf :=
  congrArg Prod.snd (s.applySnapshot_setup_buf c)

theorem State.samples_setup (s : State) (c : Cfg) (nch k : Nat) : (s.samples c nch k).setup = s.setup :=
  State.samples_keeps s State.setup c nch (fun m t => by simp [State.setup, State.config])
    (fun t => by simp [State.setup, State.config]) k

/-- EPROC writes no setup register, whether it runs or faults. -/
theorem eproc_setup (c : Cfg) (nch : Nat) (n : Word) (s : State) : (eproc c nch n s).setup = s.setup := by
  refine eproc_keeps (P := fun t => t.setup = s.setup) (fun _ _ => rfl) ?_
  calc _ = (State.samples c nch (u32 n) (s.applySnapshot c).beginBlock).setup := by
        simp [State.setup, State.config]
    _ = (s.applySnapshot c).beginBlock.setup := State.samples_setup ..
    _ = (s.applySnapshot c).setup := by simp [State.setup, State.config]
    _ = s.setup := s.applySnapshot_setup c

section
variable {c : Cfg} {i : Instr} {s : State}

theorem execIn_config (h : i.op ≠ .eprep) : (execIn c i s).config = s.config :=
  execIn_cases (Q := fun o t => o ≠ .eprep → t.config = s.config) c i s
    (fun _ _ _ _ h => absurd rfl h)
    (fun _ _ => whenPrepared_keeps (P := fun t => t.config = s.config) (fun _ _ => rfl) fun _ => rfl)
    (fun nch n _ => congrArg Setup.config (eproc_setup c nch n s))
    (fun _ _ e _ => congrArg (·.setup.config) e) h

theorem execIn_prm (h : i.op ≠ .esetp) : (execIn c i s).prm = s.prm :=
  execIn_cases (Q := fun o t => o ≠ .esetp → t.prm = s.prm) c i s
    (fun _ _ _ _ _ => eprep_cases (P := fun t => t.prm = s.prm) rfl fun _ => by simp)
    (fun _ h => absurd rfl h)
    (fun nch n _ => congrArg Setup.prm (eproc_setup c nch n s))
    (fun _ _ e _ => congrArg (·.setup.prm) e) h

theorem execIn_pvalid (hp : i.op ≠ .esetp) (he : i.op ≠ .eprep) :
    (execIn c i s).status.pvalid = s.status.pvalid :=
  execIn_cases (Q := fun o t => o ≠ .esetp → o ≠ .eprep → t.status.pvalid = s.status.pvalid) c i s
    (fun _ _ _ _ _ h => absurd rfl h)
    (fun _ h => absurd rfl h)
    (fun nch n _ _ => congrArg Setup.pvalid (eproc_setup c nch n s))
    (fun _ _ e _ _ => congrArg (·.setup.pvalid) e) hp he

theorem execIn_first (hr : i.op ≠ .eproc) (he : i.op ≠ .eprep) :
    (execIn c i s).status.first = s.status.first :=
  execIn_cases (Q := fun o t => o ≠ .eproc → o ≠ .eprep → t.status.first = s.status.first) c i s
    (fun _ _ _ _ _ h => absurd rfl h)
    (fun _ _ _ => whenPrepared_keeps (P := fun t => t.status.first = s.status.first) (fun _ _ => rfl) fun _ => rfl)
    (fun _ _ h => absurd rfl h)
    (fun _ _ e _ _ => congrArg (·.first) e) hr he

theorem execIn_cap (he : i.op ≠ .eprep) (hd : i.op ≠ .dlprep) (ha : i.op ≠ .apprep) (u : Fin 18) :
    (execIn c i s).dl[u].cap = s.dl[u].cap :=
  execIn_lines (lineClosed_cap fun u => s.dl[u].cap) (fun h => by simp [he, hd, ha] at h) (fun _ => rfl) u

theorem execIn_buf (h : i.op ≠ .eproc) : (execIn c i s).buf = s.buf :=
  execIn_cases (Q := fun o t => o ≠ .eproc → t.buf = s.buf) c i s
    (fun _ _ _ _ _ => eprep_cases (P := fun t => t.buf = s.buf) rfl fun _ => by simp)
    (fun _ _ => whenPrepared_keeps (P := fun t => t.buf = s.buf) (fun _ _ => rfl) fun _ => rfl)
    (fun _ _ h => absurd rfl h)
    (fun _ _ e _ => congrArg (·.buf) e) h

theorem execIn_cmd (c : Cfg) (i : Instr) (s : State) : (execIn c i s).cmd = s.cmd :=
  execIn_cases (Q := fun _ t => t.cmd = s.cmd) c i s
    (fun _ _ _ _ => eprep_cases (P := fun t => t.cmd = s.cmd) rfl fun _ => by simp)
    (fun _ => whenPrepared_keeps (P := fun t => t.cmd = s.cmd) (fun _ _ => rfl) fun _ => rfl)
    (fun nch n => congrArg Setup.cmd (eproc_setup c nch n s))
    (fun _ _ e => congrArg (·.setup.cmd) e)

/-- The sample counter ceases to exist with EPROC (R22). -/
theorem execIn_n (c : Cfg) (i : Instr) (h : s.n = none) : (execIn c i s).n = none :=
  execIn_cases (Q := fun _ t => t.n = none) c i s
    (fun _ _ _ _ => eprep_cases (P := fun t => t.n = none) h fun _ => by simp [h])
    (fun _ => whenPrepared_keeps (P := fun t => t.n = none) (fun _ _ => h) fun _ => h)
    (fun nch n => eproc_keeps (P := fun t => t.n = none) (fun _ _ => h) rfl)
    (fun _ t e => (congrArg (·.n) e : t.n = s.n).trans h)

end

/-- Settles O41: a case analysis into the three commands that write control registers and all others; the capacities are
the closed line predicate `cap = k`. -/
theorem everyRegisterHasItsWriters : Obligations.EveryRegisterHasItsWriters := by
  intro i s t h
  obtain rfl := exec_next.1 h
  exact ⟨fun he => Config.mk.inj (execIn_config he), execIn_prm, execIn_pvalid, execIn_first, execIn_cap, execIn_buf,
    execIn_cmd cfg i s, execIn_n cfg i⟩

/-! ## The memories -/

theorem DelayLine.sound_iff {c : Cfg} {d : DelayLine} : d.sound c = true ↔
    isPow2 d.cap = true ∧ 4 ≤ d.cap ∧ d.cap ≤ c.capMax ∧ d.w < d.cap ∧ d.base ≤ d.cap - 4
      ∧ Memory.wf d.ram = true ∧ memBelow d.cap d.ram = true := by
  simp only [DelayLine.sound, Bool.and_eq_true, decide_eq_true_eq, and_assoc]

theorem lineClosed_sound (c : Cfg) : LineClosed fun _ d => d.sound c = true where
  push u d x h := by
    obtain ⟨hpow, hmin, hmax, hw, hbase, hwf, hin⟩ := DelayLine.sound_iff.1 h
    exact DelayLine.sound_iff.2 ⟨hpow, hmin, hmax, Nat.mod_lt _ (Nat.zero_lt_of_lt hw), hbase,
      Memory.wf_memWrite hwf _ _, memBelow_memWrite hin hw _⟩
  cleared u d h := by
    obtain ⟨hpow, hmin, hmax, hw, hbase, -⟩ := DelayLine.sound_iff.1 h
    exact DelayLine.sound_iff.2 ⟨hpow, hmin, hmax, Nat.zero_lt_of_lt hw, hbase, rfl, rfl⟩
  base u d b hb h := by
    obtain ⟨hpow, hmin, hmax, hw, -, hram⟩ := DelayLine.sound_iff.1 h
    exact DelayLine.sound_iff.2 ⟨hpow, hmin, hmax, hw, hb, hram⟩

/-- A line that fits gets a sound capacity, because `CAP_MAX` is itself a power of two (R5, R90). -/
theorem freshLines_sound {c : Cfg} (hc : isPow2 c.capMax = true) : FreshLines c fun _ d => d.sound c = true := by
  intro _ m hm
  have hcap : m + 4 ≤ nextPow2 (m + 4) := le_nextPow2 _
  exact DelayLine.sound_iff.2 ⟨isPow2_nextPow2 (m + 4), (Nat.le_add_left 4 m).trans hcap, nextPow2_le_of_isPow2 hc hm,
    Nat.zero_lt_of_lt hcap, Nat.zero_le _, rfl, rfl⟩

theorem isPow2_capMax {c : Cfg} (h : c.tablesOk = true) : isPow2 c.capMax = true := by
  simp only [Cfg.tablesOk, Bool.and_eq_true] at h
  tauto

theorem State.writeBack_buf_wf {s : State} (h : Memory.wf s.buf = true) (c : Cfg) (nch n : Nat) (l r : Word) :
    Memory.wf (s.writeBack c nch n l r).buf = true := by
  simp only [State.writeBack]
  split
  · exact Memory.wf_memWrite (Memory.wf_memWrite h _ _) _ _
  · exact Memory.wf_memWrite h _ _

theorem State.sample_buf_wf {s : State} (h : Memory.wf s.buf = true) (c : Cfg) (nch n : Nat) :
    Memory.wf (s.sample c nch n).buf = true := by
  refine State.sample_keeps (P := fun t => Memory.wf t.buf = true) c ?_ ?_ ?_ ?_ ?_ ?_ nch n s h
  case refine_6 => exact fun _ nch n l r h => State.writeBack_buf_wf h c nch n l r
  all_goals intros; simpa

theorem State.block_buf_wf {s : State} (h : Memory.wf s.buf = true) (c : Cfg) (nch k : Nat) :
    Memory.wf (State.samples c nch k (s.applySnapshot c).beginBlock).endBlock.buf = true := by
  have hbegin : Memory.wf (s.applySnapshot c).beginBlock.buf = true := by
    rwa [State.beginBlock_buf, State.applySnapshot_buf]
  rw [State.endBlock_buf]
  exact State.samples_keep (P := fun t => Memory.wf t.buf = true) c nch (fun m _ h => State.sample_buf_wf h c nch m)
    (fun t h => by rwa [t.advance_buf]) k _ hbegin

/-- Every command keeps `BUF` canonical: only the write-back of EPROC reaches it (R50, R160). -/
theorem execIn_buf_wf (c : Cfg) (i : Instr) {s : State} (h : Memory.wf s.buf = true) :
    Memory.wf (execIn c i s).buf = true :=
  execIn_cases (Q := fun _ t => Memory.wf t.buf = true) c i s
    (fun _ _ _ _ => eprep_cases (P := fun t => Memory.wf t.buf = true) h fun _ => by simpa using h)
    (fun _ => whenPrepared_keeps (P := fun t => Memory.wf t.buf = true) (fun _ _ => h) fun _ => h)
    (fun nch n =>
      eproc_keeps (P := fun t => Memory.wf t.buf = true) (fun _ _ => h) (State.block_buf_wf h c nch (u32 n)))
    (fun _ t e => by rwa [show t.buf = s.buf from congrArg (·.buf) e])

theorem eprep_or_not (i : Instr) :
    (∃ nch fsHi fsLo maxBlock, i = .eprep nch fsHi fsLo maxBlock) ∨ i.op ≠ .eprep := by
  cases i with
  | eprep nch fsHi fsLo maxBlock => exact .inl ⟨nch, fsHi, fsLo, maxBlock, rfl⟩
  | _ => exact .inr (by simp [Instr.op])

theorem execIn_memoryInv {c : Cfg} (hc : c.tablesOk = true) (i : Instr) {s : State} (h : MemoryInv c s) :
    MemoryInv c (execIn c i s) := by
  obtain ⟨hbuf, hlines, hprepared⟩ := h
  have hfresh := freshLines_sound (isPow2_capMax hc)
  refine ⟨execIn_buf_wf c i hbuf, ?_, ?_⟩
  · exact execIn_lines ((lineClosed_cap fun _ => 0).or (lineClosed_sound c)) (fun _ u m hm => .inr (hfresh u m hm))
      hlines
  · obtain ⟨nch, hi, lo, mb, rfl⟩ | he := eprep_or_not i
    · exact eprep_cases (P := fun t => t.status.prepared = true → t.Lines fun _ d => d.sound c = true) hprepared
        fun hz _ => (lineClosed_sound c).prepare hfresh s nch _ mb hz
    · intro hp
      have hsame : (execIn c i s).status.prepared = s.status.prepared := congrArg Config.prepared (execIn_config he)
      exact execIn_lines (lineClosed_sound c) (fun _ => hfresh) (hprepared (hsame ▸ hp))

theorem stepIn_memoryInv {c : Cfg} {s t : State} (hc : c.tablesOk = true) (h : MemoryInv c s)
    (hs : stepIn c s = .next t) : MemoryInv c t :=
  stepIn_keeps (fun _ _ _ h => h) (fun _ _ _ h => h) (fun i _ h => execIn_memoryInv hc i h) h hs

/-- Settles O45: soundness of a line, and `cap` = 0 or soundness, are closed line predicates, and EPREP makes every line
sound; `BUF` is written by `memWrite` alone. -/
theorem stepKeepsTheMemoriesSound : Obligations.StepKeepsTheMemoriesSound :=
  ⟨fun _ _ _ hc h hs => stepIn_memoryInv hc h hs,
    fun s _ h hs => stepIn_memoryInv cfgDefault_ok.1 h (step_eq_stepIn s ▸ hs)⟩

end Sys2Proof.Machine


/-! The invariants of the registers (spec/10_state.md R23, R27, R29, R31 to R33), one predicate for each register file
that has one: what the operations that write it store there, and what every command keeps. The sample counter is apart,
because EPROC has one while it runs. -/

namespace Sys2Proof.Machine

/-! ## The invariants, one for each register file -/

/-- R23: `CAUSE` is 0 exactly while `ERR` = 0. -/
def FaultOk (t : Status) : Prop := t.err = false ↔ t.cause = .noFault
/-- R27: `PRM[12]` holds one bit. -/
def FlagOk (prm : Vector Word 13) : Prop := prm[12] &&& 1#32 = prm[12]
/-- R32: the stored gains are in [0, 0.99] and the crossfade target is 0 or 1. -/
def FdnOk (f : Fdn) : Prop :=
  (∀ i : Fin 8, within posZero lit0_99 f.g[i] = true) ∧ (f.xfT = posZero ∨ f.xfT = lit1)
/-- R29: the diffuser gains are in [0, 0.999]. -/
def DiffusersOk (g : Vector Word 8) : Prop := ∀ a : Fin 8, within posZero lit0_999 g[a] = true
/-- R31: the modulation depth is neither negative nor a NaN. -/
def DepthOk (l : Lfo) : Prop := isNaN l.depth = false ∧ 0 ≤ unitsOf l.depth
/-- R31 of every modulator. -/
def DepthsOk (lfo : Vector Lfo 8) : Prop := ∀ i : Fin 8, DepthOk lfo[i]
/-- R33: no ramp is longer than `SM_N`. -/
def RampsOk (smN : Nat) (sm : Vector Smoother 2) : Prop := ∀ k : Fin 2, sm[k].count ≤ smN

/-- The register invariants but for the sample counter. -/
structure RegistersOk (s : State) : Prop where
  fault : FaultOk s.status
  flag : FlagOk s.prm
  fdn : FdnOk s.fdn
  diffusers : DiffusersOk s.apG
  depths : DepthsOk s.lfo
  ramps : RampsOk s.smN s.sm

/-- The invariants name the six register files only: `simp` carries them over an operation that leaves those alone. -/
theorem registersOk_iff {s : State} : RegistersOk s ↔
    FaultOk s.status ∧ FlagOk s.prm ∧ FdnOk s.fdn ∧ DiffusersOk s.apG ∧ DepthsOk s.lfo ∧ RampsOk s.smN s.sm :=
  ⟨fun ⟨hfault, hflag, hfdn, hap, hdepth, hramp⟩ => ⟨hfault, hflag, hfdn, hap, hdepth, hramp⟩,
    fun ⟨hfault, hflag, hfdn, hap, hdepth, hramp⟩ => ⟨hfault, hflag, hfdn, hap, hdepth, hramp⟩⟩

theorem registerInv_iff {s : State} : RegisterInv s ↔ RegistersOk s ∧ s.n = none := by
  constructor
  · rintro ⟨hfault, hn, hflag, hgain, hap, hxf, hdepth, hramp⟩
    exact ⟨⟨hfault, hflag, ⟨hgain, hxf⟩, hap, hdepth, hramp⟩, hn⟩
  · rintro ⟨⟨hfault, hflag, ⟨hgain, hxf⟩, hap, hdepth, hramp⟩, hn⟩
    exact ⟨hfault, hn, hflag, hgain, hap, hxf, hdepth, hramp⟩

/-! ## What is stored in each register file -/

theorem faultOk_withFault (t : Status) {e : Cause} (he : e ≠ .noFault) : FaultOk (t.withFault e) := by
  simp [FaultOk, Status.withFault, he]

theorem flagOk_storedParams (p : Vector Word 13) : FlagOk (storedParams p) := by
  simp [FlagOk, storedParams, BitVec.and_assoc]

theorem FdnOk.congr {f f' : Fdn} (h : FdnOk f) (hg : f'.g = f.g) (ht : f'.xfT = f.xfT) : FdnOk f' := by
  rwa [FdnOk, hg, ht]

theorem laneGain_within (c : Cfg) (fs rt60 : Word) (length : Nat) :
    within posZero lit0_99 (laneGain c fs rt60 length) = true :=
  fclamp_within (by decide) (by decide) (by decide +kernel) _

theorem allpassGain_within (g : Word) : within posZero lit0_999 (allpassGain g) = true :=
  fclamp_within (by decide) (by decide) (by decide +kernel) _

theorem depthOk_withDepth (l : Lfo) (x : Word) : DepthOk (l.withDepth x) := by
  simp only [DepthOk, Lfo.withDepth, depthStored]
  split
  · decide
  · next h =>
    rw [Bool.or_eq_true, not_or, Bool.not_eq_true] at h
    obtain ⟨hnan, hneg⟩ := h
    simp only [flt, hnan, show isNaN posZero = false by decide, show unitsOf posZero = 0 by decide, Bool.not_false,
      Bool.true_and, decide_eq_true_eq, not_lt] at hneg
    exact ⟨hnan, hneg⟩

theorem Smoother.toward_count_le {m : Smoother} {smN : Nat} (h : m.count ≤ smN) (d k : Nat) (t : Word) :
    (m.toward d k smN t).count ≤ smN := by
  unfold Smoother.toward
  split
  · exact h
  · exact Nat.le_refl _

theorem Smoother.advanced_count_le (m : Smoother) (d k : Nat) : (m.advanced d k).count ≤ m.count := by
  unfold Smoother.advanced
  split
  · exact Nat.le_refl _
  · exact Nat.zero_le _
  · next c hc => exact hc ▸ Nat.le_succ (c + 1)

/-! ## What the operations keep -/

namespace RegistersOk

variable {s : State} (h : RegistersOk s)
include h

theorem setStatus {t : Status} (ht : FaultOk t) : RegistersOk (s.setStatus t) :=
  ⟨ht, h.flag, h.fdn, h.diffusers, h.depths, h.ramps⟩

theorem faulted {e : Cause} (he : e ≠ .noFault) : RegistersOk (s.faulted e) :=
  h.setStatus (faultOk_withFault s.status he)

theorem setLFO (i : Fin 8) {l : Lfo} (hl : DepthOk l) : RegistersOk (s.setLFO i l) :=
  ⟨h.fault, h.flag, h.fdn, h.diffusers, forall_set h.depths hl, h.ramps⟩

theorem setSM (k : Fin 2) {m : Smoother} (hm : m.count ≤ s.smN) : RegistersOk (s.setSM k m) :=
  ⟨h.fault, h.flag, h.fdn, h.diffusers, h.depths, forall_set (p := fun _ (m : Smoother) => m.count ≤ s.smN) h.ramps hm⟩

theorem setAPg (a : Fin 8) (g : Word) : RegistersOk (s.setAPg a (allpassGain g)) :=
  ⟨h.fault, h.flag, h.fdn,
    forall_set (p := fun _ g => within posZero lit0_999 g = true) h.diffusers (allpassGain_within g), h.depths, h.ramps⟩

theorem setDiffusion (g : Word) : RegistersOk (s.setDiffusion g) :=
  ⟨h.fault, h.flag, h.fdn, fun a => by simpa [State.setDiffusion] using allpassGain_within g, h.depths, h.ramps⟩

theorem setFdn {f : Fdn} (hf : FdnOk f) : RegistersOk (s.setFdn f) :=
  ⟨h.fault, h.flag, hf, h.diffusers, h.depths, h.ramps⟩

theorem relength (c : Cfg) : RegistersOk (s.relength c) := by
  have hgain : ∀ i : Fin 8, within posZero lit0_99 (s.relength c).fdn.g[i] = true := fun i => by
    simp only [State.relength, State.newGains, get_ofFn]
    exact laneGain_within _ _ _ _
  have hfdn : FdnOk (s.relength c).fdn := ⟨hgain, by simpa only [State.relength] using h.fdn.2⟩
  simpa [registersOk_iff] using ⟨h.fault, h.flag, hfdn, h.diffusers, h.depths, h.ramps⟩

theorem setSize (c : Cfg) (w : Word) : RegistersOk (s.setSize c w) :=
  (h.setFdn (f := { s.fdn with scale := fclamp w lit0_5 lit1_5 }) (h.fdn.congr rfl rfl)).relength c

theorem setRT60 (c : Cfg) (w : Word) : RegistersOk (s.setRT60 c w) :=
  (h.setFdn (f := { s.fdn with rt60 := fclamp w lit0_1 lit60 }) (h.fdn.congr rfl rfl)).relength c

theorem setFreeze (on : Bool) : RegistersOk (s.setFreeze on) := by
  refine h.setFdn ⟨h.fdn.1, ?_⟩
  cases on with
  | false => exact .inl rfl
  | true => exact .inr rfl

theorem setMod (c : Cfg) (r d : Word) : RegistersOk (s.setMod c r d) := by
  have hdepth : DepthsOk (s.setMod c r d).lfo := fun i => by
    simp only [State.setMod, State.modLfo, get_ofFn]
    exact depthOk_withDepth _ _
  have hfdn : FdnOk (s.setMod c r d).fdn := h.fdn.congr (by simp only [State.setMod]) (by simp only [State.setMod])
  simpa [registersOk_iff] using ⟨h.fault, h.flag, hfdn, h.diffusers, hdepth, h.ramps⟩

theorem tickState (c : Cfg) (x : Word) : RegistersOk (s.tickState c x) := by
  have hdepth : DepthsOk (s.tickState c x).lfo := fun i => by
    simp only [State.tickState, State.tickLfo, get_ofFn]
    exact h.depths i
  have hfdn : FdnOk (s.tickState c x).fdn :=
    h.fdn.congr (by simp only [State.tickState]) (by simp only [State.tickState])
  simpa [registersOk_iff] using ⟨h.fault, h.flag, hfdn, h.diffusers, hdepth, h.ramps⟩

theorem seedAll (c : Cfg) : RegistersOk (s.seedAll c) := by
  have hdepth : DepthsOk (s.seedAll c).lfo := fun i => by
    simp only [State.seedAll, get_ofFn]
    exact h.depths i
  simpa [registersOk_iff] using ⟨h.fault, h.flag, h.fdn, h.diffusers, hdepth, h.ramps⟩

theorem setTarget (k : Fin 2) (t : Word) : RegistersOk (s.setTarget k t) :=
  h.setSM k (Smoother.toward_count_le (h.ramps k) _ _ _)

theorem smooth (k : Fin 2) : RegistersOk (s.smooth k).2 :=
  h.setSM k ((Smoother.advanced_count_le _ _ _).trans (h.ramps k))

theorem finishFirst : RegistersOk s.finishFirst := by
  have hramp : RampsOk s.smN s.finishFirst.sm := fun k => by
    simp only [State.finishFirst, get_ofFn]
    exact Nat.zero_le _
  exact ⟨h.fault, h.flag, h.fdn, h.diffusers, h.depths, hramp⟩

theorem applySnapshot (c : Cfg) : RegistersOk (s.applySnapshot c) := by
  refine State.applySnapshot_keeps (P := RegistersOk) c (fun _ h => h.seedAll c) (fun _ _ h => ?_)
    (fun _ g h => h.setDiffusion g) (fun _ w h => h.setSize c w) (fun _ w h => h.setRT60 c w) (fun _ _ h => ?_)
    (fun _ r d h => h.setMod c r d) (fun _ on h => h.setFreeze on) (fun _ _ _ h => ?_)
    (fun _ k w h => h.setTarget k w) (fun _ h => h.finishFirst) s h
  all_goals simpa [registersOk_iff] using h

theorem sample (c : Cfg) (nch n : Nat) : RegistersOk (s.sample c nch n) := by
  refine State.sample_keeps (P := RegistersOk) c (fun _ _ _ _ h => ?_) (fun _ _ _ h => ?_)
    (fun _ x h => h.tickState c x) (fun _ k h => h.smooth k) (fun _ _ _ h => ?_) (fun _ _ _ _ _ h => ?_) nch n s h
  all_goals simpa [registersOk_iff] using h

theorem block (c : Cfg) (nch k : Nat) :
    RegistersOk (State.samples c nch k (s.applySnapshot c).beginBlock).endBlock := by
  have hbegin : RegistersOk (s.applySnapshot c).beginBlock := by simpa [registersOk_iff] using h.applySnapshot c
  have hsamples := State.samples_keep (P := RegistersOk) c nch (fun n _ h => h.sample c nch n)
    (fun t h => by simpa [registersOk_iff] using h) k _ hbegin
  simpa [registersOk_iff] using hsamples

theorem prepare (c : Cfg) (nch : Nat) (fs64 : DWord) (maxBlock : Word) (z : Sizing) :
    RegistersOk (s.prepare c nch fs64 maxBlock z) := by
  unfold State.prepare
  extract_lets s1 s2
  have h1 : RegistersOk s1 := by
    refine ⟨h.fault, h.flag, ⟨fun i => ?_, .inl rfl⟩, fun a => ?_, fun i => ?_, fun k => ?_⟩
    · simp [s1, Fdn.prepared, show within posZero lit0_99 posZero = true by decide +kernel]
    · simp [s1, show within posZero lit0_999 posZero = true by decide +kernel]
    · simp [s1, DepthOk, show isNaN posZero = false by decide, show unitsOf posZero = 0 by decide]
    · simp [s1, Smoother.prepared]
  have h2 : RegistersOk s2 := h1.relength c
  exact h2.setStatus h.fault

end RegistersOk

theorem registersOk_whenPrepared {s k : State} (h : RegistersOk s) (hk : RegistersOk k) :
    RegistersOk (whenPrepared s k) := whenPrepared_keeps (fun _ he => h.faulted he) fun _ => hk

theorem registersOk_onUnit {limit u : Nat} {s : State} {k : Fin limit → State} (h : RegistersOk s)
    (hk : ∀ i, RegistersOk (k i)) : RegistersOk (onUnit limit u s k) := onUnit_keeps (fun _ he => h.faulted he) hk

theorem execIn_registersOk (c : Cfg) (i : Instr) {s : State} (h : RegistersOk s) : RegistersOk (execIn c i s) := by
  cases i with
  | eprep nch hi lo mb => exact eprep_cases (P := RegistersOk) (h.faulted (by decide)) fun _ => h.prepare ..
  | esetp p =>
    exact registersOk_whenPrepared h ⟨h.fault, flagOk_storedParams p, h.fdn, h.diffusers, h.depths, h.ramps⟩
  | eproc nch n => exact eproc_keeps (P := RegistersOk) (fun _ he => h.faulted he) (h.block c nch (u32 n))
  | dlprep _ _ | apprep _ _ =>
    exact registersOk_onUnit h fun _ => capacityCheck_keeps (P := RegistersOk) (fun _ he => h.faulted he) fun _ => by
      simpa [registersOk_iff] using h
  | apsetg a g => exact registersOk_onUnit h fun j => h.setAPg j g
  | lfoseed i _ | lfosetr i _ => exact registersOk_onUnit h fun j => h.setLFO j (h.depths j)
  | lfosetd i x => exact registersOk_onUnit h fun j => h.setLFO j (depthOk_withDepth _ _)
  | lfonext i =>
    exact registersOk_onUnit h fun j => by
      simpa [registersOk_iff] using h.setLFO j (l := s.lfo[j].after c s.draws j) (h.depths j)
  | fsetsize w => exact registersOk_whenPrepared h (h.setSize c w)
  | fsetrt60 w => exact registersOk_whenPrepared h (h.setRT60 c w)
  | fsetmod r d => exact registersOk_whenPrepared h (h.setMod c r d)
  | fsetfrz on => exact registersOk_whenPrepared h (h.setFreeze on)
  | ftick x => exact registersOk_whenPrepared h (by simpa [registersOk_iff] using h.tickState c x)
  | smset k t => exact registersOk_onUnit h fun j => h.setTarget j t
  | smnext k => exact registersOk_onUnit h fun j => by simpa [registersOk_iff] using h.smooth j
  | smsnap k => exact registersOk_onUnit h fun j => h.setSM j (Nat.zero_le _)
  | erst | fsetdamp _ | fmix _ _ => exact registersOk_whenPrepared h (by simpa [registersOk_iff] using h)
  | dlrst _ | dlsetd _ _ | dlpush _ _ | dlrdlin _ _ _ | dlrdlag _ _ _ | dlproc _ _ _ _ _ | aprst _ | approc _ _
  | lprst _ | lpsetc _ _ | lpproc _ _ => exact registersOk_onUnit h fun _ => by simpa [registersOk_iff] using h

theorem stepIn_registerInv {c : Cfg} {s t : State} (h : RegisterInv s) (hs : stepIn c s = .next t) : RegisterInv t := by
  refine stepIn_keeps (fun s words d h => h) (fun s e he h => ?_) (fun i s h => ?_) h hs
  · obtain ⟨hreg, hn⟩ := registerInv_iff.1 h
    exact registerInv_iff.2 ⟨hreg.faulted he, hn⟩
  · obtain ⟨hreg, hn⟩ := registerInv_iff.1 h
    exact registerInv_iff.2 ⟨execIn_registersOk c i hreg, execIn_n c i hn⟩

/-- Settles O46: each register file's invariant is established by what the operations that write it store. -/
theorem stepKeepsTheRegistersSound : Obligations.StepKeepsTheRegistersSound :=
  fun s _ h hs => stepIn_registerInv h (step_eq_stepIn s ▸ hs)

end Sys2Proof.Machine


/-! What an EPREP that succeeds leaves of the state before it, and what the host reads on the status port and after the
reset input (spec/10_state.md R23, R26, R36; spec/46_engine.md R146). -/

namespace Sys2Proof.Machine

/-! ## EPREP -/

/-- PREPARE starts every unit afresh: under one draw counter two states come out alike but for the result and parameter
registers, the fault bits, the sample counter, `BUF` and the port (R36, R146). -/
theorem State.prepare_eq {s s' : State} (hd : s.draws = s'.draws) (c : Cfg) (nch : Nat) (fs64 : DWord) (maxBlock : Word)
    (z : Sizing) : s'.prepare c nch fs64 maxBlock z = { s.prepare c nch fs64 maxBlock z with
      res := s'.res
      prm := s'.prm
      status := s'.status.afterPrepare
      n := s'.n
      buf := s'.buf
      cmd := s'.cmd } := by
  simp only [State.prepare, State.relength, State.newLines, State.newGains, State.setStatus, hd]

/-- An EPREP that does not fault ran PREPARE. -/
theorem eprep_ne_faulted {c : Cfg} {nch : Nat} {fsHi fsLo maxBlock : Word} {s : State}
    (h : eprep c nch fsHi fsLo maxBlock s ≠ s.faulted .badConfig) :
    let fs64 := joinWords fsHi fsLo
    let z := sizingOf c s.draws fs64
    prepareAllowed c nch fs64 maxBlock z = true
      ∧ eprep c nch fsHi fsLo maxBlock s = s.prepare c nch fs64 maxBlock z := by
  unfold eprep at h ⊢
  dsimp only at h ⊢
  split
  · next hok => exact ⟨hok, rfl⟩
  · next hno => exact absurd (if_neg hno) h

/-- Settles O50: both states pass the same checks and run PREPARE with the same sizes. -/
theorem eprepLeavesNothingOfTheUnits : Obligations.EprepLeavesNothingOfTheUnits := by
  intro nch fsHi fsLo maxBlock s s' t t' hd h h' hne
  obtain rfl := exec_next.1 h
  obtain rfl := exec_next.1 h'
  obtain ⟨hok, hrun⟩ := eprep_ne_faulted hne
  have hrun' : eprep cfg nch fsHi fsLo maxBlock s' = s'.prepare cfg nch (joinWords fsHi fsLo) maxBlock
      (sizingOf cfg s.draws (joinWords fsHi fsLo)) := by
    rw [eprep, ← hd, if_pos hok]
  rw [execIn, execIn, hrun, hrun', State.prepare_eq hd]
  exact ⟨rfl, rfl, rfl, rfl, rfl, rfl, rfl, rfl, rfl, rfl, rfl, rfl, rfl, rfl, rfl, rfl⟩

/-! ## The status port -/

theorem Cause.code_le (e : Cause) : e.code ≤ 6 := by cases e <;> decide

theorem Status.toNat_word (t : Status) : t.word.toNat =
    t.prepared.toNat + 2 * t.pvalid.toNat + 4 * t.first.toNat + 8 * t.err.toNat + 16 * t.cause.code := by
  have := t.cause.code_le
  have := t.prepared.toNat_le
  have := t.pvalid.toNat_le
  have := t.first.toNat_le
  have := t.err.toNat_le
  rw [Status.word, BitVec.toNat_ofNat, Nat.mod_eq_of_lt (by omega)]

/-- A bit of a word, told by its value. -/
theorem getLsbD_eq_of_toNat {w : Word} {k : Nat} {b : Bool} (h : w.toNat / 2 ^ k % 2 = b.toNat) : w.getLsbD k = b := by
  rw [BitVec.getLsbD, Nat.testBit_eq_decide_div_mod_eq, h]
  cases b <;> rfl

/-- The two halves of a double word, joined (R6). -/
theorem halves_append (x : DWord) : x.extractLsb 63 32 ++ x.extractLsb 31 0 = x :=
  (BitVec.extractLsb'_append_extractLsb'_eq_extractLsb' (w := 64) (start₁ := 0) (len₁ := 32) (start₂ := 32)
    (len₂ := 32) (x := x) rfl).trans BitVec.extractLsb'_eq_self

/-- The layout of `STATUS` (R23). -/
theorem Status.word_bits (t : Status) :
    t.word.getLsbD 0 = t.prepared ∧ t.word.getLsbD 1 = t.pvalid ∧ t.word.getLsbD 2 = t.first
      ∧ t.word.getLsbD 3 = t.err ∧ (t.word.extractLsb 7 4).toNat = t.cause.code ∧ t.word.toNat < 2 ^ 8 := by
  have hw := t.toNat_word
  have := t.cause.code_le
  have := t.prepared.toNat_le
  have := t.pvalid.toNat_le
  have := t.first.toNat_le
  have := t.err.toNat_le
  refine ⟨getLsbD_eq_of_toNat ?_, getLsbD_eq_of_toNat ?_, getLsbD_eq_of_toNat ?_, getLsbD_eq_of_toNat ?_, ?_, ?_⟩
  case refine_5 =>
    rw [BitVec.extractLsb_toNat, Nat.shiftRight_eq_div_pow]
    omega
  all_goals omega

/-- A read that is no `PRM` read while `PVALID` = 0 answers the map and changes nothing (R26). -/
theorem State.hostRead_eq {s : State} {a : Nat} (h : s.status.pvalid = true ∨ a < 0x10 ∨ 0x1D ≤ a) :
    s.hostRead a = (s.portWord a, s) := by
  rw [State.hostRead, if_neg]
  simp only [Bool.and_eq_true, Bool.not_eq_true', decide_eq_true_eq]
  rintro ⟨hp, hlo, hhi⟩
  rcases h with h | h | h
  · simp [hp] at h
  · omega
  · omega

theorem State.hostRead_snd (s : State) (a : Nat) : (s.hostRead a).2 = { s with draws := (s.hostRead a).2.draws } := by
  unfold State.hostRead
  split <;> rfl

theorem State.portWord_res (s : State) (i : Fin 8) : s.portWord (0x08 + i) = s.res[i] := by
  have hi := i.isLt
  unfold State.portWord
  iterate 7 rw [if_neg (by omega)]
  rw [dif_pos (by omega)]
  simp

theorem State.portWord_prm (s : State) (k : Fin 13) : s.portWord (0x10 + k) = s.prm[k] := by
  have hk := k.isLt
  unfold State.portWord
  iterate 7 rw [if_neg (by omega)]
  rw [dif_neg (by omega), dif_pos (by omega)]
  simp

theorem State.portWord_reserved (s : State) {a : Nat} (h : 0x1D ≤ a) : s.portWord a = 0 := by
  unfold State.portWord
  iterate 7 rw [if_neg (by omega)]
  rw [dif_neg (by omega), dif_neg (by omega)]

/-- Settles O39: the bits of `STATUS` from its value, the registers from the map's ranges. -/
theorem statusPortReadsTheMap : Obligations.StatusPortReadsTheMap := by
  intro s
  have hlow : ∀ a, a < 0x10 → (s.hostRead a).1 = s.portWord a := fun a ha => by
    rw [State.hostRead_eq (.inr (.inl ha))]
  refine ⟨?_, hlow _ (by decide), hlow _ (by decide), ?_, hlow _ (by decide), hlow _ (by decide), hlow _ (by decide),
    fun i => ?_, fun hp k => ?_, fun a ha => ?_, s.hostRead_snd⟩
  · rw [hlow _ (by decide)]
    exact s.status.word_bits
  · rw [hlow _ (by decide), hlow _ (by decide)]
    exact halves_append s.fs64
  · rw [hlow _ (by omega), s.portWord_res]
  · rw [State.hostRead_eq (.inl hp), s.portWord_prm]
  · rw [State.hostRead_eq (.inr (.inr ha)), s.portWord_reserved ha]

/-! ## Hardware reset -/

/-- From reset, whatever `BUF` and the draw counter hold, a step waits for the first word (R70, log 4). -/
theorem step_reset (buf : Mem) (draws : Nat) :
    step { State.reset with buf := buf, draws := draws } = .next { State.reset with buf := buf, draws := draws } := rfl

/-- Settles O40: both states are `State.reset` but for `BUF` and the draw counter. -/
theorem hardwareResetValues : Obligations.HardwareResetValues := by
  intro s t ht
  obtain ⟨buf, draws, rfl⟩ : ∃ buf draws, t = { State.reset with buf := buf, draws := draws } := by
    simp only [List.mem_cons, List.not_mem_nil, or_false] at ht
    rcases ht with rfl | rfl
    · exact ⟨[], 0, rfl⟩
    · exact ⟨s.buf, s.draws, rfl⟩
  refine ⟨(by decide : Status.reset.word = 0), rfl, rfl, rfl, rfl, rfl, rfl, rfl, rfl, rfl, rfl, rfl, rfl, fun u => ?_,
    rfl, step_reset buf draws⟩
  simp [State.reset, DelayLine.reset]

end Sys2Proof.Machine


/-! Which words of the delay memories a command reaches, a step on the command its port decodes to (spec/20_memory.md
R52, R58; spec/40_delayline.md R90, R92, R95). A line moves by pushes: how many of them a command does, and in which
lines, is said once for each operation, and a line after a number of pushes differs from the line before only at the
cursors those pushes found. -/

namespace Sys2Proof.Machine

/-! ## The pushes into a line -/

/-- `e` is `d` after `n` pushes, whatever words they stored and whatever base was set meanwhile (R94, R95). -/
structure DelayLine.Pushed (n : Nat) (d e : DelayLine) : Prop where
  cap : e.cap = d.cap
  cursor : e.w = d.pushIndex n
  frame : ∀ a, (∀ k, k < n → a ≠ d.pushIndex k) → memRead e.ram a = memRead d.ram a

theorem DelayLine.pushIndex_add {d e : DelayLine} {m : Nat} (hcap : e.cap = d.cap) (hw : e.w = d.pushIndex m)
    (k : Nat) : e.pushIndex k = d.pushIndex (m + k) := by
  unfold pushIndex at hw ⊢
  rw [hcap, hw]
  split
  · next h => rw [h, Nat.add_zero]
  · rw [if_neg (by omega : m + k ≠ 0)]
    split
    · next h => rw [h, Nat.zero_add]
    · rw [Nat.mod_add_mod, Nat.add_assoc]

theorem DelayLine.pushed_base (d : DelayLine) (b : Nat) : Pushed 0 d { d with base := b } := ⟨rfl, rfl, fun _ _ => rfl⟩

theorem DelayLine.pushed_push (d : DelayLine) (x : Word) : Pushed 1 d (d.push x) where
  cap := rfl
  cursor := rfl
  frame _ ha := memRead_memWrite_other d.ram (ha 0 Nat.one_pos) x

theorem DelayLine.Pushed.trans {m n : Nat} {d e f : DelayLine} (h : Pushed m d e) (h' : Pushed n e f) :
    Pushed (m + n) d f where
  cap := h'.cap.trans h.cap
  cursor := h'.cursor.trans (pushIndex_add h.cap h.cursor n)
  frame a ha :=
    calc memRead f.ram a = memRead e.ram a := h'.frame a fun k hk => by
          rw [pushIndex_add h.cap h.cursor]
          exact ha (m + k) (by omega)
      _ = memRead d.ram a := h.frame a fun k hk => ha k (by omega)

/-- The lines that take a push on the way from `s` to `t`, in order; nothing but bases changes besides. -/
def State.Pushes (us : List (Fin 18)) (s t : State) : Prop :=
  ∀ u : Fin 18, DelayLine.Pushed (us.count u) s.dl[u] t.dl[u]

section
variable {us vs : List (Fin 18)} {s t r : State}

theorem State.Pushes.trans (h : s.Pushes us t) (h' : t.Pushes vs r) : s.Pushes (us ++ vs) r := fun u => by
  rw [List.count_append]
  exact (h u).trans (h' u)

theorem State.Pushes.congr (h : s.Pushes us t) (e : r.dl = t.dl) : s.Pushes us r := fun u => e ▸ h u

theorem State.pushes_of_dl (e : t.dl = s.dl) : s.Pushes [] t := fun u => e ▸ s.dl[u].pushed_base s.dl[u].base

theorem State.pushes_push (s : State) (v : Fin 18) (x : Word) : s.Pushes [v] (s.setDL v (s.dl[v].push x)) := fun u => by
  rw [State.setDL_dl, get_set]
  split
  · next h => subst h; simpa using DelayLine.pushed_push _ x
  · next h => simpa [List.count_singleton, h] using DelayLine.pushed_base s.dl[u] s.dl[u].base

theorem State.Pushes.setDL {v : Fin 18} {d : DelayLine} (h : s.Pushes us t)
    (hd : DelayLine.Pushed (us.count v) s.dl[v] d) : s.Pushes us (t.setDL v d) :=
  forall_set (p := fun u d => DelayLine.Pushed (us.count u) s.dl[u] d) h hd

theorem State.pushes_relength (s : State) (c : Cfg) : s.Pushes [] (s.relength c) := fun u => by
  rw [State.relength_dl, get_mapLanes]
  split
  · exact DelayLine.pushed_base _ _
  · exact State.pushes_of_dl rfl u

theorem State.pushes_withBase (s : State) (v : Fin 18) (b : Nat) : s.Pushes [] (s.setDL v (s.dl[v].withBase b)) :=
  (State.pushes_of_dl rfl).setDL (s.dl[v].pushed_base _)

theorem State.pushes_setPredelay (s : State) (pd : Nat) : s.Pushes [] (s.setPredelay pd) := by
  unfold State.setPredelay
  exact (s.pushes_withBase 0 pd).setDL (s.dl[1].pushed_base _)

theorem State.pushes_setSize (s : State) (c : Cfg) (w : Word) : s.Pushes [] (s.setSize c w) :=
  (State.pushes_of_dl (s.setFdn_dl _)).trans (State.pushes_relength _ c)

theorem State.pushes_setRT60 (s : State) (c : Cfg) (w : Word) : s.Pushes [] (s.setRT60 c w) :=
  (State.pushes_of_dl (s.setFdn_dl _)).trans (State.pushes_relength _ c)

/-- The network's lines, in lane order. -/
def fdnLines : List (Fin 18) := (List.finRange 8).map fdnLine

theorem count_fdnLines (u : Fin 18) : fdnLines.count u = if 10 ≤ u.val then 1 else 0 := by decide +revert

theorem mem_fdnLines {u : Fin 18} : u ∈ fdnLines ↔ 10 ≤ u.val := by decide +revert

theorem State.pushes_tickState (s : State) (c : Cfg) (x : Word) : s.Pushes fdnLines (s.tickState c x) := fun u => by
  rw [State.tickState_dl, get_mapLanes, count_fdnLines]
  split
  · exact DelayLine.pushed_push _ _
  · exact State.pushes_of_dl rfl u

theorem State.pushes_allpass (s : State) (a : Fin 8) (x : Word) : s.Pushes [apLine a] (s.allpass a x).2 :=
  s.pushes_push _ _

theorem State.pushes_diffuse (s : State) (l : List (Fin 8)) (x : Word) :
    s.Pushes (l.map apLine) (s.diffuse l x).2 := by
  induction l generalizing s x with
  | nil => exact State.pushes_of_dl rfl
  | cons a l ih => exact (s.pushes_allpass a x).trans (ih _ _)

/-- The lines one sample pushes into, in the order of R153 to R155. -/
def sampleLines : List (Fin 18) :=
  [0] ++ [1] ++ [0, 1, 2, 3].map apLine ++ [4, 5, 6, 7].map apLine ++ fdnLines

theorem State.pushes_network (s : State) (c : Cfg) (inL inR : Word) :
    s.Pushes sampleLines (s.network c inL inR).2.2.2 :=
  ((((s.pushes_push 0 _).trans (State.pushes_push _ 1 _)).trans (State.pushes_diffuse _ _ _)).trans
    (State.pushes_diffuse _ _ _)).trans (State.pushes_tickState _ c _)

theorem count_sampleLines (u : Fin 18) : sampleLines.count u = 1 := by decide +revert

theorem State.pushes_sample (s : State) (c : Cfg) (nch n : Nat) : s.Pushes sampleLines (s.sample c nch n) :=
  (s.pushes_network c (s.dryInput c nch n).1 (s.dryInput c nch n).2).congr (by simp [State.sample, State.wetPair])

theorem State.pushed_samples (s : State) (c : Cfg) (nch k : Nat) (u : Fin 18) :
    DelayLine.Pushed k s.dl[u] (s.samples c nch k).dl[u] := by
  induction k generalizing s with
  | zero => exact State.pushes_of_dl rfl u
  | succ k ih =>
    have hone := (s.pushes_sample c nch (s.n.getD 0)).congr (State.advance_dl _) u
    rw [count_sampleLines] at hone
    rw [State.samples, Nat.add_comm]
    exact hone.trans (ih _)

/-- The snapshot application sets bases and pushes nothing (R150). -/
theorem State.pushes_applySnapshot (s : State) (c : Cfg) : s.Pushes [] (s.applySnapshot c) := by
  refine State.applySnapshot_keeps (P := s.Pushes []) c (fun t h => h.congr (t.seedAll_dl c)) (fun t pd h => ?_)
    (fun t g h => h.congr (t.setDiffusion_dl g)) (fun t w h => ?_) (fun t w h => ?_)
    (fun t w h => h.congr (t.setDamp_dl c w)) (fun t r d h => h.congr (t.setMod_dl c r d))
    (fun t on h => h.congr (t.setFreeze_dl on)) (fun t f w h => h.congr (t.setCutoff_dl c f w))
    (fun t k w h => h.congr (t.setTarget_dl k w)) (fun t h => h.congr t.finishFirst_dl) s (State.pushes_of_dl rfl)
  · exact h.trans (t.pushes_setPredelay pd)
  · exact h.trans (t.pushes_setSize c w)
  · exact h.trans (t.pushes_setRT60 c w)

/-- In a block every line takes one push a sample. -/
theorem State.pushed_block (s : State) (c : Cfg) (nch k : Nat) (u : Fin 18) : DelayLine.Pushed k s.dl[u]
    (State.samples c nch k (s.applySnapshot c).beginBlock).endBlock.dl[u] := by
  have hsnap := s.pushes_applySnapshot c u
  have hsamples := (s.applySnapshot c).beginBlock.pushed_samples c nch k u
  simpa using hsnap.trans hsamples

end

/-! ## The words a command keeps -/

/-- Word `a` of `DLRAM[u]` reads in `t` as in `s`. -/
def State.WordKept (u : Fin 18) (a : Nat) (s t : State) : Prop := memRead t.dl[u].ram a = memRead s.dl[u].ram a

section
variable {u : Fin 18} {a : Nat} {s t : State}

theorem State.wordKept_of_dl (h : t.dl = s.dl) : State.WordKept u a s t := by rw [State.WordKept, h]

theorem State.wordKept_setDL {v : Fin 18} (h : u ≠ v) (d : DelayLine) : State.WordKept u a s (s.setDL v d) := by
  rw [State.WordKept, State.setDL_dl, get_set_other _ h.symm]

/-- Lines that take at most one push change the word at the cursor alone. -/
theorem State.Pushes.wordKept {us : List (Fin 18)} (h : s.Pushes us t) (hus : us.Nodup)
    (ha : u ∈ us → a ≠ s.dl[u].w) : State.WordKept u a s t := by
  refine (h u).frame a fun k hk => ?_
  have hk0 : k = 0 := by have := List.nodup_iff_count_le_one.1 hus u; omega
  rw [hk0]
  exact ha (List.count_pos_iff.1 (by omega))

theorem State.Pushes.wordKept_nil (h : s.Pushes [] t) : State.WordKept u a s t := h.wordKept List.nodup_nil nofun

theorem State.Pushes.wordKept_singleton {v : Fin 18} (h : s.Pushes [v] t) (ha : u = v → a ≠ s.dl[u].w) :
    State.WordKept u a s t := h.wordKept (List.nodup_singleton v) fun hu => ha (List.mem_singleton.1 hu)

theorem State.wordKept_whenPrepared (h : State.WordKept u a s t) : State.WordKept u a s (whenPrepared s t) :=
  whenPrepared_keeps (P := State.WordKept u a s) (fun _ _ => rfl) fun _ => h

theorem State.wordKept_onUnit {limit v : Nat} {k : Fin limit → State}
    (h : ∀ i : Fin limit, v = i.val → State.WordKept u a s (k i)) : State.WordKept u a s (onUnit limit v s k) :=
  onUnit_cases (P := State.WordKept u a s) (fun _ => rfl) (fun _ _ => rfl) fun i _ => h i

theorem State.wordKept_capacityCheck {capMax need : Nat} (h : State.WordKept u a s t) :
    State.WordKept u a s (if capMax < need then raise .badConfig s else t) :=
  capacityCheck_keeps (P := State.WordKept u a s) (fun _ _ => rfl) fun _ => h

/-- A command keeps every word it does not store to: units it does not fill keep every word, a line it pushes into the
words away from the cursor. -/
theorem execIn_wordKept (c : Cfg) (i : Instr) (h : ¬ i.storesTo s u a) : State.WordKept u a s (execIn c i s) := by
  cases i with
  | eprep _ _ _ _ | erst => exact absurd trivial h
  | eproc nch n =>
    exact eproc_keeps (P := State.WordKept u a s) (fun _ _ => rfl)
      ((s.pushed_block c nch (u32 n) u).frame a fun k hk ha => h ⟨k, hk, ha⟩)
  | dlprep v m =>
    exact State.wordKept_onUnit fun j hj => State.wordKept_capacityCheck <|
      State.wordKept_setDL (fun e : u = j => h (e ▸ hj.symm)) _
  | dlrst v => exact State.wordKept_onUnit fun j hj => State.wordKept_setDL (fun e : u = j => h (e ▸ hj.symm)) _
  | apprep b m =>
    exact State.wordKept_onUnit fun j hj => State.wordKept_capacityCheck <|
      State.wordKept_setDL (fun e : u = apLine j => h (e ▸ hj ▸ rfl)) _
  | aprst b =>
    exact State.wordKept_onUnit fun j hj => State.wordKept_setDL (fun e : u = apLine j => h (e ▸ hj ▸ rfl)) _
  | dlpush v x =>
    exact State.wordKept_onUnit fun j hj => (s.pushes_push j x).wordKept_singleton fun e ha =>
      h ⟨e ▸ hj.symm, ha⟩
  | dlproc v mode x d m =>
    exact State.wordKept_onUnit fun j hj => ((s.pushes_push j x).congr (State.putRes_dl _ _ _)).wordKept_singleton
      fun e ha => h ⟨e ▸ hj.symm, ha⟩
  | approc b x =>
    exact State.wordKept_onUnit fun j hj => ((s.pushes_allpass j x).congr (State.putRes_dl _ _ _)).wordKept_singleton
      fun e ha => h ⟨e ▸ hj ▸ rfl, ha⟩
  | ftick x =>
    exact State.wordKept_whenPrepared <| ((s.pushes_tickState c x).congr (State.putAllRes_dl _ _)).wordKept
      (by decide) fun hu ha => h ⟨mem_fdnLines.1 hu, ha⟩
  | dlsetd v d => exact State.wordKept_onUnit fun j _ => (s.pushes_withBase j (u32 d)).wordKept_nil
  | fsetsize w => exact State.wordKept_whenPrepared (s.pushes_setSize c w).wordKept_nil
  | fsetrt60 w => exact State.wordKept_whenPrepared (s.pushes_setRT60 c w).wordKept_nil
  | esetp _ | fsetdamp _ | fsetmod _ _ | fsetfrz _ | fmix _ _ =>
    exact State.wordKept_whenPrepared (State.wordKept_of_dl (by simp))
  | dlrdlin _ _ _ | dlrdlag _ _ _ | apsetg _ _ | lprst _ | lpsetc _ _ | lpproc _ _ | lfoseed _ _ | lfosetr _ _
  | lfosetd _ _ | lfonext _ | smset _ _ | smnext _ | smsnap _ =>
    exact State.wordKept_onUnit fun _ _ => State.wordKept_of_dl (by simp)

end

/-- Settles O43: a command that does not fill a line advances it by a number of pushes, each of which stores at the
cursor it finds. -/
theorem delayMemoryFrame : Obligations.DelayMemoryFrame := by
  intro i s t u a ht h
  obtain rfl := exec_next.1 ht
  exact execIn_wordKept cfg i h

/-! ## The step -/

/-- Settles O33: the case of `fetchAndRun` where no fault is pending and the port decodes. -/
theorem stepRunsTheDecodedCommand : Obligations.StepRunsTheDecodedCommand := by
  intro s i rest he hd
  rw [step, fetchAndRun, he, if_neg Bool.false_ne_true, hd]
  rfl

end Sys2Proof.Machine


/-! Which words of `BUF` an EPROC writes, and that no sample sees a later one (spec/20_memory.md R51, R58, R63). A sample
touches `BUF` twice: it reads its dry input first and writes its outputs last. All between ignores `BUF`, so two runs
whose buffers agree on the words read so far stay alike; a block is a fold over its sample indexes, cut where needed. -/

namespace Sys2Proof.Machine

/-! ## What EPROC answers -/

/-- EPROC passes its checks (R168, R151). -/
structure State.EprocRuns (s : State) (nch : Nat) (numSamples : Word) : Prop where
  prepared : s.status.prepared = true
  pvalid : s.status.pvalid = true
  one_le : 1 ≤ nch
  le_nch : nch ≤ u32 s.nch
  le_maxBlock : u32 numSamples ≤ u32 s.maxBlock

section
variable {c : Cfg} {s : State} {nch : Nat} {numSamples : Word}

theorem eproc_of_runs (h : s.EprocRuns nch numSamples) : eproc c nch numSamples s =
    (State.samples c nch (u32 numSamples) (s.applySnapshot c).beginBlock).endBlock := by
  obtain ⟨hprep, hvalid, hmin, hmax, hcount⟩ := h
  rw [eproc, whenPrepared_of_prepared hprep, hvalid, if_neg (by decide), if_neg (by omega), if_neg (by omega)]

theorem eproc_of_not_runs (h : ¬ s.EprocRuns nch numSamples) : ∃ e, eproc c nch numSamples s = s.faulted e := by
  unfold eproc
  cases hprep : s.status.prepared with
  | false => exact ⟨_, whenPrepared_of_not hprep _⟩
  | true =>
    rw [whenPrepared_of_prepared hprep]
    split
    · exact ⟨_, rfl⟩
    · next hvalid =>
      split
      · exact ⟨_, rfl⟩
      · next hchan =>
        split
        · exact ⟨_, rfl⟩
        · exact absurd ⟨hprep, by simpa using hvalid, by omega, by omega, by omega⟩ h

end

/-! ## One sample between its reads and its writes of `BUF` -/

/-- Steps 2 to 9 of a sample from its dry input (R153 to R159): the two outputs and the state before the write-back. -/
def State.render (c : Cfg) (dry : Word × Word) (s : State) : (Word × Word) × State :=
  let net := s.network c dry.1 dry.2
  let wet := net.2.2.2.wetPair c net.1 net.2.1 net.2.2.1
  let m := wet.2.2.smooth 0
  ((wetDry m.1 dry.1 wet.1, wetDry m.1 dry.2 wet.2.1), m.2)

theorem State.sample_eq_render (s : State) (c : Cfg) (nch n : Nat) :
    State.sample c nch n s = (s.render c (s.dryInput c nch n)).2.writeBack c nch n
      (s.render c (s.dryInput c nch n)).1.1 (s.render c (s.dryInput c nch n)).1.2 := rfl

/-- The state with another `BUF`. -/
def State.withBuf (s : State) (b : Mem) : State := { s with buf := b }

/-- The checks of EPROC do not look at `BUF`. -/
theorem State.eprocRuns_withBuf {s : State} {b : Mem} {nch : Nat} {numSamples : Word} :
    (s.withBuf b).EprocRuns nch numSamples ↔ s.EprocRuns nch numSamples :=
  ⟨fun ⟨hprep, hvalid, hmin, hmax, hcount⟩ => ⟨hprep, hvalid, hmin, hmax, hcount⟩,
    fun ⟨hprep, hvalid, hmin, hmax, hcount⟩ => ⟨hprep, hvalid, hmin, hmax, hcount⟩⟩

/-- A procedure that neither reads nor writes `BUF`. -/
def IgnoresBuf {α : Type} (f : State → α × State) : Prop :=
  ∀ s b, f (s.withBuf b) = ((f s).1, (f s).2.withBuf b)

section
variable {α β : Type} {f : State → α × State}

theorem IgnoresBuf.bind {g : α → State → β × State} (hf : IgnoresBuf f) (hg : ∀ x, IgnoresBuf (g x)) :
    IgnoresBuf fun s => g (f s).1 (f s).2 := fun s b => by
  dsimp only
  rw [hf]
  exact hg _ _ _

theorem IgnoresBuf.map (h : α → β) (hf : IgnoresBuf f) : IgnoresBuf fun s => (h (f s).1, (f s).2) := fun s b => by
  dsimp only
  rw [hf]

theorem ignoresBuf_predelay (u : Fin 18) (x : Word) : IgnoresBuf (State.predelay · u x) := fun _ _ => rfl
theorem ignoresBuf_allpass (a : Fin 8) (x : Word) : IgnoresBuf (State.allpass · a x) := fun _ _ => rfl
theorem ignoresBuf_tick (c : Cfg) (x : Word) : IgnoresBuf (State.tick c · x) := fun _ _ => rfl
theorem ignoresBuf_smooth (k : Fin 2) : IgnoresBuf (State.smooth · k) := fun _ _ => rfl
theorem ignoresBuf_lowpass (f : Fin 10) (x : Word) : IgnoresBuf (State.lowpass · f x) := fun _ _ => rfl

theorem ignoresBuf_diffuse (l : List (Fin 8)) (x : Word) : IgnoresBuf (State.diffuse · l x) := by
  induction l generalizing x with
  | nil => exact fun _ _ => rfl
  | cons a l ih => exact (ignoresBuf_allpass a x).bind ih

theorem ignoresBuf_render (c : Cfg) (dry : Word × Word) : IgnoresBuf (State.render c dry) := by
  have hsteps :=
    (ignoresBuf_predelay 0 dry.1).bind fun pdL =>
    (ignoresBuf_predelay 1 dry.2).bind fun pdR =>
    (ignoresBuf_diffuse [0, 1, 2, 3] pdL).bind fun dL =>
    (ignoresBuf_diffuse [4, 5, 6, 7] pdR).bind fun dR =>
    (ignoresBuf_tick c (fmul lit0_5 (fadd dL dR))).bind fun r =>
    (ignoresBuf_smooth 1).bind fun w =>
    (ignoresBuf_lowpass 8 (mixStereo c r w).1).bind fun wetL =>
    (ignoresBuf_lowpass 9 (mixStereo c r w).2).bind fun wetR =>
    (ignoresBuf_smooth 0).map fun m =>
      (wetDry m dry.1 (scrub (earlyBlend wetL dL)), wetDry m dry.2 (scrub (earlyBlend wetR dR)))
  unfold State.render State.network State.wetPair
  exact hsteps

end

/-! ## The snapshot application and `BUF` -/

/-- A state change that neither reads nor writes `BUF`. -/
def BufBlind (f : State → State) : Prop := ∀ s b, f (s.withBuf b) = (f s).withBuf b

theorem BufBlind.andThen {f g : State → State} (hf : BufBlind f) (hg : BufBlind g) : BufBlind fun s => g (f s) :=
  fun s b => (congrArg g (hf s b)).trans (hg _ b)

theorem BufBlind.ifFirst {f : State → State} (hf : BufBlind f) :
    BufBlind fun s => if s.status.first then f s else s := fun s b => by
  show (if s.status.first then f (s.withBuf b) else s.withBuf b) = _
  rw [hf, apply_ite (State.withBuf · b)]

/-- The snapshot comes from `PRM` (R149): the procedures of R150, in order, are blind to `BUF`. -/
theorem bufBlind_applySnapshot (c : Cfg) : BufBlind (State.applySnapshot c) := by
  have hseed : BufBlind fun t => if t.status.first then t.seedAll c else t := .ifFirst fun _ _ => rfl
  have hpre : BufBlind fun t => t.setPredelay (predelaySamples t.fs t.prm[3]) := fun _ _ => rfl
  have hdif : BufBlind fun t => t.setDiffusion (diffusionGain t.prm[4]) := fun _ _ => rfl
  have hsize : BufBlind fun t => t.setSize c t.prm[2] := fun _ _ => rfl
  have hrt : BufBlind fun t => t.setRT60 c t.prm[1] := fun _ _ => rfl
  have hdamp : BufBlind fun t => t.setDamp c (fclamp t.prm[7] lit1000 lit16000) := fun _ _ => rfl
  have hmod : BufBlind fun t => t.setMod c (fclamp t.prm[5] lit0_05 lit3) t.prm[6] := fun _ _ => rfl
  have hfrz : BufBlind fun t => t.setFreeze (t.prm[12].getLsbD 0) := fun _ _ => rfl
  have hcut : BufBlind fun t => (t.setCutoff c 8 t.prm[9]).setCutoff c 9 t.prm[9] := fun _ _ => rfl
  have hmix : BufBlind fun t => t.setTarget 0 (fdiv (fclamp t.prm[0] posZero lit100) lit100) := fun _ _ => rfl
  have hwidth : BufBlind fun t => t.setTarget 1 (fclamp t.prm[10] posZero lit1) := fun _ _ => rfl
  have hfinish : BufBlind fun t => if t.status.first then t.finishFirst else t := .ifFirst fun _ _ => rfl
  have hsteps := hseed.andThen hpre |>.andThen hdif |>.andThen hsize |>.andThen hrt |>.andThen hdamp |>.andThen hmod
    |>.andThen hfrz |>.andThen hcut |>.andThen hmix |>.andThen hwidth |>.andThen hfinish
  unfold State.applySnapshot
  exact hsteps

/-! ## A block as a fold over its sample indexes -/

/-- Sample `j`, and the advance to the next. -/
def State.sampleStep (c : Cfg) (nch : Nat) (s : State) (j : Nat) : State := (State.sample c nch j s).advance

/-- The loop of R151 counts the sample indexes up. -/
theorem State.samples_eq_foldl {s : State} {m : Nat} (h : s.n = some m) (c : Cfg) (nch k : Nat) :
    State.samples c nch k s = (List.range' m k).foldl (State.sampleStep c nch) s := by
  induction k generalizing s m with
  | zero => rfl
  | succ k ih =>
    have hnext : (s.sampleStep c nch m).n = some (m + 1) := by
      rw [State.sampleStep, State.advance, State.sample_n, h]
      rfl
    rw [State.samples, h, List.range'_succ, List.foldl_cons]
    exact ih hnext

theorem State.sampleStep_maxBlock (s : State) (c : Cfg) (nch j : Nat) :
    (s.sampleStep c nch j).maxBlock = s.maxBlock := by rw [sampleStep, advance_maxBlock, sample_maxBlock]

theorem State.foldl_sampleStep_maxBlock (s : State) (c : Cfg) (nch : Nat) (l : List Nat) :
    (l.foldl (State.sampleStep c nch) s).maxBlock = s.maxBlock :=
  List.foldlRecOn (motive := fun t : State => t.maxBlock = s.maxBlock) l _ rfl fun t ht j _ =>
    (t.sampleStep_maxBlock c nch j).trans ht

/-! ## The words of `BUF` a block writes (R51, R160) -/

section
variable {c : Cfg} {nch a : Nat}

theorem State.writeBack_buf_other (s : State) {n : Nat} (hnch : 1 ≤ nch) (l r : Word)
    (ha : ∀ ch, ch < nch → a ≠ s.bufIndex c nch ch n) :
    memRead (s.writeBack c nch n l r).buf a = memRead s.buf a := by
  unfold State.writeBack
  dsimp only
  split
  · next h2 => rw [memRead_memWrite_other _ (ha 1 (by omega)), memRead_memWrite_other _ (ha 0 hnch)]
  · exact memRead_memWrite_other _ (ha 0 hnch) _

/-- What leaves `BUF` unread leaves it unwritten. -/
theorem IgnoresBuf.buf_eq {α : Type} {f : State → α × State} (hf : IgnoresBuf f) (s : State) : (f s).2.buf = s.buf :=
  congrArg (fun p : α × State => p.2.buf) (hf s s.buf)

theorem BufBlind.buf_eq {f : State → State} (hf : BufBlind f) (s : State) : (f s).buf = s.buf := by
  have h : f s = (f s).withBuf s.buf := hf s s.buf
  rw [h]
  rfl

theorem State.render_maxBlock (s : State) (dry : Word × Word) : (s.render c dry).2.maxBlock = s.maxBlock := by
  simp [State.render, State.network, State.wetPair]

theorem State.sampleStep_buf_other (s : State) {n : Nat} (hnch : 1 ≤ nch)
    (ha : ∀ ch, ch < nch → a ≠ c.bufAddr (u32 s.maxBlock) nch ch n) :
    memRead (s.sampleStep c nch n).buf a = memRead s.buf a := by
  rw [State.sampleStep, State.advance_buf, State.sample_eq_render, State.writeBack_buf_other _ hnch,
    (ignoresBuf_render c _).buf_eq]
  simpa only [State.bufIndex, State.render_maxBlock] using ha

theorem State.foldl_sampleStep_buf_other (s : State) (hnch : 1 ≤ nch) {l : List Nat}
    (ha : ∀ j ∈ l, ∀ ch, ch < nch → a ≠ c.bufAddr (u32 s.maxBlock) nch ch j) :
    memRead (l.foldl (State.sampleStep c nch) s).buf a = memRead s.buf a := by
  have hkept : ∀ t : State, t.maxBlock = s.maxBlock ∧ memRead t.buf a = memRead s.buf a → ∀ j ∈ l,
      (t.sampleStep c nch j).maxBlock = s.maxBlock ∧ memRead (t.sampleStep c nch j).buf a = memRead s.buf a := by
    rintro t ⟨hmax, hread⟩ j hj
    refine ⟨(t.sampleStep_maxBlock c nch j).trans hmax, Eq.trans ?_ hread⟩
    exact t.sampleStep_buf_other hnch (hmax ▸ ha j hj)
  exact (List.foldlRecOn (motive := fun t : State => t.maxBlock = s.maxBlock ∧ memRead t.buf a = memRead s.buf a) l
    (State.sampleStep c nch) ⟨rfl, rfl⟩ hkept).2

end

/-- The samples of a block that runs, from the snapshot on. -/
def State.runBlock (c : Cfg) (nch k : Nat) (s : State) : State :=
  (List.range k).foldl (State.sampleStep c nch) (s.applySnapshot c).beginBlock

theorem eproc_buf_of_runs {c : Cfg} {s : State} {nch : Nat} {numSamples : Word} (h : s.EprocRuns nch numSamples) :
    (eproc c nch numSamples s).buf = (s.runBlock c nch (u32 numSamples)).buf := by
  rw [eproc_of_runs h, State.endBlock_buf, State.samples_eq_foldl rfl, ← List.range_eq_range', State.runBlock]

theorem State.applySnapshot_maxBlock (s : State) (c : Cfg) : (s.applySnapshot c).maxBlock = s.maxBlock :=
  congrArg (fun r : Setup => r.config.maxBlock) (s.applySnapshot_setup c)

theorem State.runBlock_maxBlock (s : State) (c : Cfg) (nch k : Nat) : (s.runBlock c nch k).maxBlock = s.maxBlock := by
  rw [State.runBlock, State.foldl_sampleStep_maxBlock, State.beginBlock_maxBlock, State.applySnapshot_maxBlock]

theorem State.runBlock_zero_buf (s : State) (c : Cfg) (nch : Nat) : (s.runBlock c nch 0).buf = s.buf := by
  rw [State.runBlock, List.range_zero, List.foldl_nil, State.beginBlock_buf, State.applySnapshot_buf]

/-- The samples from `j` on write their own words alone. -/
theorem State.runBlock_buf_other (s : State) {c : Cfg} {nch a j k : Nat} (hnch : 1 ≤ nch) (hjk : j ≤ k)
    (ha : ∀ ch n, ch < nch → j ≤ n → n < k → a ≠ c.bufAddr (u32 s.maxBlock) nch ch n) :
    memRead (s.runBlock c nch k).buf a = memRead (s.runBlock c nch j).buf a := by
  have hsplit : s.runBlock c nch k = (List.range' j (k - j)).foldl (State.sampleStep c nch) (s.runBlock c nch j) := by
    have happend := List.range'_append_1 (s := 0) (m := j) (n := k - j)
    rw [Nat.zero_add, Nat.add_sub_cancel' hjk, ← List.range_eq_range', ← List.range_eq_range'] at happend
    rw [State.runBlock, State.runBlock, ← List.foldl_append, happend]
  rw [hsplit]
  refine State.foldl_sampleStep_buf_other _ hnch fun n hn ch hch => ?_
  rw [State.runBlock_maxBlock]
  obtain ⟨hlow, hhigh⟩ := List.mem_range'_1.1 hn
  exact ha ch n hch hlow (by omega)

/-- Settles O44: a sample stores through its write-back alone, at its own index. -/
theorem eprocWritesOnlyItsBlock : Obligations.EprocWritesOnlyItsBlock := by
  intro nch numSamples s t a ht ha
  obtain rfl := exec_next.1 ht
  show memRead (eproc cfg nch numSamples s).buf a = _
  by_cases hrun : s.EprocRuns nch numSamples
  · rw [eproc_buf_of_runs hrun, s.runBlock_buf_other hrun.one_le (Nat.zero_le _) fun ch n hch _ hn => ha ch n hch hn,
      State.runBlock_zero_buf]
  · obtain ⟨e, he⟩ := eproc_of_not_runs (c := cfg) hrun
    rw [he]
    rfl

/-! ## Two runs whose buffers agree on some words -/

/-- `s` and `s'` differ in `BUF` only, and there not in the words of `A`. -/
structure State.AlikeOn (A : Nat → Prop) (s s' : State) : Prop where
  rest : s' = s.withBuf s'.buf
  wf : Memory.wf s.buf = true
  wf' : Memory.wf s'.buf = true
  agree : ∀ a, A a → memRead s.buf a = memRead s'.buf a

section
variable {A : Nat → Prop} {s s' : State} {c : Cfg} {nch : Nat}

theorem BufBlind.alikeOn {f : State → State} (hf : BufBlind f) (h : s.AlikeOn A s') : (f s).AlikeOn A (f s') where
  rest := by rw [hf.buf_eq, ← hf, ← h.rest]
  wf := by rw [hf.buf_eq]; exact h.wf
  wf' := by rw [hf.buf_eq]; exact h.wf'
  agree a ha := by rw [hf.buf_eq, hf.buf_eq]; exact h.agree a ha

/-- A procedure that ignores `BUF` answers the same from states that differ there. -/
theorem IgnoresBuf.alikeOn {α : Type} {f : State → α × State} (hf : IgnoresBuf f) (h : s.AlikeOn A s') :
    (f s').1 = (f s).1 ∧ (f s).2.AlikeOn A (f s').2 := by
  have heq : f s' = ((f s).1, (f s).2.withBuf s'.buf) := by rw [← hf, ← h.rest]
  refine ⟨by rw [heq], by rw [hf.buf_eq, heq], ?_, ?_, fun a ha => ?_⟩
  · rw [hf.buf_eq]; exact h.wf
  · rw [hf.buf_eq]; exact h.wf'
  · rw [hf.buf_eq, hf.buf_eq]; exact h.agree a ha

theorem memRead_memWrite_congr {m m' : Mem} (hm : Memory.wf m = true) (hm' : Memory.wf m' = true) {a : Nat}
    (h : memRead m a = memRead m' a) (b : Nat) (v : Word) :
    memRead (memWrite m b v) a = memRead (memWrite m' b v) a := by
  rw [memRead_memWrite hm, memRead_memWrite hm', h]

/-- The same outputs go to the same words. -/
theorem State.AlikeOn.writeBack (h : s.AlikeOn A s') (n : Nat) (l r : Word) :
    (s.writeBack c nch n l r).AlikeOn A (s'.writeBack c nch n l r) := by
  obtain ⟨b, rfl⟩ : ∃ b, s' = s.withBuf b := ⟨_, h.rest⟩
  refine ⟨rfl, State.writeBack_buf_wf h.wf c nch n l r, State.writeBack_buf_wf h.wf' c nch n l r, fun a ha => ?_⟩
  have hleft := memRead_memWrite_congr h.wf h.wf' (h.agree a ha)
  unfold State.writeBack
  by_cases h2 : nch = 2
  · simp only [if_pos h2]
    exact memRead_memWrite_congr (Memory.wf_memWrite h.wf _ _) (Memory.wf_memWrite h.wf' _ _) (hleft _ _) _ _
  · simp only [if_neg h2]
    exact hleft _ _

/-- A sample whose input words are in `A` reads the same input. -/
theorem State.AlikeOn.dryInput (h : s.AlikeOn A s') {n : Nat} (hnch : 1 ≤ nch)
    (hA : ∀ ch, ch < nch → A (c.bufAddr (u32 s.maxBlock) nch ch n)) : s'.dryInput c nch n = s.dryInput c nch n := by
  obtain ⟨b, rfl⟩ : ∃ b, s' = s.withBuf b := ⟨_, h.rest⟩
  have hread : ∀ ch, ch < nch → memRead b (s.bufIndex c nch ch n) = memRead s.buf (s.bufIndex c nch ch n) :=
    fun ch hch => (h.agree _ (hA ch hch)).symm
  refine Prod.ext (hread 0 hnch) ?_
  by_cases h2 : nch = 2
  · simp only [State.dryInput, if_pos h2]
    exact hread 1 (by omega)
  · simp only [State.dryInput, if_neg h2]
    exact hread 0 hnch

theorem State.AlikeOn.sampleStep (h : s.AlikeOn A s') {n : Nat} (hnch : 1 ≤ nch)
    (hA : ∀ ch, ch < nch → A (c.bufAddr (u32 s.maxBlock) nch ch n)) :
    (s.sampleStep c nch n).AlikeOn A (s'.sampleStep c nch n) := by
  obtain ⟨hout, hstate⟩ := (ignoresBuf_render c (s.dryInput c nch n)).alikeOn h
  rw [State.sampleStep, State.sampleStep, State.sample_eq_render, State.sample_eq_render, h.dryInput hnch hA, hout]
  exact BufBlind.alikeOn (f := State.advance) (fun _ _ => rfl) (hstate.writeBack n _ _)

theorem State.AlikeOn.runBlock (h : s.AlikeOn A s') {k : Nat} (hnch : 1 ≤ nch)
    (hA : ∀ ch n, ch < nch → n < k → A (c.bufAddr (u32 s.maxBlock) nch ch n)) :
    (s.runBlock c nch k).AlikeOn A (s'.runBlock c nch k) := by
  have hsnap : (s.applySnapshot c).AlikeOn A (s'.applySnapshot c) := (bufBlind_applySnapshot c).alikeOn h
  have hbegin : (s.applySnapshot c).beginBlock.AlikeOn A (s'.applySnapshot c).beginBlock :=
    BufBlind.alikeOn (f := State.beginBlock) (fun _ _ => rfl) hsnap
  have hmax : (s.applySnapshot c).beginBlock.maxBlock = s.maxBlock := by
    rw [State.beginBlock_maxBlock, State.applySnapshot_maxBlock]
  refine (List.foldl_rel (r := fun t t' : State => t.maxBlock = s.maxBlock ∧ t.AlikeOn A t')
    ⟨hmax, hbegin⟩ fun n hn t t' ht => ?_).2
  obtain ⟨hmax, halike⟩ := ht
  exact ⟨(t.sampleStep_maxBlock c nch n).trans hmax,
    halike.sampleStep hnch fun ch hch => hmax ▸ hA ch n hch (List.mem_range.1 hn)⟩

/-- Under an injective layout (R190) no sample after `m` writes a word of the samples up to `m`. -/
theorem State.runBlock_buf_upTo (s : State) {k m ch n : Nat} (hlayout : layoutInjective c.bufAddr) (hnch : nch ≤ 2)
    (hk : k ≤ u32 s.maxBlock) (hm : m < k) (hch : ch < nch) (hn : n ≤ m) :
    memRead (s.runBlock c nch k).buf (c.bufAddr (u32 s.maxBlock) nch ch n)
      = memRead (s.runBlock c nch (m + 1)).buf (c.bufAddr (u32 s.maxBlock) nch ch n) :=
  s.runBlock_buf_other (by omega) hm fun ch' n' hch' hlow hhigh heq => by
    have := (hlayout _ _ _ _ _ _ hnch hch hch' (by omega) (by omega) heq).2
    omega

end

/-- Settles O54: up to sample `m` both runs read and write alike, and the samples after it write their own words alone. -/
theorem laterSamplesDoNotReachEarlierOutputs : Obligations.LaterSamplesDoNotReachEarlierOutputs := by
  intro s t1 t2 b1 b2 nch m numSamples at' hwf1 hwf2 hnch hm hagree h1 h2 ch n hch hn
  obtain rfl := exec_next.1 h1
  obtain rfl := exec_next.1 h2
  show memRead (eproc cfg nch numSamples (s.withBuf b1)).buf (at' ch n)
    = memRead (eproc cfg nch numSamples (s.withBuf b2)).buf (at' ch n)
  by_cases hrun : s.EprocRuns nch numSamples
  · have halike : (s.withBuf b1).AlikeOn (fun a => ∃ ch n, ch < nch ∧ n < m + 1 ∧ a = at' ch n) (s.withBuf b2) := by
      refine ⟨rfl, hwf1, hwf2, ?_⟩
      rintro _ ⟨ch, n, hch, hn, rfl⟩
      exact hagree ch n hch (Nat.le_of_lt_succ hn)
    have hupTo : ∀ b, memRead (eproc cfg nch numSamples (s.withBuf b)).buf (at' ch n)
        = memRead ((s.withBuf b).runBlock cfg nch (m + 1)).buf (at' ch n) := fun b => by
      rw [eproc_buf_of_runs (State.eprocRuns_withBuf.2 hrun)]
      exact (s.withBuf b).runBlock_buf_upTo cfgDefault_ok.2.layout hnch hrun.le_maxBlock hm hch hn
    rw [hupTo, hupTo]
    exact (halike.runBlock (c := cfg) hrun.one_le fun ch n hch hn => ⟨ch, n, hch, hn, rfl⟩).agree _
      ⟨ch, n, hch, Nat.lt_succ_of_le hn, rfl⟩
  · have hfault : ∀ b, (eproc cfg nch numSamples (s.withBuf b)).buf = b := fun b => by
      obtain ⟨e, he⟩ := eproc_of_not_runs (c := cfg) (mt State.eprocRuns_withBuf.1 hrun : ¬ (s.withBuf b).EprocRuns _ _)
      rw [he]
      rfl
    rw [hfault, hfault]
    exact hagree ch n hch hn

end Sys2Proof.Machine


/-! The decoder and the encoder are inverse to each other (spec/30_encoding.md R70 to R76). A stream decodes exactly
when it is a legal head word, the operand words the opcode asks for, and a rest; what a row builds from them has that
row, those fields and those operands, and so encodes to the same words. -/

namespace Sys2Proof

/-! ## What decodes -/

theorem decode_of_headRow_error {h : Word} {r : Reject} (hr : headRow h = .error r) (t : List Word) :
    decode (h :: t) = .rejected r := by
  rw [decode, hr]

/-- A legal head word waits for its operand words (R70). -/
theorem decode_of_short {h : Word} {o : Op} (ho : headRow h = .ok o) {t : List Word} (ht : t.length + 1 < o.len) :
    decode (h :: t) = .rejected .truncated := by
  rw [decode, ho]
  exact if_pos (Nat.lt_sub_of_add_lt ht)

theorem Op.one_le_len (o : Op) : 1 ≤ o.len := by cases o <;> decide

/-- What a stream with a command at its front consists of (R70, R73). -/
theorem decode_eq_command {ws : List Word} {i : Instr} {rest : List Word} : decode ws = .command i rest ↔
    ∃ h o ops, ws = h :: (ops ++ rest) ∧ headRow h = .ok o ∧ ops.length + 1 = o.len
      ∧ buildInstr o (unitOf h) (immOf h) ops = some i := by
  constructor
  · intro hd
    unfold decode at hd
    split at hd
    · cases hd
    · next h t =>
      split at hd
      · cases hd
      · next o ho =>
        have := o.one_le_len
        split at hd
        · cases hd
        · next hlen =>
          split at hd
          · next j hj =>
            obtain ⟨rfl, rfl⟩ := Decoded.command.inj hd
            refine ⟨h, o, t.take (o.len - 1), ?_, ho, ?_, hj⟩
            · rw [List.take_append_drop]
            · rw [List.length_take]; omega
          · cases hd
  · rintro ⟨h, o, ops, rfl, ho, hlen, hi⟩
    have hops : o.len - 1 = ops.length := by omega
    rw [decode, ho]
    dsimp only
    rw [if_neg (by rw [List.length_append]; omega), hops, List.take_left, List.drop_left, hi]

/-! ## Decoding what was encoded -/

/-- Every command has as many operand words as its row says, and its row builds it from its fields. -/
theorem Laws.CommandWords.statement : ∀ i : Instr, Statement i :=
  @Instr.rec Statement eprep erst esetp eproc dlprep dlrst dlsetd dlpush dlrdlin dlrdlag dlproc apprep aprst apsetg
    approc lprst lpsetc lpproc lfoseed lfosetr lfosetd lfonext fsetsize fsetrt60 fsetdamp fsetmod fsetfrz ftick fmix
    smset smnext smsnap

/-- The immediate of a well-formed command fits the head word. -/
theorem Instr.immField_lt {i : Instr} (h : i.wf = true) : i.immField < 65536 := by
  obtain ⟨-, himm, -⟩ := Instr.fields_fit h
  have : 2 ^ i.op.immBits ≤ 2 ^ 2 := Nat.pow_le_pow_right (by decide) i.op.immBits_le
  omega

theorem decode_encode_append {i : Instr} (h : i.wf = true) (rest : List Word) :
    decode (encode i ++ rest) = .command i rest := by
  obtain ⟨hlen, hbuild⟩ := Laws.CommandWords.statement i
  obtain ⟨hunit, -, -⟩ := Instr.fields_fit h
  refine decode_eq_command.2 ⟨_, i.op, i.operands, rfl, headRow_of_wf h, hlen, ?_⟩
  have himm := Instr.immField_lt h
  rwa [unitOf_headWord i.op.code_lt hunit himm, immOf_headWord i.op.code_lt hunit himm]

/-- Settles O29: the fields of a well-formed command survive in its head word, and its row builds it from them. -/
theorem decodeInvertsEncode : Obligations.DecodeInvertsEncode := fun _ rest h => decode_encode_append h rest

/-! ## Encoding what was decoded -/

section
variable {ws : List Word} {i : Instr}

theorem of_build0 {j : Instr} (h : build0 j ws = some i) : ws = [] ∧ i = j := by
  unfold build0 at h
  split at h
  · exact ⟨rfl, (Option.some.inj h).symm⟩
  · cases h

theorem of_build1 {f : Word → Instr} (h : build1 f ws = some i) : ∃ a, ws = [a] ∧ i = f a := by
  unfold build1 at h
  split at h
  · exact ⟨_, rfl, (Option.some.inj h).symm⟩
  · cases h

theorem of_build2 {f : Word → Word → Instr} (h : build2 f ws = some i) : ∃ a b, ws = [a, b] ∧ i = f a b := by
  unfold build2 at h
  split at h
  · exact ⟨_, _, rfl, (Option.some.inj h).symm⟩
  · cases h

theorem of_build3 {f : Word → Word → Word → Instr} (h : build3 f ws = some i) :
    ∃ a b c, ws = [a, b, c] ∧ i = f a b c := by
  unfold build3 at h
  split at h
  · exact ⟨_, _, _, rfl, (Option.some.inj h).symm⟩
  · cases h

theorem of_buildEsetp (h : buildEsetp ws = some i) : ∃ p, ws = p.toList ∧ i = .esetp p := by
  unfold buildEsetp at h
  split at h
  · exact ⟨_, rfl, (Option.some.inj h).symm⟩
  · cases h

theorem of_buildFmix (h : buildFmix ws = some i) : ∃ v w, ws = v.toList ++ [w] ∧ i = .fmix v w := by
  unfold buildFmix at h
  split at h
  · exact ⟨_, _, rfl, (Option.some.inj h).symm⟩
  · cases h

end

/-- A one-bit immediate is kept as a truth value (R72). -/
theorem toNat_beq_one {n : Nat} (h : n < 2) : (n == 1).toNat = n := by
  interval_cases n <;> rfl

/-- A row builds from legal fields and operands a command with that row, those fields and those operands. -/
theorem fields_of_buildInstr {o : Op} {u imm : Nat} {ops : List Word} {i : Instr}
    (hu : u = 0 ∨ o.usesUnit = true) (himm : imm < 2 ^ o.immBits) (h : buildInstr o u imm ops = some i) :
    i.op = o ∧ u = i.unitField ∧ imm = i.immField ∧ ops = i.operands := by
  have hu0 : o.usesUnit = false → u = 0 := fun h0 => hu.resolve_right (by simp [h0])
  have himm0 : o.immBits = 0 → imm = 0 := fun h0 => by simpa [h0] using himm
  cases o with
  | erst =>
    obtain ⟨rfl, rfl⟩ := of_build0 h
    exact ⟨rfl, hu0 rfl, himm0 rfl, rfl⟩
  | fsetfrz =>
    obtain ⟨rfl, rfl⟩ := of_build0 h
    exact ⟨rfl, hu0 rfl, (toNat_beq_one himm).symm, rfl⟩
  | dlrst | aprst | lprst | lfonext | smnext | smsnap =>
    obtain ⟨rfl, rfl⟩ := of_build0 h
    exact ⟨rfl, rfl, himm0 rfl, rfl⟩
  | fsetsize | fsetrt60 | fsetdamp | ftick =>
    obtain ⟨_, rfl, rfl⟩ := of_build1 h
    exact ⟨rfl, hu0 rfl, himm0 rfl, rfl⟩
  | eproc =>
    obtain ⟨_, rfl, rfl⟩ := of_build1 h
    exact ⟨rfl, hu0 rfl, rfl, rfl⟩
  | dlprep | dlsetd | dlpush | apprep | apsetg | approc | lpsetc | lpproc | lfoseed | lfosetr | lfosetd | smset =>
    obtain ⟨_, rfl, rfl⟩ := of_build1 h
    exact ⟨rfl, rfl, himm0 rfl, rfl⟩
  | fsetmod =>
    obtain ⟨_, _, rfl, rfl⟩ := of_build2 h
    exact ⟨rfl, hu0 rfl, himm0 rfl, rfl⟩
  | dlrdlin | dlrdlag =>
    obtain ⟨_, _, rfl, rfl⟩ := of_build2 h
    exact ⟨rfl, rfl, himm0 rfl, rfl⟩
  | eprep =>
    obtain ⟨_, _, _, rfl, rfl⟩ := of_build3 h
    exact ⟨rfl, hu0 rfl, rfl, rfl⟩
  | dlproc =>
    obtain ⟨_, _, _, rfl, rfl⟩ := of_build3 h
    exact ⟨rfl, rfl, (toNat_beq_one himm).symm, rfl⟩
  | esetp =>
    obtain ⟨_, rfl, rfl⟩ := of_buildEsetp h
    exact ⟨rfl, hu0 rfl, himm0 rfl, rfl⟩
  | fmix =>
    obtain ⟨_, _, rfl, rfl⟩ := of_buildFmix h
    exact ⟨rfl, hu0 rfl, himm0 rfl, rfl⟩

/-- Fields that fit their bits are all that well-formedness asks for (R71, R72). -/
theorem Instr.wf_of_fields {i : Instr} (hu : i.unitField < 256) (himm : i.immField < 2 ^ i.op.immBits) :
    i.wf = true := by
  cases i with
  | eprep _ _ _ _ | eproc _ _ => exact decide_eq_true himm
  | erst | esetp _ | fsetsize _ | fsetrt60 _ | fsetdamp _ | fsetmod _ _ | fsetfrz _ | ftick _ | fmix _ _ => rfl
  | _ => exact decide_eq_true hu

theorem unitOf_lt (w : Word) : unitOf w < 256 := by
  rw [unitOf_eq]
  exact Nat.mod_lt _ (by decide)

/-- Settles O30: the head word of what decodes is legal, so the built command keeps all three of its fields. -/
theorem encodeInvertsDecode : Obligations.EncodeInvertsDecode := by
  intro ws i rest hd
  obtain ⟨h, o, ops, rfl, hrow, -, hbuild⟩ := decode_eq_command.1 hd
  obtain ⟨hcode, hunit, himm⟩ := headRow_eq_ok.1 hrow
  obtain ⟨rfl, hu, hi, rfl⟩ := fields_of_buildInstr hunit himm hbuild
  refine ⟨Instr.wf_of_fields (hu ▸ unitOf_lt h) (hi ▸ himm), ?_⟩
  rw [encode, hcode, ← hu, ← hi, headWord_fields, List.cons_append]

end Sys2Proof


/-! What the port does with the words that arrive (spec/30_encoding.md R70, R74, R75): a legal head word waits for its
operands and an illegal one faults alone. Which causes a command can leave (spec/60_exceptions.md R166), and which
result registers it writes (R79). -/

namespace Sys2Proof

/-- The causes a command can raise: none of the decoder's, and BAD_UNIT only for a unit above the range (R74, R166). -/
def Instr.mayRaise (i : Instr) : Machine.Cause → Prop
  | .noFault | .illegalCommand => False
  | .badUnit => ∃ limit, i.op.unitLimit = some limit ∧ limit ≤ i.unitField
  | .notPrepared | .noParams | .badConfig | .badCount => True

end Sys2Proof

namespace Sys2Proof.Machine

/-! ## What a block leaves -/

/-- A block of samples writes no result register and raises no fault (R79, R151). -/
theorem State.block_res_cause (s : State) (c : Cfg) (nch k : Nat) :
    (State.samples c nch k (s.applySnapshot c).beginBlock).endBlock.res = s.res
      ∧ (State.samples c nch k (s.applySnapshot c).beginBlock).endBlock.status.cause = s.status.cause := by
  have hSnap : (s.applySnapshot c).res = s.res ∧ (s.applySnapshot c).status.cause = s.status.cause := by
    refine State.applySnapshot_keeps (P := fun t => t.res = s.res ∧ t.status.cause = s.status.cause) c
      ?_ ?_ ?_ ?_ ?_ ?_ ?_ ?_ ?_ ?_ (fun _ h => h) s ⟨rfl, rfl⟩
    all_goals intros; simpa
  have hBlock := State.samples_keep (P := fun t => t.res = s.res ∧ t.status.cause = s.status.cause) c nch
    (fun _ _ h => by simpa using h) (fun _ h => by simpa using h) k (s.applySnapshot c).beginBlock
    (by simpa using hSnap)
  simpa using hBlock

/-! ## Which causes a command can leave -/

/-- `t` has the cause of `s`, or one that the command can raise. -/
def CauseFrom (i : Instr) (s t : State) : Prop := t.status.cause = s.status.cause ∨ i.mayRaise t.status.cause

section
variable {i : Instr} {s t : State}

theorem causeFrom_whenPrepared (h : CauseFrom i s t) : CauseFrom i s (whenPrepared s t) :=
  whenPrepared_cases (fun _ => .inr trivial) fun _ => h

theorem causeFrom_onUnit {limit : Nat} {k : Fin limit → State} (hl : i.op.unitLimit = some limit)
    (h : ∀ j, CauseFrom i s (k j)) : CauseFrom i s (onUnit limit i.unitField s k) :=
  onUnit_cases (fun _ => .inr trivial) (fun _ hu => .inr ⟨limit, hl, hu⟩) fun j _ _ => h j

theorem causeFrom_refusal {p : Prop} [Decidable p] {e : Cause} (he : i.mayRaise e) (h : CauseFrom i s t) :
    CauseFrom i s (if p then raise e s else t) := by
  split
  · exact .inr he
  · exact h

end

theorem execIn_causeFrom (c : Cfg) (i : Instr) (s : State) : CauseFrom i s (execIn c i s) := by
  cases i with
  | eprep _ _ _ _ => exact eprep_cases (P := CauseFrom _ s) (.inr trivial) fun _ => .inl rfl
  | eproc nch n =>
    exact causeFrom_whenPrepared <| causeFrom_refusal trivial <| causeFrom_refusal trivial <|
      causeFrom_refusal trivial <| .inl (s.block_res_cause c nch (u32 n)).2
  | erst | esetp _ | fsetsize _ | fsetrt60 _ | fsetdamp _ | fsetmod _ _ | fsetfrz _ | ftick _ | fmix _ _ =>
    exact causeFrom_whenPrepared (.inl (by simp [Status.afterParams]))
  | dlprep _ _ | apprep _ _ =>
    exact causeFrom_onUnit rfl fun _ => causeFrom_refusal trivial (.inl (by simp))
  | dlrst _ | dlsetd _ _ | dlpush _ _ | dlrdlin _ _ _ | dlrdlag _ _ _ | dlproc _ _ _ _ _ | aprst _ | apsetg _ _
  | approc _ _ | lprst _ | lpsetc _ _ | lpproc _ _ | lfoseed _ _ | lfosetr _ _ | lfosetd _ _ | lfonext _ | smset _ _
  | smnext _ | smsnap _ => exact causeFrom_onUnit rfl fun _ => .inl (by simp)

/-! ## Units above the range (R74) -/

theorem execIn_of_unitLimit_le (c : Cfg) {i : Instr} {limit : Nat} {s : State} (hl : i.op.unitLimit = some limit)
    (hp : s.status.prepared = true) (hu : limit ≤ i.unitField) : execIn c i s = s.faulted .badUnit := by
  cases i with
  | eprep _ _ _ _ | erst | esetp _ | eproc _ _ | fsetsize _ | fsetrt60 _ | fsetdamp _ | fsetmod _ _ | fsetfrz _
  | ftick _ | fmix _ _ => cases hl
  | _ =>
    obtain rfl := Option.some.inj hl
    exact onUnit_bad hp hu _

/-- Settles O37: the checks of a unit command come first, and no later check raises `BAD_UNIT`. -/
theorem unitAboveRangeFaults : Obligations.UnitAboveRangeFaults := by
  intro i limit s hl hp
  refine ⟨fun hwf => ?_, fun hu => ?_, fun hu t ht hbad => ?_⟩
  · simpa using decode_encode_append hwf []
  · exact exec_next.2 (execIn_of_unitLimit_le cfg hl hp hu)
  · obtain rfl := exec_next.1 ht
    obtain hsame | hraise := execIn_causeFrom cfg i s
    · exact hsame.symm.trans hbad
    · rw [hbad] at hraise
      obtain ⟨limit', hl', hle⟩ := hraise
      obtain rfl := Option.some.inj (hl.symm.trans hl')
      exact absurd hu (Nat.not_lt.2 hle)

/-! ## Waiting and running (R70) -/

theorem step_of_waits {s : State} {r : Reject} (he : s.status.err = false) (hd : decode s.cmd = .rejected r)
    (hr : rejectWaits r = true) : step s = .next s := by
  rw [step, fetchAndRun, he, if_neg Bool.false_ne_true, hd]
  exact if_pos hr

theorem step_of_illegal {s : State} {r : Reject} (he : s.status.err = false) (hd : decode s.cmd = .rejected r)
    (hr : rejectWaits r = false) : step s = .next ((s.dropWords 1).faulted .illegalCommand) := by
  rw [step, fetchAndRun, he, if_neg Bool.false_ne_true, hd]
  exact if_neg (by simp [hr])

theorem encode_length (i : Instr) : (encode i).length = i.op.len := (Laws.CommandWords.statement i).1

theorem opcOf_encode {i : Instr} (h : i.wf = true) : opcOf ((encode i).headD 0) = i.op.code := by
  obtain ⟨hunit, -, -⟩ := Instr.fields_fit h
  exact opcOf_headWord i.op.code_lt hunit (Instr.immField_lt h)

theorem len_mem_lengths (o : Op) : o.len ∈ [1, 2, 3, 4, 10, 14] := by cases o <;> decide

/-- A command whose last words are missing is only incomplete. -/
theorem decode_encode_take {i : Instr} (h : i.wf = true) {k : Nat} (hk : k < (encode i).length) :
    ∃ r, decode ((encode i).take k) = .rejected r ∧ rejectWaits r = true := by
  cases k with
  | zero => exact ⟨.noHead, rfl, rfl⟩
  | succ k =>
    refine ⟨.truncated, decode_of_short (headRow_of_wf h) ?_, rfl⟩
    rw [encode_length] at hk
    rw [List.length_take]
    omega

/-- Settles O32: the opcode fixes the row and so the length; a part is incomplete, and what is whole decodes. -/
theorem commandsAreConsumedWhole : Obligations.CommandsAreConsumedWhole := by
  refine ⟨fun i j hi hj hop => ?_, fun i hi => ⟨?_, fun s he => ⟨fun k hk hcmd => ?_, fun rest hcmd => ?_⟩⟩⟩
  · rw [opcOf_encode hi, opcOf_encode hj] at hop
    rw [encode_length, encode_length, Op.code_inj hop]
  · rw [encode_length]
    exact len_mem_lengths i.op
  · obtain ⟨r, hd, hr⟩ := decode_encode_take hi hk
    exact step_of_waits he (hcmd ▸ hd) hr
  · exact stepRunsTheDecodedCommand s i rest he (hcmd ▸ decode_encode_append hi rest)

/-! ## Illegal head words (R75) -/

/-- The opcodes of R73 whose format uses `UNIT`. -/
def unitOpcodes : List Nat := [0x10, 0x11, 0x12, 0x13, 0x14, 0x15, 0x16, 0x20, 0x21, 0x22, 0x23, 0x30, 0x31, 0x32, 0x40,
  0x41, 0x42, 0x43, 0x60, 0x61, 0x62]

/-- The other opcodes of R73. -/
def otherOpcodes : List Nat := [0x01, 0x02, 0x03, 0x04, 0x50, 0x51, 0x52, 0x53, 0x54, 0x55, 0x56]

/-- R75's list of the illegal head words, on the numbers in the three fields. -/
def IllegalFields (opc unit imm : Nat) : Prop :=
  (opc ∉ unitOpcodes ∧ opc ∉ otherOpcodes)
    ∨ (opc ∈ otherOpcodes ∧ unit ≠ 0)
    ∨ ((opc = 0x01 ∨ opc = 0x04) ∧ 4 ≤ imm)
    ∨ ((opc = 0x16 ∨ opc = 0x54) ∧ 2 ≤ imm)
    ∨ (opc ∉ [0x01, 0x04, 0x16, 0x54] ∧ imm ≠ 0)

/-- R75's list on the opcode of a row: the fields are too large for it. -/
theorem illegalFields_code (o : Op) (unit imm : Nat) :
    IllegalFields o.code unit imm ↔ ¬ ((unit = 0 ∨ o.usesUnit = true) ∧ imm < 2 ^ o.immBits) := by
  cases o <;> simp [IllegalFields, unitOpcodes, otherOpcodes, Op.code, Op.usesUnit, Op.format, Op.immBits] <;> omega

/-- Every opcode of the two lists is a row's. -/
theorem exists_code : ∀ opc ∈ unitOpcodes ++ otherOpcodes, ∃ o : Op, o.code = opc := by
  have hrows : ∀ opc ∈ unitOpcodes ++ otherOpcodes, opc ∈ Op.all.map Op.code := by decide
  intro opc hopc
  obtain ⟨o, -, ho⟩ := List.mem_map.1 (hrows opc hopc)
  exact ⟨o, ho⟩

/-- R75's list is the head words that name no row. -/
theorem illegalFields_iff (h : Word) :
    IllegalFields (opcOf h) (unitOf h) (immOf h) ↔ ∀ o, headRow h ≠ .ok o := by
  by_cases hop : ∃ o : Op, o.code = opcOf h
  · obtain ⟨o, ho⟩ := hop
    rw [← ho, illegalFields_code]
    refine ⟨fun hbad p hp => ?_, fun hno hfit => hno o (headRow_eq_ok.2 ⟨ho, hfit⟩)⟩
    obtain ⟨hcode, hfit⟩ := headRow_eq_ok.1 hp
    obtain rfl := Op.code_inj (ho.trans hcode.symm)
    exact hbad hfit
  · refine iff_of_true (.inl ⟨?_, ?_⟩) fun o ho => hop ⟨o, (headRow_eq_ok.1 ho).1⟩
    · exact fun hmem => hop (exists_code _ (List.mem_append_left _ hmem))
    · exact fun hmem => hop (exists_code _ (List.mem_append_right _ hmem))

/-- The reasons a head word is illegal are none to wait for. -/
theorem rejectWaits_of_headRow_error {h : Word} {r : Reject} (hr : headRow h = .error r) : rejectWaits r = false := by
  unfold headRow at hr
  split at hr
  · cases hr
    rfl
  · split at hr
    · cases hr
      rfl
    · split at hr
      · cases hr
        rfl
      · cases hr

/-- A stream behind a legal head word is rejected only while words are missing. -/
theorem rejectWaits_of_headRow_ok {h : Word} {o : Op} {t : List Word} {r : Reject} (ho : headRow h = .ok o)
    (hd : decode (h :: t) = .rejected r) : rejectWaits r = true := by
  rw [decode, ho] at hd
  dsimp only at hd
  split at hd
  · cases hd
    rfl
  · split at hd
    · cases hd
    · cases hd
      rfl

theorem step_of_headRow_error {h : Word} {r : Reject} (hr : headRow h = .error r) {s : State} {rest : List Word}
    (he : s.status.err = false) (hcmd : s.cmd = h :: rest) :
    step s = .next (({ s with cmd := rest } : State).faulted .illegalCommand) := by
  have hd : decode s.cmd = .rejected r := by rw [hcmd, decode_of_headRow_error hr]
  rw [step_of_illegal he hd (rejectWaits_of_headRow_error hr), State.dropWords, hcmd, List.drop_one, List.tail_cons]

/-- A step at a legal head word runs a command or waits, and neither is an illegal command. -/
theorem cause_of_headRow_ok {h : Word} {o : Op} (ho : headRow h = .ok o) {s t : State} {rest : List Word}
    (he : s.status.err = false) (hcmd : s.cmd = h :: rest) (ht : step s = .next t)
    (hill : t.status.cause = .illegalCommand) : s.status.cause = .illegalCommand := by
  rw [step_eq_stepIn] at ht
  obtain ⟨herr, -⟩ | ⟨-, i, rest', -, rfl⟩ | ⟨-, r, -, -, rfl⟩ | ⟨-, r, hd, hr, -⟩ := stepIn_cases ht
  · rw [he] at herr
    cases herr
  · obtain hsame | hraise := execIn_causeFrom cfg i (s.consume rest')
    · exact hsame.symm.trans hill
    · rw [hill] at hraise
      exact hraise.elim
  · exact hill
  · rw [rejectWaits_of_headRow_ok ho (hcmd ▸ hd)] at hr
    cases hr

/-- Settles O31: R75's list is the head words that name no row, which the decoder rejects without waiting. -/
theorem illegalHeadWordsFault : Obligations.IllegalHeadWordsFault := by
  intro h rest s he hcmd opc unit imm unitOps otherOps illegal
  have hlist : illegal ↔ ∀ o, headRow h ≠ .ok o := by
    rw [← illegalFields_iff, opcOf_eq, unitOf_eq, immOf_eq]
    rfl
  rw [hlist]
  cases hrow : headRow h with
  | error r => exact ⟨fun _ => step_of_headRow_error hrow he hcmd, fun hlegal => absurd nofun hlegal⟩
  | ok o => exact ⟨fun hno => absurd rfl (hno o), fun _ t => cause_of_headRow_ok hrow he hcmd⟩

/-! ## Result registers (R79) -/

section
variable {s t : State} {k : Fin 8}

/-- A result register away from the one that is written. -/
theorem State.putRes_res_other {j : Fin 8} (h : j ≠ k) (v : Word) : (s.putRes j v).res[k] = s.res[k] := by
  rw [State.putRes_res, get_set_other _ h]

theorem State.copyRes_res_other {j : Fin 8} (h : j ≠ k) (w : Word) : (s.copyRes j w).res[k] = s.res[k] := by
  rw [State.copyRes_res, get_set_other _ h]

theorem res_whenPrepared (h : t.res[k] = s.res[k]) : (whenPrepared s t).res[k] = s.res[k] :=
  whenPrepared_keeps (P := fun t => t.res[k] = s.res[k]) (fun _ _ => rfl) fun _ => h

theorem res_onUnit {limit u : Nat} {f : Fin limit → State} (h : ∀ j, (f j).res[k] = s.res[k]) :
    (onUnit limit u s f).res[k] = s.res[k] :=
  onUnit_keeps (P := fun t => t.res[k] = s.res[k]) (fun _ _ => rfl) h

theorem res_capacityCheck {capMax need : Nat} (h : t.res = s.res) :
    (if capMax < need then raise .badConfig s else t).res[k] = s.res[k] :=
  capacityCheck_keeps (P := fun t => t.res[k] = s.res[k]) (fun _ _ => rfl) fun _ => by rw [h]

/-- A register outside a list is none of the list's. -/
theorem ne_of_not_mem {regs : List Nat} {j : Fin 8} (hk : k.val ∉ regs) (hj : j.val ∈ regs) : j ≠ k :=
  fun e => hk (e ▸ hj)

theorem execIn_res (c : Cfg) (i : Instr) (hk : k.val ∉ i.op.resultRegs) : (execIn c i s).res[k] = s.res[k] := by
  cases i with
  | eprep nch hi lo mb => exact eprep_cases (P := fun t => t.res[k] = s.res[k]) rfl fun _ => by rw [State.prepare_res]
  | eproc nch n =>
    exact eproc_keeps (P := fun t => t.res[k] = s.res[k]) (fun _ _ => rfl) (by rw [(s.block_res_cause c nch (u32 n)).1])
  | erst | esetp _ | fsetsize _ | fsetrt60 _ | fsetdamp _ | fsetmod _ _ | fsetfrz _ => exact res_whenPrepared (by simp)
  | dlprep _ _ | apprep _ _ => exact res_onUnit fun _ => res_capacityCheck (by simp)
  | dlrst _ | dlsetd _ _ | dlpush _ _ | aprst _ | apsetg _ _ | lprst _ | lpsetc _ _ | lfoseed _ _ | lfosetr _ _
  | lfosetd _ _ | smset _ _ | smsnap _ => exact res_onUnit fun _ => by simp
  | dlrdlin _ _ _ | dlrdlag _ _ _ | dlproc _ _ _ _ _ | approc _ _ | lpproc _ _ | lfonext _ =>
    exact res_onUnit fun _ => (State.putRes_res_other (ne_of_not_mem hk (.head _)) _).trans (by simp)
  | smnext _ => exact res_onUnit fun _ => (State.copyRes_res_other (ne_of_not_mem hk (.head _)) _).trans (by simp)
  | fmix _ _ =>
    exact res_whenPrepared <| (State.putRes_res_other (ne_of_not_mem hk (.tail _ (.head _))) _).trans
      (State.putRes_res_other (ne_of_not_mem hk (.head _)) _)
  | ftick _ => exact absurd (List.mem_range.2 k.isLt) hk

end

/-- Settles O42: a case analysis over the commands, by the result registers the row writes. -/
theorem onlyNamedResultRegistersChange : Obligations.OnlyNamedResultRegistersChange := by
  intro i s t k ht hk
  obtain rfl := exec_next.1 ht
  exact execIn_res cfg i hk

end Sys2Proof.Machine


/-! The delay lines (spec/40_delayline.md R90 to R98): what the seven commands of a line, and the resets of a diffuser
and a filter, leave, and what a tap reads after pushes. A line is a ring: `ring_index` says once which word stands some
places before the cursor, and every statement about taps goes through it. -/

namespace Sys2Proof.Machine

/-! ## The lines a command replaces -/

theorem State.setDL_get (s : State) (u : Fin 18) (d : DelayLine) : (s.setDL u d).dl[u] = d := by
  rw [State.setDL_dl, get_set_same]

theorem nextPow2_least (k : Nat) :
    ∃ e, nextPow2 k = 2 ^ e ∧ k ≤ 2 ^ e ∧ ∀ e', k ≤ 2 ^ e' → 2 ^ e ≤ 2 ^ e' := by
  obtain ⟨e, he⟩ := isPow2_iff.1 (isPow2_nextPow2 k)
  exact ⟨e, he, he ▸ le_nextPow2 k, fun _ h => he ▸ nextPow2_le h⟩

/-- What a preparing command leaves of its line, and its frame (R90, R100). -/
theorem State.setDL_prepared (s : State) (u : Fin 18) (n base : Nat) :
    let t := s.setDL u { DelayLine.prepared n with base := base }
    (∃ e, t.dl[u].cap = 2 ^ e ∧ n + 4 ≤ 2 ^ e ∧ ∀ e', n + 4 ≤ 2 ^ e' → 2 ^ e ≤ 2 ^ e')
      ∧ t.dl[u].w = 0 ∧ t.dl[u].base = base ∧ (∀ a, memRead t.dl[u].ram a = posZero)
      ∧ t = { s with dl := s.dl.set u t.dl[u] } := by
  dsimp only
  rw [State.setDL_get]
  exact ⟨nextPow2_least (n + 4), rfl, rfl, fun _ => rfl, rfl⟩

/-- What a clearing command leaves of its line, and its frame (R92, R101). -/
theorem State.setDL_cleared (s : State) (u : Fin 18) :
    let t := s.setDL u s.dl[u].cleared
    (∀ a, memRead t.dl[u].ram a = posZero)
      ∧ t = { s with dl := s.dl.set u { s.dl[u] with w := 0, ram := t.dl[u].ram } } := by
  dsimp only
  rw [State.setDL_get]
  exact ⟨fun _ => rfl, rfl⟩

/-- Settles O7: both commands make the capacity check and then store a prepared line with its base. -/
theorem dlprepAndApprepSizeALine : Obligations.DlprepAndApprepSizeALine := by
  intro size s h
  refine ⟨fun u => ⟨rfl, fun hbig => ?_, fun hfit => ⟨_, ?_, s.setDL_prepared u size.toNat 0⟩⟩,
    fun a => ⟨rfl, fun hbig => ?_, fun hfit => ⟨_, ?_, s.setDL_prepared (apLine a) size.toNat size.toNat⟩⟩⟩
  · rw [exec_dlprep h, if_pos hbig]
  · rw [exec_dlprep h, if_neg (Nat.not_lt.2 hfit)]; rfl
  · rw [exec_apprep h, if_pos hbig]
  · rw [exec_apprep h, if_neg (Nat.not_lt.2 hfit)]; rfl

/-- Settles O8: DLRST and APRST store the cleared line, LPRST the cleared filter. -/
theorem resetCommandsClearOneUnit : Obligations.ResetCommandsClearOneUnit := fun s h =>
  ⟨fun u => ⟨rfl, _, exec_dlrst h u, s.setDL_cleared u⟩,
    fun a => ⟨rfl, _, exec_aprst h a, s.setDL_cleared (apLine a)⟩,
    fun f => ⟨rfl, exec_lprst h f⟩⟩

/-- Settles O9: the stored line is `DelayLine.withBase`, which is R94 as written. -/
theorem dlsetdStoresClampedBase : Obligations.DlsetdStoresClampedBase := fun u delay _ h =>
  ⟨rfl, exec_dlsetd h u delay⟩

/-- Settles O10: a push is one write at the cursor of a canonical memory. -/
theorem dlpushStoresTheWordAtTheCursor : Obligations.DlpushStoresTheWordAtTheCursor := by
  intro u x s h hwf
  refine ⟨rfl, _, exec_dlpush h u x, ?_⟩
  rw [State.setDL_get]
  exact ⟨memRead_memWrite_same hwf _ x, fun _ ha => memRead_memWrite_other _ ha x, rfl⟩

/-- Settles O11: the sealed word of either read is one the formula allows, and `RES[0]` alone takes it. -/
theorem dlrdlinAndDlrdlagReadFractionally : Obligations.DlrdlinAndDlrdlagReadFractionally :=
  fun u delay modOffset _ h =>
    ⟨rfl, rfl, ⟨_, holds_sealNaN _ _ _, exec_dlrdlin h u delay modOffset⟩,
      ⟨_, holds_sealNaN _ _ _, exec_dlrdlag h u delay modOffset⟩⟩

/-- Settles O12: DLPROC stores the pushed line and, under the same draw counter, the word the read of its mode stores. -/
theorem dlprocReadsThenPushes : Obligations.DlprocReadsThenPushes := by
  intro u mode x delay modOffset s h
  refine ⟨rfl, s.putRes 0 (s.dl[u].read mode delay modOffset), _, ?_, exec_dlpush h u x,
    exec_dlproc h u mode x delay modOffset⟩
  cases mode with
  | false => exact exec_dlrdlin h u delay modOffset
  | true => exact exec_dlrdlag h u delay modOffset

/-! ## The ring and its taps (R91) -/

/-- The place in a ring `k` words before the cursor `w`, for a distance below the capacity. -/
theorem ring_index {cap w k : Nat} (hw : w < cap) (hk : k < cap) :
    (((w : Int) - k) % cap).toNat = if k ≤ w then w - k else w + cap - k := by
  split
  · rw [Int.emod_eq_of_lt (by omega) (by omega)]; omega
  · rw [← Int.add_emod_right, Int.emod_eq_of_lt (by omega) (by omega)]; omega

theorem ring_index_lt {cap w k : Nat} (hw : w < cap) (hk : k < cap) : (((w : Int) - k) % cap).toNat < cap := by
  rw [ring_index hw hk]
  split <;> omega

theorem ring_index_inj {cap w j k : Nat} (hw : w < cap) (hj : j < cap) (hk : k < cap)
    (h : (((w : Int) - j) % cap).toNat = (((w : Int) - k) % cap).toNat) : j = k := by
  rw [ring_index hw hj, ring_index hw hk] at h
  split at h <;> split at h <;> omega

theorem DelayLine.tap_zero {d : DelayLine} (hw : d.w < d.cap) : d.tap 0 = memRead d.ram d.w := by
  rw [tap, ring_index hw (Nat.zero_lt_of_lt hw), if_pos (Nat.zero_le _), Nat.sub_zero]

theorem DelayLine.tap_cap (d : DelayLine) : d.tap d.cap = d.tap 0 := by
  rw [tap, tap, Int.sub_emod_right, Int.natCast_zero, Int.sub_zero]

/-- A push puts its word at distance 1 and every other word one place further back. -/
theorem DelayLine.tap_push {d : DelayLine} (hw : d.w < d.cap) (hwf : Memory.wf d.ram = true) (x : Word) {k : Nat}
    (hk : k < d.cap) : (d.push x).tap (k + 1) = if k = 0 then x else d.tap k := by
  have hindex : (((d.w + 1) % d.cap : Nat) - ((k + 1 : Nat) : Int)) % d.cap = ((d.w : Int) - k) % d.cap := by
    rw [Int.natCast_emod, Int.emod_sub_emod]
    congr 1
    omega
  have hcursor : (((d.w : Int) - k) % d.cap).toNat = d.w ↔ k = 0 := by
    rw [ring_index hw hk]
    split <;> omega
  rw [tap, push, hindex, memRead_memWrite hwf, tap]
  simp only [hcursor]

theorem DelayLine.sound_foldl_push {c : Cfg} {d : DelayLine} (h : d.sound c = true) (xs : List Word) :
    (xs.foldl push d).sound c = true ∧ (xs.foldl push d).cap = d.cap := by
  induction xs generalizing d with
  | nil => exact ⟨h, rfl⟩
  | cons x xs ih => exact ih ((lineClosed_sound c).push 0 d x h)

theorem DelayLine.sound_cleared {c : Cfg} {d : DelayLine} (h : d.sound c = true) : d.cleared.sound c = true :=
  (lineClosed_sound c).cleared 0 d h

/-- R91 by induction on the pushes, the latest last. -/
theorem DelayLine.tap_foldl_push {c : Cfg} {d : DelayLine} (h : d.sound c = true) (xs : List Word) {k : Nat}
    (hk : k < d.cap) : (xs.foldl push d.cleared).tap (k + 1) = (xs.reverse[k]?).getD posZero := by
  induction xs using List.reverseRecOn generalizing k with
  | nil => rfl
  | append_singleton xs x ih =>
    obtain ⟨hs, hcap⟩ := sound_foldl_push (sound_cleared h) xs
    obtain ⟨-, -, -, hw, -, hwf, -⟩ := sound_iff.1 hs
    rw [List.foldl_append, List.foldl_cons, List.foldl_nil, tap_push hw hwf x (hcap.symm ▸ hk), List.reverse_append]
    cases k with
    | zero => rfl
    | succ k => exact ih (by omega)

/-- Settles O58: every push moves the words one tap back, and the ring closes at its capacity. -/
theorem tapsReturnPastPushes : Obligations.TapsReturnPastPushes := by
  intro d xs h
  obtain ⟨hs, hcap⟩ := DelayLine.sound_foldl_push (DelayLine.sound_cleared h) xs
  obtain ⟨-, -, -, hw, -⟩ := DelayLine.sound_iff.1 hs
  refine ⟨fun _ => rfl, fun k hk hkc => ?_, ?_, DelayLine.tap_zero hw⟩
  · obtain ⟨k, rfl⟩ := Nat.exists_eq_add_of_le' hk
    exact DelayLine.tap_foldl_push h xs hkc
  · exact (hcap ▸ DelayLine.tap_cap _).symm

end Sys2Proof.Machine


/-! The total delay (spec/40_delayline.md R93): its bounds are integers of at most 2^20, which binary32 holds exactly, so
the clamp keeps a guard of three words on every line, and its fraction keeps no bits that the total did not have. -/

namespace Sys2Proof.Machine

/-! ## Exact results -/

/-- A significand of at most 24 bits at a scale of the format is the magnitude of a finite pattern. -/
theorem exists_patMag_eq {m : Nat} (hm : m ≤ 2 ^ 24) {e : Nat} (he : e ≤ 252) :
    ∃ p < 0x7F800000, patMag p = m * 2 ^ e := by
  induction e generalizing m with
  | zero => exact ⟨m, by omega, by simpa using patMag_mul_add (e := 0) hm (.inl rfl)⟩
  | succ e ih =>
    rcases Nat.lt_or_ge m (2 ^ 23) with h | h
    · obtain ⟨p, hp, hmag⟩ := ih (m := 2 * m) (by omega) (by omega)
      exact ⟨p, hp, by rw [hmag]; ring⟩
    · exact ⟨(e + 1) * 2 ^ 23 + m, by omega, patMag_mul_add hm (.inr h)⟩

/-- A correctly rounded result is the exact one where that is a value of the format. -/
theorem exact_of_nearestTo {num : Int} {r : Word} (h : nearestTo num 1 r) {m e : Nat} (hm : m ≤ 2 ^ 24) (he : e ≤ 252)
    (hnum : num = (m * 2 ^ e : Nat)) : isFinite r = true ∧ unitsOf r = num := by
  obtain ⟨p, hp, hmag⟩ := exists_patMag_eq hm he
  have hp31 : p < 2 ^ 31 := by omega
  have hfin : isFinite (withSign false p) = true := by rw [isFinite_eq, withSign_pattern _ hp31, decide_eq_true hp]
  rw [← hmag] at hnum
  have hval : unitsOf (withSign false p) = num := by
    rw [unitsOf_of_signOf (signOf_withSign _ hp31), magOf_eq, withSign_pattern _ hp31, hnum]
  unfold nearestTo at h
  split at h
  · next hr =>
    have hnear := (h.2 _ hfin).1
    exact ⟨hr, by omega⟩
  · have hmax : patMag p ≤ patMag 0x7F7FFFFF := patMag_mono (by omega)
    have hlast : patMag 0x7F7FFFFF < (2 ^ 25 - 1) * 2 ^ 252 := by decide +kernel
    obtain ⟨-, -, hover⟩ := h
    omega

theorem floatOf_exact {k : Nat} (hk : k ≤ 2 ^ 24) :
    isFinite (floatOf k) = true ∧ unitsOf (floatOf k) = (k * 2 ^ 149 : Nat) := by
  have hnear : nearestTo (k * 2 ^ 149 : Nat) 1 (floatOf k) :=
    nearestTo_withSign Nat.one_pos (fun _ => (decide_eq_false (by omega)).symm) (roundsTo_roundMag (k * 2 ^ 149) 0)
  exact exact_of_nearestTo hnear hk (by decide) rfl

/-- What a magnitude has below one is a significand of at most 24 bits at a scale of the format again. -/
theorem magOf_mod_one (w : Word) : ∃ m e, m ≤ 2 ^ 24 ∧ e ≤ 252 ∧ magOf w % 2 ^ 149 = m * 2 ^ e := by
  obtain ⟨m, e, hm, hmag⟩ : ∃ m e, m < 2 ^ 24 ∧ magOf w = m * 2 ^ e := by
    have hfrac : fracOf w < 2 ^ 23 := (w.extractLsb 22 0).isLt
    unfold magOf
    split
    · exact ⟨fracOf w, 0, by omega, by omega⟩
    · exact ⟨2 ^ 23 + fracOf w, expOf w - 1, by omega, rfl⟩
  rw [hmag]
  rcases Nat.le_total e 149 with he | he
  · refine ⟨m % 2 ^ (149 - e), e, (Nat.mod_le _ _).trans hm.le, by omega, ?_⟩
    rw [← Nat.mul_mod_mul_right, ← Nat.pow_add, Nat.sub_add_cancel he]
  · refine ⟨0, 0, by omega, by omega, ?_⟩
    rw [Nat.zero_mul, Nat.mod_eq_zero_of_dvd ((Nat.pow_dvd_pow 2 he).mul_left m)]

/-! ## The total delay and its fraction (R93) -/

theorem within_iff {lo hi w : Word} :
    within lo hi w = true ↔ isNaN w = false ∧ unitsOf lo ≤ unitsOf w ∧ unitsOf w ≤ unitsOf hi := by
  simp only [within, Bool.and_eq_true, Bool.not_eq_true', decide_eq_true_eq, and_assoc]

theorem unitsOf_lit1 : unitsOf lit1 = 2 ^ 149 := by decide +kernel

theorem isFinite_of_magOf_lt {w : Word} (h : magOf w < 2 ^ 277) : isFinite w = true := by
  have hinf : patMag 0x7F800000 = 2 ^ 277 := by decide +kernel
  rw [isFinite_eq, decide_eq_true_eq, ← patMag_strictMono.lt_iff_lt, hinf, ← magOf_eq]
  exact h

/-- Whatever the operands, the total delay is finite and positive and its integer part in [1, cap − 3]. -/
theorem DelayLine.totalDelay_guard {d : DelayLine} (hmin : 4 ≤ d.cap) (hmax : d.cap ≤ 2 ^ 20) (delay modOffset : Word) :
    let D := d.totalDelay delay modOffset
    isFinite D = true ∧ signOf D = false ∧ 1 ≤ ffloor D ∧ ffloor D ≤ d.cap - 3 := by
  intro D
  obtain ⟨hfin, hcap⟩ := floatOf_exact (k := d.cap - 3) (by omega)
  have hle : unitsOf lit1 ≤ unitsOf (floatOf (d.cap - 3)) := by rw [hcap, unitsOf_lit1]; omega
  have hclamp : within lit1 (floatOf (d.cap - 3)) D = true := fclamp_within (by decide) (isNaN_of_isFinite hfin) hle _
  obtain ⟨-, hlo, hhi⟩ := within_iff.1 hclamp
  rw [unitsOf_lit1] at hlo
  rw [hcap] at hhi
  have hs : signOf D = false := by rw [signOf_eq_of_unitsOf_ne_zero (by omega), decide_eq_false (by omega)]
  rw [unitsOf_of_signOf hs] at hlo hhi
  exact ⟨isFinite_of_magOf_lt (by omega), hs, by unfold ffloor; omega, by unfold ffloor; omega⟩

/-- The fraction of a total delay is computed without rounding. -/
theorem delayFraction_exact {D : Word} (hfin : isFinite D = true) (hs : signOf D = false) (hDi : ffloor D ≤ 2 ^ 24) :
    isFinite (delayFraction D) = true ∧ unitsOf (delayFraction D) = (magOf D % 2 ^ 149 : Nat) := by
  obtain ⟨hf, hfloat⟩ := floatOf_exact hDi
  obtain ⟨m, e, hm, he, hmod⟩ := magOf_mod_one D
  have hsub : unitsOf D - unitsOf (floatOf (ffloor D)) = (magOf D % 2 ^ 149 : Nat) := by
    rw [unitsOf_of_signOf hs, hfloat]
    unfold ffloor
    omega
  rw [← hsub]
  exact exact_of_nearestTo (nearestTo_fsub hfin hf) hm he (by rw [hsub, hmod])

/-- Settles O59: the clamp's bounds are exact, so is the fraction, and four distances in a row below the capacity are four
places of the ring. -/
theorem totalDelayStaysInsideTheGuard : Obligations.TotalDelayStaysInsideTheGuard := by
  intro d delay modOffset h D Di index
  obtain ⟨-, hmin, hmax, hw, -⟩ := DelayLine.sound_iff.1 h
  have hcapMax : d.cap ≤ 2 ^ 20 := hmax
  obtain ⟨hfin, hs, hDi, hDiCap⟩ : isFinite D = true ∧ signOf D = false ∧ 1 ≤ Di ∧ Di ≤ d.cap - 3 :=
    DelayLine.totalDelay_guard hmin hcapMax delay modOffset
  obtain ⟨hfracFin, hfrac⟩ := delayFraction_exact hfin hs (show Di ≤ 2 ^ 24 by omega)
  have hnan := isNaN_of_isFinite hfracFin
  have hbelow : unitsOf (delayFraction D) < unitsOf lit1 := by
    have := Nat.mod_lt (magOf D) (Nat.two_pow_pos 149)
    rw [hfrac, unitsOf_lit1]
    omega
  have hnonneg : unitsOf posZero ≤ unitsOf (delayFraction D) := by
    rw [hfrac]
    exact Int.natCast_nonneg _
  have hdist : ∀ j, j < 4 → Di + j - 1 < d.cap := fun j hj => by omega
  refine ⟨rfl, hfin, hDi, hDiCap, ?_, within_iff.2 ⟨hnan, hnonneg, hbelow.le⟩,
    flt_of_unitsOf_lt hnan (by decide) hbelow, fun j hj => ring_index_lt hw (hdist j hj), fun j j' hjj hj' heq => ?_⟩
  · rw [hfrac, unitsOf_of_signOf hs, show Di = magOf D / 2 ^ 149 from rfl]
    omega
  · have := ring_index_inj hw (hdist j (by omega)) (hdist j' hj') heq
    omega

end Sys2Proof.Machine


/-! The allpass diffusers (spec/41_allpass.md R102, R103): the clamp of a stored gain, case by case, and what one sample
leaves of the line and of `RES[0]`. -/

namespace Sys2Proof.Machine

/-! ## The clamp outside its bounds (R11) -/

theorem flt_iff {a b : Word} : flt a b = true ↔ isNaN a = false ∧ isNaN b = false ∧ unitsOf a < unitsOf b := by
  simp only [flt, Bool.and_eq_true, Bool.not_eq_true', decide_eq_true_eq, and_assoc]

theorem fclamp_of_flt_lo {x lo : Word} (h : flt x lo = true) (hi : Word) : fclamp x lo hi = lo := by
  rw [fclamp, if_pos h, ite_self]

theorem fclamp_of_hi_flt {x lo hi : Word} (hle : unitsOf lo ≤ unitsOf hi) (h : flt hi x = true) :
    fclamp x lo hi = hi := by
  obtain ⟨-, hx, hlt⟩ := flt_iff.1 h
  have hlo : ¬ flt x lo = true := fun hxlo => by
    obtain ⟨-, -, hlt'⟩ := flt_iff.1 hxlo
    omega
  rw [fclamp, if_neg (by simp [hx]), if_neg hlo, if_pos h]

/-- Settles O13: the stored gain is the clamp of R11, and each clause is one of its cases. -/
theorem apsetgStoresClampedGain : Obligations.ApsetgStoresClampedGain := fun a g _ h =>
  ⟨rfl, allpassGain g, exec_apsetg h a g, fun hnan => fclamp_of_isNaN hnan _ _, fun hneg => fclamp_of_flt_lo hneg _,
    fclamp_of_hi_flt (by decide +kernel), fclamp_of_within⟩

/-! ## One sample (R103) -/

theorem State.putRes_get (s : State) (i : Fin 8) (v : Word) : (s.putRes i v).res[i] = sealNaN s.draws (.res i) v := by
  rw [State.putRes_res, get_set_same]

theorem State.allpass_snd_dl_get (s : State) (a : Fin 8) (x : Word) :
    (s.allpass a x).2.dl[apLine a] = s.dl[apLine a].push
      (sealNaN s.draws (.ram (apLine a)) (allpassPushed s.apG[a] x (s.allpass a x).1)) := by
  rw [State.allpass_snd, State.setDL_get]

/-- Settles O14: one sample is one push of a sealed word at the cursor of a canonical memory, and `RES[0]` takes the
sealed output. -/
theorem approcFiltersOneSample : Obligations.ApprocFiltersOneSample := by
  intro a x s h hwf
  dsimp only
  refine ⟨rfl, _, exec_approc h a x, ?_⟩
  have hres := (s.allpass a x).2.putRes_get 0 (s.allpass a x).1
  rw [State.putRes_dl, State.allpass_snd_dl_get]
  refine ⟨?_, fun _ hb => memRead_memWrite_other _ hb _, ?_, ?_⟩
  · rw [DelayLine.push, memRead_memWrite_same hwf]
    exact holds_sealNaN _ _ _
  · exact hres ▸ holds_sealNaN _ _ _
  · exact hres ▸ rfl

end Sys2Proof.Machine


/-! The one-pole filters (spec/42_onepole.md R106, R107): the words LPSETC and LPPROC store are the rules' formulas with a
NaN's payload drawn at the store (log 6), and the store replaces one field of one filter. -/

namespace Sys2Proof.Machine

/-- The stored coefficient is R106's, up to a NaN's payload. -/
theorem OnePole.holds_withCutoff_G (c : Cfg) (d f : Nat) (fs hz : Word) (p : OnePole) :
    holds (cutoffCoef c fs hz) (p.withCutoff c d f fs hz).G = true :=
  holds_sealNaN _ _ _

/-- The stored filter state is R107's y + v, up to a NaN's payload. -/
theorem OnePole.holds_after_s (d f : Nat) (p : OnePole) (x : Word) :
    holds (fadd (p.out x) (p.delta x)) (p.after d f x).s = true :=
  holds_sealNaN _ _ _

/-- Settles O15: the command stores the sealed coefficient into `G` of the one filter. -/
theorem lpsetcSetsTheCoefficient : Obligations.LpsetcSetsTheCoefficient := by
  intro f hz s h
  refine ⟨rfl, _, s.lp[f].holds_withCutoff_G cfg s.draws f s.fs hz, ?_⟩
  rw [exec_lpsetc h]
  rfl

/-- Settles O16: the output goes sealed into `RES[0]`, the sealed y + v into `s` of the one filter. -/
theorem lpprocFiltersOneSample : Obligations.LpprocFiltersOneSample := by
  intro f x s h
  refine ⟨rfl, _, _, holds_sealNaN s.draws (.res 0) (s.lp[f].out x), s.lp[f].holds_after_s s.draws f x, ?_⟩
  rw [exec_lpproc h]
  rfl

end Sys2Proof.Machine


/-! The modulators (spec/43_modulator.md R110 to R115). R110 turns on a few roundings: the sample rate EPREP narrows
stays in its range, half of it is exact, so an increment is at most 0.5, and one subtraction then wraps every phase.
Each answer is the nearest to a value between two bounds that binary32 holds, and so lies between them itself. -/

namespace Sys2Proof.Machine

/-! ## Nearest values between bounds -/

theorem unitsOf_posZero : unitsOf posZero = 0 := by decide

theorem unitsOf_lit0_5 : unitsOf lit0_5 = 2 ^ 148 := by decide +kernel

theorem finiteWithin_iff {lo hi w : Word} :
    finiteWithin lo hi w = true ↔ isFinite w = true ∧ unitsOf lo ≤ unitsOf w ∧ unitsOf w ≤ unitsOf hi := by
  rw [finiteWithin, Bool.and_eq_true, within_iff]
  exact and_congr_right fun hfin => and_iff_right (isNaN_of_isFinite hfin)

/-- A finite magnitude is below the overflow threshold of R8. -/
theorem magOf_lt_of_isFinite {w : Word} (h : isFinite w = true) : magOf w < (2 ^ 25 - 1) * 2 ^ 252 := by
  rw [isFinite_eq, decide_eq_true_eq] at h
  have hmax : patMag (w.toNat % 2 ^ 31) ≤ patMag 0x7F7FFFFF := patMag_mono (by omega)
  rw [magOf_eq]
  exact hmax.trans_lt (by decide +kernel)

/-- Rounding does not leave an interval whose ends are finite binary32 values. -/
theorem finiteWithin_of_nearestTo {num : Int} {den : Nat} {lo hi r : Word} (hden : 0 < den) (h : nearestTo num den r)
    (hlo : isFinite lo = true) (hhi : isFinite hi = true) (hnumLo : unitsOf lo * den ≤ num)
    (hnumHi : num ≤ unitsOf hi * den) : finiteWithin lo hi r = true := by
  have hscale : ∀ {a b : Word}, ¬ unitsOf a ≤ unitsOf b → unitsOf b * den < unitsOf a * den := fun hab =>
    Int.mul_lt_mul_of_pos_right (not_le.1 hab) (by omega)
  unfold nearestTo at h
  split at h
  · next hfin =>
    obtain ⟨-, hnear⟩ := h
    have hnearLo := (hnear lo hlo).1
    have hnearHi := (hnear hi hhi).1
    refine finiteWithin_iff.2 ⟨hfin, ?_, ?_⟩
    · by_contra hlt
      have := hscale hlt
      omega
    · by_contra hlt
      have := hscale hlt
      omega
  · obtain ⟨-, -, hover⟩ := h
    have hlo' := Nat.mul_lt_mul_of_pos_right (magOf_lt_of_isFinite hlo) hden
    have hhi' := Nat.mul_lt_mul_of_pos_right (magOf_lt_of_isFinite hhi) hden
    rw [← natAbs_unitsOf_mul] at hlo' hhi'
    omega

/-! ## The sample rate (R24, R146) -/

/-- `FS` in the range EPREP accepts, 8000 Hz to 192000 Hz. -/
def RateOk (fs : Word) : Prop := finiteWithin 0x45FA0000#32 0x483B8000#32 fs = true

theorem natAbs_unitsOf64 (w : DWord) : (unitsOf64 w).natAbs = magOf64 w := by
  unfold unitsOf64
  split <;> omega

theorem nearestTo_narrow64 {w : DWord} (hnan : isNaN64 w = false) (hexp : expOf64 w ≠ 2047) :
    nearestTo (unitsOf64 w) (2 ^ 925) (narrow64 w) := by
  have hsign : unitsOf64 w ≠ 0 → w.msb = decide (unitsOf64 w < 0) := by
    unfold unitsOf64
    cases w.msb
    · simp
    · simp; omega
  have hround : RoundsTo (unitsOf64 w).natAbs (2 ^ 925) (roundMag (magOf64 w) 1074) := by
    rw [natAbs_unitsOf64]
    exact roundsTo_roundMag (magOf64 w) 925
  rw [narrow64, hnan, if_neg (by decide), if_neg hexp, roundTo]
  exact nearestTo_withSign (Nat.two_pow_pos 925) hsign hround

/-- The rate EPREP narrows is in range: the limits of `Cfg.DEFAULT` are binary32 values. -/
theorem rateOk_narrow64 {w : DWord} (hnan : isNaN64 w = false) (hlo : flt64 w cfg.fsMin = false)
    (hhi : flt64 cfg.fsMax w = false) : RateOk (narrow64 w) := by
  simp only [flt64, hnan, show isNaN64 cfg.fsMin = false by decide, show isNaN64 cfg.fsMax = false by decide,
    Bool.not_false, Bool.and_self, Bool.true_and, decide_eq_false_iff_not, not_lt] at hlo hhi
  have hexp : expOf64 w ≠ 2047 := fun h => by
    have hbig : 2 ^ 52 * 2 ^ 2046 ≤ magOf64 w := by
      rw [magOf64, h, if_neg (by decide)]
      exact Nat.mul_le_mul_right _ (Nat.le_add_right _ _)
    have hmax : unitsOf64 cfg.fsMax < (2 ^ 52 * 2 ^ 2046 : Nat) := by decide +kernel
    have hmin : 0 < unitsOf64 cfg.fsMin := by decide +kernel
    have hmag := natAbs_unitsOf64 w
    omega
  have hmin : unitsOf 0x45FA0000#32 * (2 ^ 925 : Nat) = unitsOf64 cfg.fsMin := by decide +kernel
  have hmax : unitsOf 0x483B8000#32 * (2 ^ 925 : Nat) = unitsOf64 cfg.fsMax := by decide +kernel
  exact finiteWithin_of_nearestTo (Nat.two_pow_pos _) (nearestTo_narrow64 hnan hexp) (by decide) (by decide)
    (hmin.trans_le hlo) (hhi.trans_eq hmax.symm)

/-- One more in the exponent field doubles a normal magnitude. -/
theorem patMag_add_two_pow {p : Nat} (hp : 2 ^ 23 ≤ p) : patMag (p + 2 ^ 23) = 2 * patMag p := by
  obtain ⟨e, he⟩ : ∃ e, p / 2 ^ 23 = e + 1 := ⟨p / 2 ^ 23 - 1, by omega⟩
  have hdiv : (p + 2 ^ 23) / 2 ^ 23 = e + 2 := by omega
  have hmod : (p + 2 ^ 23) % 2 ^ 23 = p % 2 ^ 23 := by omega
  rw [patMag, patMag, hdiv, hmod, he, if_neg (by omega), if_neg (by omega), Nat.add_sub_cancel,
    show e + 2 - 1 = e + 1 by omega, Nat.pow_succ]
  ring

theorem RateOk.positive {fs : Word} (h : RateOk fs) :
    isFinite fs = true ∧ signOf fs = false ∧ 8000 * 2 ^ 149 ≤ magOf fs := by
  obtain ⟨hfin, hlo, -⟩ := finiteWithin_iff.1 h
  rw [show unitsOf 0x45FA0000#32 = 8000 * 2 ^ 149 by decide +kernel] at hlo
  have hs : signOf fs = false := by rw [signOf_eq_of_unitsOf_ne_zero (by omega), decide_eq_false (by omega)]
  rw [unitsOf_of_signOf hs] at hlo
  exact ⟨hfin, hs, by omega⟩

/-- Half the sample rate is exact (R113). -/
theorem RateOk.half {fs : Word} (h : RateOk fs) :
    isFinite (fmul lit0_5 fs) = true ∧ 2 * unitsOf (fmul lit0_5 fs) = magOf fs := by
  obtain ⟨hfin, hs, hlo⟩ := h.positive
  have hpfin := isFinite_eq fs
  rw [hfin, eq_comm, decide_eq_true_eq] at hpfin
  have hmag := magOf_eq fs
  generalize fs.toNat % 2 ^ 31 = p at hpfin hmag
  have hp : 2 ^ 24 ≤ p := by
    refine patMag_strictMono.le_iff_le.1 ?_
    have : patMag (2 ^ 24) ≤ 8000 * 2 ^ 149 := by decide +kernel
    omega
  obtain ⟨q, rfl⟩ : ∃ q, p = q + 2 ^ 23 := ⟨p - 2 ^ 23, by omega⟩
  rw [patMag_add_two_pow (by omega)] at hmag
  have hq31 : q < 2 ^ 31 := by omega
  have hqfin : isFinite (withSign false q) = true := by
    rw [isFinite_eq, withSign_pattern _ hq31, decide_eq_true (by omega)]
  have hqunits : unitsOf (withSign false q) = patMag q := by
    rw [unitsOf_of_signOf (signOf_withSign _ hq31), magOf_eq, withSign_pattern _ hq31]
  have hhalf : unitsOf lit0_5 * unitsOf fs = unitsOf (withSign false q) * (2 ^ 149 : Nat) := by
    rw [hqunits, unitsOf_of_signOf hs, hmag, unitsOf_lit0_5]
    push_cast
    ring
  obtain ⟨hfinR, hge, hle⟩ := finiteWithin_iff.1 (finiteWithin_of_nearestTo (Nat.two_pow_pos _)
    (nearestTo_fmul (by decide) hfin) hqfin hqfin hhalf.ge hhalf.le)
  exact ⟨hfinR, by omega⟩

/-! ## The increment and the phase (R113, R115) -/

/-- A value in [0, 1) as R110 asks it of a phase. -/
theorem phase_within {w : Word} (hnan : isNaN w = false) (hlo : 0 ≤ unitsOf w) (hhi : unitsOf w < unitsOf lit1) :
    within posZero lit1 w = true ∧ flt w lit1 = true :=
  ⟨within_iff.2 ⟨hnan, unitsOf_posZero.trans_le hlo, hhi.le⟩, flt_of_unitsOf_lt hnan (by decide) hhi⟩

/-- A rate up to half the sample rate gives an increment in [0, 0.5]. -/
theorem fdiv_rate_within {fs rate : Word} (hfs : RateOk fs) (h : within posZero (fmul lit0_5 fs) rate = true) :
    finiteWithin posZero lit0_5 (fdiv rate fs) = true := by
  obtain ⟨hfin, hs, hlo⟩ := hfs.positive
  obtain ⟨-, hhalf⟩ := hfs.half
  obtain ⟨-, hrate, hrateHi⟩ := within_iff.1 h
  have hunits := unitsOf_of_signOf hs
  rw [unitsOf_posZero] at hrate
  have hrateFin : isFinite rate = true := by
    refine isFinite_of_magOf_lt ?_
    have := magOf_lt_of_isFinite hfin
    have := natAbs_unitsOf rate
    omega
  have hnear := nearestTo_fdiv hrateFin hfin (by omega)
  rw [Int.sign_eq_one_of_pos (by omega), Int.mul_one] at hnear
  refine finiteWithin_of_nearestTo (by omega) hnear (by decide) (by decide) ?_ ?_
  · rw [unitsOf_posZero, Int.zero_mul]
    omega
  · rw [unitsOf_lit0_5]
    omega

/-- One subtraction wraps the phase, because the increment is at most 0.5. -/
theorem phaseAdvanced_within {phase inc : Word} (hphase : within posZero lit1 phase = true)
    (hinc : finiteWithin posZero lit0_5 inc = true) :
    within posZero lit1 (phaseAdvanced phase inc) = true ∧ flt (phaseAdvanced phase inc) lit1 = true := by
  obtain ⟨-, hphaseLo, hphaseHi⟩ := within_iff.1 hphase
  obtain ⟨hincFin, hincLo, hincHi⟩ := finiteWithin_iff.1 hinc
  have hzero := unitsOf_posZero
  have hone := unitsOf_lit1
  have hhalf := unitsOf_lit0_5
  have hbound : unitsOf lit1_5 = 2 ^ 149 + 2 ^ 148 := by decide +kernel
  have hphaseFin : isFinite phase = true := by
    refine isFinite_of_magOf_lt ?_
    have := natAbs_unitsOf phase
    omega
  obtain ⟨hsumFin, hsumLo, hsumHi⟩ := finiteWithin_iff.1 <| finiteWithin_of_nearestTo (lo := posZero) (hi := lit1_5)
    Nat.one_pos (nearestTo_fadd hphaseFin hincFin) (by decide) (by decide) (by omega) (by omega)
  have hsumNan := isNaN_of_isFinite hsumFin
  unfold phaseAdvanced
  dsimp only
  split
  · next hge =>
    simp only [fge, Bool.and_eq_true, decide_eq_true_eq] at hge
    obtain ⟨-, hge⟩ := hge
    obtain ⟨hfin, hlo, hhi⟩ := finiteWithin_iff.1 <| finiteWithin_of_nearestTo (lo := posZero) (hi := lit0_5)
      Nat.one_pos (nearestTo_fsub hsumFin (b := lit1) (by decide)) (by decide) (by decide) (by omega) (by omega)
    exact phase_within (isNaN_of_isFinite hfin) (by omega) (by omega)
  · next hlt1 =>
    simp only [fge, hsumNan, show isNaN lit1 = false by decide, Bool.not_false, Bool.and_self, Bool.true_and,
      decide_eq_true_eq, not_le] at hlt1
    exact phase_within hsumNan (by omega) hlt1

/-! ## One modulator (R110) -/

section
variable {fs : Word} {l : Lfo}

theorem Lfo.sound_seeded (h : l.sound fs) {c : Cfg} (hc : c.functionsOk) (i : Fin 8) (seed : Word) :
    (l.seeded c i seed).sound fs := by
  obtain ⟨-, -, hrest⟩ := h
  obtain ⟨hphase, hlt⟩ := hc.phase seed i
  exact ⟨hphase, hlt, hrest⟩

theorem Lfo.sound_withRate (h : l.sound fs) (hfs : RateOk fs) (d i : Nat) (x : Word) :
    (l.withRate d i fs x).sound fs := by
  obtain ⟨hphase, hlt, -, -, hdepth⟩ := h
  obtain ⟨hfin, hhalf⟩ := hfs.half
  have hrate : within posZero (fmul lit0_5 fs) (fclamp x posZero (fmul lit0_5 fs)) = true :=
    fclamp_within (by decide) (isNaN_of_isFinite hfin) (by rw [unitsOf_posZero]; omega) x
  obtain ⟨hinc, -⟩ := finiteWithin_iff.1 (fdiv_rate_within hfs hrate)
  exact ⟨hphase, hlt, hrate, sealNaN_of_not_isNaN (isNaN_of_isFinite hinc) _ _, hdepth⟩

theorem Lfo.sound_withDepth (h : l.sound fs) (x : Word) : (l.withDepth x).sound fs := by
  obtain ⟨hphase, hlt, hrate, hinc, -⟩ := h
  exact ⟨hphase, hlt, hrate, hinc, depthOk_withDepth l x⟩

theorem Lfo.sound_after (h : l.sound fs) (hfs : RateOk fs) (c : Cfg) (d i : Nat) : (l.after c d i).sound fs := by
  obtain ⟨hphase, -, hrate, hinc, hdepth⟩ := h
  have hnext := phaseAdvanced_within hphase (hinc ▸ fdiv_rate_within hfs hrate)
  obtain ⟨hnan, -⟩ := within_iff.1 hnext.1
  have hstored : (l.after c d i).phase = phaseAdvanced l.phase l.inc := sealNaN_of_not_isNaN hnan _ _
  rw [← hstored] at hnext
  exact ⟨hnext.1, hnext.2, hrate, hinc, hdepth⟩

/-- A modulator as EPREP leaves it (R146). -/
theorem Lfo.sound_zero (hfs : RateOk fs) :
    Lfo.sound fs { phase := posZero, rate := posZero, inc := posZero, depth := posZero, js := 0 } := by
  obtain ⟨hfin, hs, hlo⟩ := hfs.positive
  obtain ⟨-, hhalf⟩ := hfs.half
  have hinc : fdiv posZero fs = posZero := by
    rw [fdiv_of_isFinite (by decide) hfin (by omega), hs, show magOf posZero = 0 by decide, Nat.zero_mul, Nat.zero_div,
      Nat.zero_mod]
    decide +kernel
  have hrate : within posZero (fmul lit0_5 fs) posZero = true :=
    within_iff.2 ⟨by decide, le_rfl, by rw [unitsOf_posZero]; omega⟩
  exact ⟨by decide +kernel, by decide +kernel, hrate, hinc.symm, by decide, by decide⟩

end

/-! ## What the operations keep -/

/-- The invariant of R110 on a prepared core: the range of `FS`, and every modulator sound at it. -/
structure ModulatorsOk (s : State) : Prop where
  rate : RateOk s.fs
  sound : ∀ i : Fin 8, s.lfo[i].sound s.fs

theorem modulatorInv_iff {s : State} : ModulatorInv s ↔ (s.status.prepared = true → ModulatorsOk s) :=
  imp_congr_right fun _ => ⟨fun ⟨hrate, hsound⟩ => ⟨hrate, hsound⟩, fun hok => ⟨hok.rate, hok.sound⟩⟩

namespace ModulatorsOk

variable {s t : State} (h : ModulatorsOk s)
include h

theorem congr (hfs : t.fs = s.fs) (hlfo : t.lfo = s.lfo) : ModulatorsOk t :=
  ⟨hfs ▸ h.rate, fun i => by rw [hfs, hlfo]; exact h.sound i⟩

theorem setLFO (i : Fin 8) {l : Lfo} (hl : l.sound s.fs) : ModulatorsOk (s.setLFO i l) :=
  ⟨h.rate, forall_set (p := fun _ (l : Lfo) => l.sound s.fs) h.sound hl⟩

/-- All eight modulators replaced, each by a sound one. -/
theorem ofFn {f : Fin 8 → Lfo} (hfs : t.fs = s.fs) (hlfo : t.lfo = Vector.ofFn f) (hf : ∀ i, (f i).sound s.fs) :
    ModulatorsOk t := ⟨hfs ▸ h.rate, fun i => by rw [hfs, hlfo, get_ofFn]; exact hf i⟩

theorem seedAll {c : Cfg} (hc : c.functionsOk) : ModulatorsOk (s.seedAll c) :=
  h.ofFn (s.seedAll_fs c) (by dsimp only [State.seedAll]) fun i => Lfo.sound_seeded (h.sound i) hc i s.prm[11]

theorem setMod (c : Cfg) (r d : Word) : ModulatorsOk (s.setMod c r d) :=
  h.ofFn (f := s.modLfo c r d) (s.setMod_fs c r d) (by dsimp only [State.setMod]) fun i =>
    Lfo.sound_withDepth (Lfo.sound_withRate (h.sound i) h.rate _ _ _) _

theorem tickState (c : Cfg) (x : Word) : ModulatorsOk (s.tickState c x) :=
  h.ofFn (f := s.tickLfo c) (s.tickState_fs c x) (by dsimp only [State.tickState]) fun i =>
    Lfo.sound_after (h.sound i) h.rate c s.draws i

theorem applySnapshot {c : Cfg} (hc : c.functionsOk) : ModulatorsOk (s.applySnapshot c) := by
  refine State.applySnapshot_keeps (P := ModulatorsOk) c (fun _ h => h.seedAll hc) ?_ ?_ ?_ ?_ ?_
    (fun _ r d h => h.setMod c r d) ?_ ?_ ?_ ?_ s h
  all_goals
    intros
    exact congr ‹_› (by simp) (by simp)

theorem sample (c : Cfg) (nch n : Nat) : ModulatorsOk (s.sample c nch n) := by
  refine State.sample_keeps (P := ModulatorsOk) c ?_ ?_ (fun _ x h => h.tickState c x) ?_ ?_ ?_ nch n s h
  all_goals
    intros
    exact congr ‹_› (by simp) (by simp)

theorem block {c : Cfg} (hc : c.functionsOk) (nch k : Nat) :
    ModulatorsOk (State.samples c nch k (s.applySnapshot c).beginBlock).endBlock := by
  have hbegin : ModulatorsOk (s.applySnapshot c).beginBlock := (h.applySnapshot hc).congr (by simp) (by simp)
  have hsamples := State.samples_keep (P := ModulatorsOk) c nch (fun n _ h => h.sample c nch n)
    (fun _ h => h.congr (by simp) (by simp)) k _ hbegin
  exact hsamples.congr (by simp) (by simp)

end ModulatorsOk

/-- EPREP establishes R110 from its check of the sample rate alone. -/
theorem modulatorsOk_prepare {s : State} {nch : Nat} {fs64 : DWord} {maxBlock : Word}
    (h : prepareAllowed cfg nch fs64 maxBlock (sizingOf cfg s.draws fs64) = true) :
    ModulatorsOk (s.prepare cfg nch fs64 maxBlock (sizingOf cfg s.draws fs64)) := by
  simp only [prepareAllowed, Bool.and_eq_true, Bool.not_eq_true', Bool.or_eq_false_iff] at h
  obtain ⟨⟨⟨-, ⟨hnan, hlo⟩, hhi⟩, -⟩, -⟩ := h
  have hrate : RateOk (sizingOf cfg s.draws fs64).fs := rateOk_narrow64 hnan hlo hhi
  exact ⟨hrate, fun i => by simpa [State.prepare] using Lfo.sound_zero hrate⟩

/-! ## Commands and steps -/

section
variable {s : State} (h : ModulatorInv s)
include h

theorem modulatorInv_whenPrepared {k : State} (hk : ModulatorsOk s → ModulatorsOk k) :
    ModulatorInv (whenPrepared s k) :=
  whenPrepared_keeps (fun _ _ => h) fun hp => modulatorInv_iff.2 fun _ => hk (modulatorInv_iff.1 h hp)

theorem modulatorInv_onUnit {limit u : Nat} {k : Fin limit → State} (hk : ∀ i, ModulatorsOk s → ModulatorsOk (k i)) :
    ModulatorInv (onUnit limit u s k) :=
  onUnit_cases (fun _ => h) (fun _ _ => h) fun i hp _ => modulatorInv_iff.2 fun _ => hk i (modulatorInv_iff.1 h hp)

theorem modulatorInv_eprep (nch : Nat) (fsHi fsLo maxBlock : Word) :
    ModulatorInv (eprep cfg nch fsHi fsLo maxBlock s) := by
  by_cases hbad : eprep cfg nch fsHi fsLo maxBlock s = s.faulted .badConfig
  · rw [hbad]
    exact h
  · obtain ⟨hok, hrun⟩ := eprep_ne_faulted hbad
    rw [hrun]
    exact modulatorInv_iff.2 fun _ => modulatorsOk_prepare hok

theorem modulatorInv_eproc (nch : Nat) (numSamples : Word) : ModulatorInv (eproc cfg nch numSamples s) := by
  by_cases hruns : s.EprocRuns nch numSamples
  · rw [eproc_of_runs hruns]
    exact modulatorInv_iff.2 fun _ => (modulatorInv_iff.1 h hruns.prepared).block cfgDefault_ok.2 nch _
  · obtain ⟨e, he⟩ := eproc_of_not_runs hruns
    rw [he]
    exact h

theorem execIn_modulatorInv (i : Instr) : ModulatorInv (execIn cfg i s) := by
  cases i with
  | eprep nch hi lo mb => exact modulatorInv_eprep h nch hi lo mb
  | eproc nch n => exact modulatorInv_eproc h nch n
  | lfoseed i seed =>
    exact modulatorInv_onUnit h fun j hok => hok.setLFO j (Lfo.sound_seeded (hok.sound j) cfgDefault_ok.2 j seed)
  | lfosetr i x =>
    exact modulatorInv_onUnit h fun j hok => hok.setLFO j (Lfo.sound_withRate (hok.sound j) hok.rate s.draws j x)
  | lfosetd i x => exact modulatorInv_onUnit h fun j hok => hok.setLFO j (Lfo.sound_withDepth (hok.sound j) x)
  | lfonext i =>
    exact modulatorInv_onUnit h fun j hok =>
      (hok.setLFO j (Lfo.sound_after (hok.sound j) hok.rate cfg s.draws j)).congr (by simp) (by simp)
  | fsetmod r d => exact modulatorInv_whenPrepared h fun hok => hok.setMod cfg r d
  | ftick x => exact modulatorInv_whenPrepared h fun hok => (hok.tickState cfg x).congr (by simp) (by simp)
  | dlprep _ _ | apprep _ _ =>
    exact modulatorInv_onUnit h fun _ hok => capacityCheck_keeps (P := ModulatorsOk)
      (fun _ _ => hok.congr rfl rfl) fun _ => hok.congr (by simp) (by simp)
  | erst | esetp _ | fsetsize _ | fsetrt60 _ | fsetdamp _ | fsetfrz _ | fmix _ _ =>
    exact modulatorInv_whenPrepared h fun hok => hok.congr (by simp) (by simp)
  | dlrst _ | dlsetd _ _ | dlpush _ _ | dlrdlin _ _ _ | dlrdlag _ _ _ | dlproc _ _ _ _ _ | aprst _ | apsetg _ _
  | approc _ _ | lprst _ | lpsetc _ _ | lpproc _ _ | smset _ _ | smnext _ | smsnap _ =>
    exact modulatorInv_onUnit h fun _ hok => hok.congr (by simp) (by simp)

end

/-- Settles O47: EPREP establishes the range of `FS` and zero modulators; the increment is at most 0.5, so every later
phase advance wraps into [0, 1). -/
theorem stepKeepsTheModulatorsSound : Obligations.StepKeepsTheModulatorsSound := fun s _ h hs =>
  stepIn_keeps (P := ModulatorInv) (fun _ _ _ h => h) (fun _ _ _ h => h) (fun i _ h => execIn_modulatorInv h i) h
    (step_eq_stepIn s ▸ hs)

/-! ## LFOSETR and LFOSETD (R113, R114) -/

theorem depthStored_eq (x : Word) : depthStored x = if isNaN x = true ∨ flt x posZero = true then posZero else x := by
  simp only [depthStored, Bool.or_eq_true]

/-- Settles O18: LFOSETR stores the clamped rate and its sealed quotient by `FS`, LFOSETD the depth of `depthStored`. -/
theorem lfosetrAndLfosetdStoreRateAndDepth : Obligations.LfosetrAndLfosetdStoreRateAndDepth := by
  intro i x s h
  refine ⟨rfl, rfl, ⟨_, holds_sealNaN _ _ _, exec_lfosetr h i x⟩, ?_⟩
  rw [exec_lfosetd h, ← depthStored_eq]
  rfl

end Sys2Proof.Machine


/-! The freeze crossfade (spec/44_fdn8.md R129 step 1, R133). Toward 0 the step never passes the target, because
binary32 holds both ends of the interval it falls in. Toward 1 the rounded distance may exceed the exact one, but by less
than half a step of the format above 1, so the sum still rounds to at most 1. -/

namespace Sys2Proof.Machine

/-! ## Roundings near one -/

theorem finiteWithin_of_within_unit {w : Word} (h : within posZero lit1 w = true) :
    finiteWithin posZero lit1 w = true := by
  obtain ⟨-, hlo, hhi⟩ := within_iff.1 h
  have := natAbs_unitsOf w
  rw [unitsOf_posZero] at hlo
  rw [unitsOf_lit1] at hhi
  rw [finiteWithin, h, isFinite_of_magOf_lt (by omega)]
  rfl

theorem within_of_finiteWithin {lo hi w : Word} (h : finiteWithin lo hi w = true) : within lo hi w = true := by
  rw [finiteWithin, Bool.and_eq_true] at h
  exact h.2

/-- A significand of at most 24 bits at a scale of the format is the value of a finite word. -/
theorem exists_unitsOf_eq {m e : Nat} (hm : m ≤ 2 ^ 24) (he : e ≤ 252) :
    ∃ w, isFinite w = true ∧ unitsOf w = (m * 2 ^ e : Nat) := by
  obtain ⟨p, hp, hmag⟩ := exists_patMag_eq hm he
  have hp31 : p < 2 ^ 31 := by omega
  refine ⟨withSign false p, ?_, ?_⟩
  · rw [isFinite_eq, withSign_pattern _ hp31, decide_eq_true hp]
  · rw [unitsOf_of_signOf (signOf_withSign _ hp31), magOf_eq, withSign_pattern _ hp31, hmag]

/-- A value in [0, 1] rounds up by less than 2^−24, because the multiples of 2^−24 there are values of the format. -/
theorem lt_add_of_nearestTo {num : Int} {r : Word} (h : nearestTo num 1 r) (hfin : isFinite r = true) (h0 : 0 ≤ num)
    (h1 : num ≤ 2 ^ 149) : unitsOf r < num + 2 ^ 125 := by
  obtain ⟨w, hw, hval⟩ := exists_unitsOf_eq (m := num.toNat / 2 ^ 125) (e := 125) (by omega) (by decide)
  rw [nearestTo, if_pos hfin] at h
  have hnear := (h.2 w hw).1
  omega

/-- The least value of the format above 1 is 1 + 2^−23. -/
theorem unitsOf_gt_lit1 {w : Word} (h : unitsOf lit1 < unitsOf w) : 2 ^ 149 + 2 ^ 126 ≤ unitsOf w := by
  have hs : signOf w = false := by
    rw [unitsOf_lit1] at h
    rw [signOf_eq_of_unitsOf_ne_zero (by omega), decide_eq_false (by omega)]
  have hnext : patMag (0x3F800000 + 1) = 2 ^ 149 + 2 ^ 126 := by decide +kernel
  rw [unitsOf_of_signOf hs, magOf_eq] at h ⊢
  rw [unitsOf_lit1] at h
  have hpat : 0x3F800000 < w.toNat % 2 ^ 31 := patMag_strictMono.lt_iff_lt.1 (by rw [patMag_lit1]; omega)
  have := patMag_mono (show 0x3F800000 + 1 ≤ w.toNat % 2 ^ 31 from hpat)
  omega

/-- What lies above 1 by less than half a step of the format rounds to at most 1. -/
theorem le_lit1_of_nearestTo {num : Int} {r : Word} (h : nearestTo num 1 r) (hfin : isFinite r = true)
    (hnum : num < 2 ^ 149 + 2 ^ 125) : unitsOf r ≤ unitsOf lit1 := by
  by_contra hgt
  have hnext := unitsOf_gt_lit1 (not_le.1 hgt)
  rw [nearestTo, if_pos hfin] at h
  have hnear := (h.2 lit1 (by decide)).1
  rw [unitsOf_lit1] at hnear
  omega

/-- A factor in [0, 1] takes a finite value toward zero, and not past it. -/
theorem fmul_unit_toward_zero {d alpha : Word} (hd : isFinite d = true) (ha : within posZero lit1 alpha = true) :
    isFinite (fmul d alpha) = true ∧ min (unitsOf d) 0 ≤ unitsOf (fmul d alpha)
      ∧ unitsOf (fmul d alpha) ≤ max (unitsOf d) 0 := by
  obtain ⟨hafin, halo, hahi⟩ := finiteWithin_iff.1 (finiteWithin_of_within_unit ha)
  rw [unitsOf_posZero] at halo
  rw [unitsOf_lit1] at hahi
  have hnear := nearestTo_fmul hd hafin
  have hzero : unitsOf posZero * (2 ^ 149 : Nat) = 0 := by rw [unitsOf_posZero, Int.zero_mul]
  rcases Int.le_total 0 (unitsOf d) with hpos | hneg
  · obtain ⟨hfin, hlo, hhi⟩ := finiteWithin_iff.1 <| finiteWithin_of_nearestTo (Nat.two_pow_pos _) hnear
      (lo := posZero) (by decide) hd (by rw [hzero]; exact Int.mul_nonneg hpos halo)
      (Int.mul_le_mul_of_nonneg_left hahi hpos)
    rw [unitsOf_posZero] at hlo
    exact ⟨hfin, by omega, by omega⟩
  · obtain ⟨hfin, hlo, hhi⟩ := finiteWithin_iff.1 <| finiteWithin_of_nearestTo (Nat.two_pow_pos _) hnear
      (hi := posZero) hd (by decide) (Int.mul_le_mul_of_nonpos_left hneg hahi)
      (by rw [hzero]; exact Int.mul_nonpos_of_nonpos_of_nonneg hneg halo)
    rw [unitsOf_posZero] at hhi
    exact ⟨hfin, by omega, by omega⟩

/-! ## One step of the crossfade (R129 step 1) -/

theorem crossfade_toward_zero {xf alpha : Word} (hxf : within posZero lit1 xf = true)
    (ha : within posZero lit1 alpha = true) : within posZero lit1 (crossfade xf posZero alpha) = true := by
  obtain ⟨hfin, hlo, hhi⟩ := finiteWithin_iff.1 (finiteWithin_of_within_unit hxf)
  have hzero := unitsOf_posZero
  have hneg := unitsOf_fneg xf
  have hnegfin := (isFinite_fneg xf).trans hfin
  obtain ⟨hdfin, hdlo, hdhi⟩ := finiteWithin_iff.1 <| finiteWithin_of_nearestTo (lo := fneg xf) (hi := fneg xf)
    Nat.one_pos (nearestTo_fsub (a := posZero) (by decide) hfin) hnegfin hnegfin (by omega) (by omega)
  obtain ⟨hpfin, hplo, hphi⟩ := fmul_unit_toward_zero hdfin ha
  exact within_of_finiteWithin <| finiteWithin_of_nearestTo Nat.one_pos (nearestTo_fadd hfin hpfin) (by decide)
    (by decide) (by omega) (by omega)

theorem crossfade_toward_one {xf alpha : Word} (hxf : within posZero lit1 xf = true)
    (ha : within posZero lit1 alpha = true) : within posZero lit1 (crossfade xf lit1 alpha) = true := by
  obtain ⟨hfin, hlo, hhi⟩ := finiteWithin_iff.1 (finiteWithin_of_within_unit hxf)
  have hzero := unitsOf_posZero
  have hone := unitsOf_lit1
  have htwo : unitsOf lit2 = 2 ^ 150 := by decide +kernel
  have hdnear := nearestTo_fsub (a := lit1) (by decide) hfin
  obtain ⟨hdfin, hdlo, -⟩ := finiteWithin_iff.1 <| finiteWithin_of_nearestTo (lo := posZero) (hi := lit1)
    Nat.one_pos hdnear (by decide) (by decide) (by omega) (by omega)
  have hdhi := lt_add_of_nearestTo hdnear hdfin (by omega) (by omega)
  obtain ⟨hpfin, hplo, hphi⟩ := fmul_unit_toward_zero hdfin ha
  have hrnear := nearestTo_fadd hfin hpfin
  obtain ⟨hrfin, hrlo, -⟩ := finiteWithin_iff.1 <| finiteWithin_of_nearestTo (lo := posZero) (hi := lit2)
    Nat.one_pos hrnear (by decide) (by decide) (by omega) (by omega)
  exact within_iff.2 ⟨isNaN_of_isFinite hrfin, hrlo, le_lit1_of_nearestTo hrnear hrfin (by omega)⟩

theorem crossfade_within {xf xfT alpha : Word} (hxf : within posZero lit1 xf = true)
    (ha : within posZero lit1 alpha = true) (hT : xfT = posZero ∨ xfT = lit1) :
    within posZero lit1 (crossfade xf xfT alpha) = true := by
  rcases hT with rfl | rfl
  · exact crossfade_toward_zero hxf ha
  · exact crossfade_toward_one hxf ha

/-! ## The coefficient (R121) -/

/-- A sealed value that is no NaN keeps its bounds. -/
theorem within_sealNaN {lo hi w : Word} (h : within lo hi w = true) (d : Nat) (l : Loc) :
    within lo hi (sealNaN d l w) = true := by
  obtain ⟨hnan, -⟩ := within_iff.1 h
  rwa [sealNaN_of_not_isNaN hnan]

/-- At every rate EPREP accepts, 0.075·FS lies in [1, 16384]. -/
theorem fmul_lit0_075_within {fs : Word} (hfs : RateOk fs) :
    finiteWithin lit1 0x46800000#32 (fmul lit0_075 fs) = true := by
  obtain ⟨hfin, hlo, hhi⟩ := finiteWithin_iff.1 hfs
  have hmin : unitsOf 0x45FA0000#32 = 8000 * 2 ^ 149 := by decide +kernel
  have hmax : unitsOf 0x483B8000#32 = 192000 * 2 ^ 149 := by decide +kernel
  have hcoef : unitsOf lit0_075 = 0x99999A * 2 ^ 122 := by decide +kernel
  have hbound : unitsOf 0x46800000#32 = 2 ^ 163 := by decide +kernel
  have hone := unitsOf_lit1
  refine finiteWithin_of_nearestTo (Nat.two_pow_pos _) (nearestTo_fmul (by decide) hfin) (by decide) (by decide) ?_ ?_
  · rw [hone, hcoef]
    omega
  · rw [hbound, hcoef]
    omega

/-- Minus the reciprocal of a value in [1, 16384] lies in [−1, −1/16384]. -/
theorem fdiv_litNeg1_within {d : Word} (hd : finiteWithin lit1 0x46800000#32 d = true) :
    finiteWithin litNeg1 0xB8800000#32 (fdiv litNeg1 d) = true := by
  obtain ⟨hfin, hlo, hhi⟩ := finiteWithin_iff.1 hd
  have hbound : unitsOf 0x46800000#32 = 2 ^ 163 := by decide +kernel
  have hnegOne : unitsOf litNeg1 = -2 ^ 149 := by decide +kernel
  have hleast : unitsOf 0xB8800000#32 = -2 ^ 135 := by decide +kernel
  rw [unitsOf_lit1] at hlo
  have hs : signOf d = false := by rw [signOf_eq_of_unitsOf_ne_zero (by omega), decide_eq_false (by omega)]
  have hunits := unitsOf_of_signOf hs
  have hnear := nearestTo_fdiv (a := litNeg1) (by decide) hfin (by omega)
  rw [Int.sign_eq_one_of_pos (by omega), Int.mul_one] at hnear
  refine finiteWithin_of_nearestTo (by omega) hnear (by decide) (by decide) ?_ ?_
  · rw [hnegOne]
    omega
  · rw [hnegOne, hleast]
    omega

/-- The exponential of a value in [−80, 0) lies in (0, 1], so the coefficient is a difference of values in [0, 1]. -/
theorem xfAlphaOf_within {c : Cfg} (hc : c.num.ok) {fs : Word} (hfs : RateOk fs) :
    within posZero lit1 (xfAlphaOf c fs) = true := by
  obtain ⟨hxfin, hxlo, hxhi⟩ := finiteWithin_iff.1 (fdiv_litNeg1_within (fmul_lit0_075_within hfs))
  unfold xfAlphaOf
  generalize fdiv litNeg1 (fmul lit0_075 fs) = x at *
  have hnan := isNaN_of_isFinite hxfin
  have hneg : flt x posZero = true :=
    flt_of_unitsOf_lt hnan (by decide) (hxhi.trans_lt (by decide +kernel))
  have hrange : flt 0xC2A00000#32 x = true :=
    flt_of_unitsOf_lt (by decide) hnan (lt_of_lt_of_le (by decide +kernel) hxlo)
  obtain ⟨hpos, hle⟩ := hc.exp_neg x hneg hrange
  obtain ⟨-, henan, hpos⟩ := flt_iff.1 hpos
  simp only [fge, Bool.and_eq_true, decide_eq_true_eq] at hle
  obtain ⟨-, hle⟩ := hle
  obtain ⟨hefin, -, -⟩ := finiteWithin_iff.1 (finiteWithin_of_within_unit (within_iff.2 ⟨henan, hpos.le, hle⟩))
  have hzero := unitsOf_posZero
  exact within_of_finiteWithin <| finiteWithin_of_nearestTo Nat.one_pos (nearestTo_fsub (by decide) hefin) (by decide)
    (by decide) (by omega) (by omega)

/-! ## What the operations keep -/

theorem State.relength_xf (s : State) (c : Cfg) : (s.relength c).fdn.xf = s.fdn.xf := by dsimp only [State.relength]

theorem State.relength_xfT (s : State) (c : Cfg) : (s.relength c).fdn.xfT = s.fdn.xfT := by dsimp only [State.relength]

namespace CrossfadeInv

variable {s t : State} (h : CrossfadeInv s)
include h

theorem congr (hxf : t.fdn.xf = s.fdn.xf) (hxfT : t.fdn.xfT = s.fdn.xfT) (halpha : t.xfAlpha = s.xfAlpha) :
    CrossfadeInv t := by
  rwa [CrossfadeInv, hxf, hxfT, halpha]

/-- An operation outside the network's own fields and `XF_ALPHA` keeps the invariant. -/
theorem congr_fdn (hfdn : t.fdn = s.fdn) (halpha : t.xfAlpha = s.xfAlpha) : CrossfadeInv t :=
  h.congr (by rw [hfdn]) (by rw [hfdn]) halpha

theorem relength (c : Cfg) : CrossfadeInv (s.relength c) :=
  h.congr (s.relength_xf c) (s.relength_xfT c) (s.relength_xfAlpha c)

theorem setSize (c : Cfg) (w : Word) : CrossfadeInv (s.setSize c w) :=
  (h.congr (t := s.setFdn { s.fdn with scale := fclamp w lit0_5 lit1_5 }) rfl rfl rfl).relength c

theorem setRT60 (c : Cfg) (w : Word) : CrossfadeInv (s.setRT60 c w) :=
  (h.congr (t := s.setFdn { s.fdn with rt60 := fclamp w lit0_1 lit60 }) rfl rfl rfl).relength c

theorem setMod (c : Cfg) (r d : Word) : CrossfadeInv (s.setMod c r d) :=
  h.congr (by dsimp only [State.setMod]) (by dsimp only [State.setMod]) (s.setMod_xfAlpha c r d)

theorem setFreeze (on : Bool) : CrossfadeInv (s.setFreeze on) := by
  obtain ⟨hxf, halpha, -⟩ := h
  refine ⟨hxf, halpha, ?_⟩
  cases on with
  | false => exact .inl rfl
  | true => exact .inr rfl

theorem tickState (c : Cfg) (x : Word) : CrossfadeInv (s.tickState c x) := by
  obtain ⟨hxf, halpha, hxfT⟩ := h
  have hnext : within posZero lit1 s.tickXf = true := within_sealNaN (crossfade_within hxf halpha hxfT) _ _
  rw [CrossfadeInv, s.tickState_xfAlpha]
  simp only [State.tickState]
  exact ⟨hnext, halpha, hxfT⟩

theorem applySnapshot (c : Cfg) : CrossfadeInv (s.applySnapshot c) := by
  refine State.applySnapshot_keeps (P := CrossfadeInv) c ?_ ?_ ?_ (fun _ w h => h.setSize c w)
    (fun _ w h => h.setRT60 c w) ?_ (fun _ r d h => h.setMod c r d) (fun _ on h => h.setFreeze on) ?_ ?_ ?_ s h
  all_goals
    intros
    exact congr_fdn ‹_› (by simp) (by simp)

theorem sample (c : Cfg) (nch n : Nat) : CrossfadeInv (s.sample c nch n) := by
  refine State.sample_keeps (P := CrossfadeInv) c ?_ ?_ (fun _ x h => h.tickState c x) ?_ ?_ ?_ nch n s h
  all_goals
    intros
    exact congr_fdn ‹_› (by simp) (by simp)

theorem block (c : Cfg) (nch k : Nat) :
    CrossfadeInv (State.samples c nch k (s.applySnapshot c).beginBlock).endBlock := by
  have hbegin : CrossfadeInv (s.applySnapshot c).beginBlock := (h.applySnapshot c).congr_fdn (by simp) (by simp)
  have hsamples := State.samples_keep (P := CrossfadeInv) c nch (fun n _ h => h.sample c nch n)
    (fun _ h => h.congr_fdn (by simp) (by simp)) k _ hbegin
  exact hsamples.congr_fdn (by simp) (by simp)

end CrossfadeInv

/-- EPREP establishes the invariant: crossfade and target at 0, and the coefficient of an accepted rate. -/
theorem crossfadeInv_prepare {c : Cfg} (hc : c.num.ok) (s : State) (nch : Nat) (fs64 : DWord) (maxBlock : Word)
    {z : Sizing} (hrate : RateOk z.fs) : CrossfadeInv (s.prepare c nch fs64 maxBlock z) := by
  have halpha : within posZero lit1 (s.prepare c nch fs64 maxBlock z).xfAlpha = true := by
    simpa [State.prepare] using within_sealNaN (xfAlphaOf_within hc hrate) s.draws .xfAlpha
  refine ⟨?_, halpha, .inl ?_⟩
  · simp [State.prepare, State.relength_xf, Fdn.prepared, show within posZero lit1 posZero = true by decide +kernel]
  · simp [State.prepare, State.relength_xfT, Fdn.prepared]

/-! ## Commands and steps -/

section
variable {s : State} (h : CrossfadeInv s)
include h

theorem crossfadeInv_whenPrepared {k : State} (hk : CrossfadeInv k) : CrossfadeInv (whenPrepared s k) :=
  whenPrepared_keeps (fun _ _ => h) fun _ => hk

theorem crossfadeInv_onUnit {limit u : Nat} {k : Fin limit → State} (hk : ∀ i, CrossfadeInv (k i)) :
    CrossfadeInv (onUnit limit u s k) := onUnit_keeps (fun _ _ => h) hk

theorem crossfadeInv_eprep (nch : Nat) (fsHi fsLo maxBlock : Word) :
    CrossfadeInv (eprep cfg nch fsHi fsLo maxBlock s) := by
  by_cases hbad : eprep cfg nch fsHi fsLo maxBlock s = s.faulted .badConfig
  · rw [hbad]
    exact h
  · obtain ⟨hok, hrun⟩ := eprep_ne_faulted hbad
    rw [hrun]
    exact crossfadeInv_prepare cfgDefault_ok.2.num s _ _ _ (modulatorsOk_prepare hok).rate

theorem execIn_crossfadeInv (i : Instr) : CrossfadeInv (execIn cfg i s) := by
  cases i with
  | eprep nch hi lo mb => exact crossfadeInv_eprep h nch hi lo mb
  | eproc nch n => exact eproc_keeps (P := CrossfadeInv) (fun _ _ => h) (h.block cfg nch (u32 n))
  | fsetsize w => exact crossfadeInv_whenPrepared h (h.setSize cfg w)
  | fsetrt60 w => exact crossfadeInv_whenPrepared h (h.setRT60 cfg w)
  | fsetmod r d => exact crossfadeInv_whenPrepared h (h.setMod cfg r d)
  | fsetfrz on => exact crossfadeInv_whenPrepared h (h.setFreeze on)
  | ftick x => exact crossfadeInv_whenPrepared h ((h.tickState cfg x).congr_fdn (by simp) (by simp))
  | dlprep _ _ | apprep _ _ =>
    exact crossfadeInv_onUnit h fun _ => capacityCheck_keeps (P := CrossfadeInv) (fun _ _ => h) fun _ =>
      h.congr_fdn (by simp) (by simp)
  | erst | esetp _ | fsetdamp _ | fmix _ _ => exact crossfadeInv_whenPrepared h (h.congr_fdn (by simp) (by simp))
  | dlrst _ | dlsetd _ _ | dlpush _ _ | dlrdlin _ _ _ | dlrdlag _ _ _ | dlproc _ _ _ _ _ | aprst _ | apsetg _ _
  | approc _ _ | lprst _ | lpsetc _ _ | lpproc _ _ | lfoseed _ _ | lfosetr _ _ | lfosetd _ _ | lfonext _ | smset _ _
  | smnext _ | smsnap _ => exact crossfadeInv_onUnit h fun _ => h.congr_fdn (by simp) (by simp)

end

/-- Settles O48: EPREP stores a coefficient in [0, 1], and a rounded crossfade step does not leave [0, 1]. -/
theorem stepKeepsTheCrossfadeInUnit : Obligations.StepKeepsTheCrossfadeInUnit := fun s _ h hs =>
  stepIn_keeps (P := CrossfadeInv) (fun _ _ _ h => h) (fun _ _ _ h => h) (fun i _ h => execIn_crossfadeInv h i) h
    (step_eq_stepIn s ▸ hs)

end Sys2Proof.Machine


/-! The network commands (spec/44_fdn8.md R123 to R132). Each stores what its rule computes, with a NaN's payload
drawn at the store (log 6). At width 0 the stereo matrix adds and subtracts a zero, and either leaves the value of the
mid sum. -/

namespace Sys2Proof.Machine

/-! ## The setters (R123 to R126, R128) -/

theorem State.relength_fdn (s : State) (c : Cfg) : (s.relength c).fdn = { s.fdn with g := s.newGains c } := by
  dsimp only [State.relength]

theorem State.setDamp_lp (s : State) (c : Cfg) (hz : Word) :
    (s.setDamp c hz).lp = mapDamp s.lp fun i p => p.withCutoff c s.draws i s.fs hz := by
  dsimp only [State.setDamp]

/-- The base of a network line after R123. -/
theorem State.relength_base (s : State) (c : Cfg) (i : Fin 8) :
    (s.relength c).dl[fdnLine i].base = laneLength c s.fsr s.fdn.scale s.dl[fdnLine i].cap i := by
  rw [State.relength_dl, get_mapLanes_fdnLine]

/-- The gain of a lane after R123 is that of its new length. -/
theorem State.relength_gain (s : State) (c : Cfg) (i : Fin 8) :
    (s.relength c).fdn.g[i] = laneGain c s.fs s.fdn.rt60 (s.relength c).dl[fdnLine i].base := by
  rw [State.relength_fdn, State.newGains, get_ofFn]
  rfl

/-- R123 sets bases of network lines alone. -/
theorem State.relength_line (s : State) (c : Cfg) (u : Fin 18) :
    (s.relength c).dl[u] = if 10 ≤ u.val then { s.dl[u] with base := (s.relength c).dl[u].base } else s.dl[u] := by
  rw [State.relength_dl, get_mapLanes]
  split <;> rfl

/-- Settles O20: both commands store their clamped operand and run the procedure of R123. -/
theorem fsetsizeAndFsetrt60RecomputeLengthsAndGains : Obligations.FsetsizeAndFsetrt60RecomputeLengthsAndGains := by
  intro x s h relengthed
  have hrun : ∀ scale rt60,
      relengthed scale rt60 ((s.setFdn { s.fdn with scale := scale, rt60 := rt60 }).relength cfg) :=
    fun _ _ => ⟨rfl, fun i => ⟨State.relength_base _ _ i, State.relength_gain _ _ i⟩,
      State.relength_line _ _, rfl⟩
  exact ⟨rfl, rfl, ⟨_, exec_fsetsize h x, hrun _ _⟩, ⟨_, exec_fsetrt60 h x, hrun _ _⟩⟩

/-- Settles O21: the eight damping filters store the sealed coefficient, the others are not touched. -/
theorem fsetdampSetsTheEightDampingFilters : Obligations.FsetdampSetsTheEightDampingFilters := by
  intro hz s h
  refine ⟨rfl, _, exec_fsetdamp h hz, fun f => ?_, rfl⟩
  rw [State.setDamp_lp, get_mapDamp]
  split
  · next hf => exact ⟨rfl, fun _ => OnePole.holds_withCutoff_G _ _ _ _ _ _, fun hge => absurd hf (by omega)⟩
  · next hf => exact ⟨rfl, fun hlt => absurd hlt hf, fun _ => rfl⟩

/-- Settles O23: `FREEZE` and `UNFREEZE` are the two forms of FSETFRZ, which stores 1 or 0 into the target. -/
theorem fsetfrzSetsTheCrossfadeTarget : Obligations.FsetfrzSetsTheCrossfadeTarget := fun _ h =>
  ⟨rfl, rfl, exec_fsetfrz h true, exec_fsetfrz h false⟩

/-! ## The tick (R129) -/

theorem State.tickState_fdn (s : State) (c : Cfg) (x : Word) :
    (s.tickState c x).fdn = { s.fdn with xf := s.tickXf } := by
  dsimp only [State.tickState]

theorem State.tickState_lfo_get (s : State) (c : Cfg) (x : Word) (i : Fin 8) :
    (s.tickState c x).lfo[i] = s.lfo[i].after c s.draws i := by
  dsimp only [State.tickState]
  rw [get_ofFn, State.tickLfo]

theorem State.tickState_lp (s : State) (c : Cfg) (x : Word) : (s.tickState c x).lp =
    mapDamp s.lp fun i p => p.after s.draws i (s.tickDrive c i) := by dsimp only [State.tickState, State.tickLP]

theorem State.tickState_lp_damp (s : State) (c : Cfg) (x : Word) (i : Fin 8) :
    (s.tickState c x).lp[dampLP i] = s.lp[dampLP i].after s.draws i (s.tickDrive c i) := by
  rw [State.tickState_lp, get_mapDamp_dampLP]

theorem State.tickState_dl_lane (s : State) (c : Cfg) (x : Word) (i : Fin 8) : (s.tickState c x).dl[fdnLine i] =
    s.dl[fdnLine i].push (sealNaN s.draws (.ram (fdnLine i)) (s.tickPushed c x i)) := by
  rw [State.tickState_dl, get_mapLanes_fdnLine]

theorem State.putAllRes_get (s : State) (v : Vector Word 8) (i : Fin 8) :
    (s.putAllRes v).res[i] = sealNaN s.draws (.res i) v[i] := by
  rw [State.putAllRes_res, get_ofFn]

/-- Settles O24: each field of the next state is one lane's function of the state before, sealed where it is stored. -/
theorem ftickRunsOneNetworkStep : Obligations.FtickRunsOneNetworkStep := by
  intro xIn s h hwf
  refine ⟨rfl, _, exec_ftick h xIn, ?_⟩
  rw [State.putAllRes_fdn, State.putAllRes_lfo, State.putAllRes_lp, State.putAllRes_dl, State.tickState_fdn]
  refine ⟨holds_sealNaN _ _ _, rfl, ?_, fun u hu => ?_, fun f hf => ?_, ?_⟩
  · intro r xi i p ge x v fb d
    rw [State.tickState_lfo_get, State.tickState_lp_damp, State.tickState_dl_lane, State.putAllRes_get,
      State.tickState_draws]
    refine ⟨holds_sealNaN _ _ _, rfl, OnePole.holds_after_s _ _ _ _, rfl, ?_, fun _ ha => memRead_memWrite_other _ ha _,
      rfl, holds_sealNaN _ _ _⟩
    rw [DelayLine.push, memRead_memWrite_same (hwf i)]
    exact holds_sealNaN _ _ _
  · rw [State.tickState_dl, get_mapLanes_low _ _ hu]
  · rw [State.tickState_lp, get_mapDamp, dif_neg (by omega)]
  · dsimp only [State.putAllRes, State.tickState]

/-! ## The stereo matrix (R132) -/

/-- Settles O26: the two sealed outputs go into `RES[0]` and `RES[1]`. -/
theorem fmixReconstructsStereo : Obligations.FmixReconstructsStereo := by
  intro v width s h
  refine ⟨rfl, _, _, holds_sealNaN s.draws (.res 0) _, holds_sealNaN s.draws (.res 1) _, ?_⟩
  exact exec_fmix h v width

/-! ## Width 0 (R132's corner case) -/

theorem feq_iff {a b : Word} : feq a b = true ↔ isNaN a = false ∧ isNaN b = false ∧ unitsOf a = unitsOf b := by
  simp only [feq, Bool.and_eq_true, Bool.not_eq_true', decide_eq_true_eq, and_assoc]

theorem isFinite_or_isInf {w : Word} (h : isNaN w = false) : isFinite w = true ∨ isInf w = true := by
  rw [isNaN_eq, decide_eq_false_iff_not] at h
  rw [isFinite_eq, isInf_eq, decide_eq_true_eq, decide_eq_true_eq]
  omega

theorem withSign_of_isInf {w : Word} (h : isInf w = true) : withSign (signOf w) 0x7F800000 = w := by
  rw [isInf_eq, decide_eq_true_eq] at h
  rw [← h, withSign_self]

theorem magOf_ne_zero_of_isInf {w : Word} (h : isInf w = true) : magOf w ≠ 0 := by
  rw [isInf_eq, decide_eq_true_eq] at h
  rw [magOf_eq, h]
  decide +kernel

/-- One is neutral: the product of a value that is no NaN is exact. -/
theorem fmul_lit1_left {w : Word} (h : isNaN w = false) : fmul lit1 w = w := by
  have hs : (signOf lit1 != signOf w) = signOf w := by
    rw [show signOf lit1 = false by decide, Bool.false_bne]
  rcases isFinite_or_isInf h with hfin | hinf
  · rw [fmul_of_isFinite (by decide) hfin, hs, magOf_lit1, Nat.mul_comm]
    exact roundTo_magOf h 149
  · have hprod : fmul lit1 w = withSign (signOf w) 0x7F800000 := by
      simp [fmul, h, hinf, hs, magOf_ne_zero_of_isInf hinf, magOf_lit1, show isNaN lit1 = false by decide]
    rw [hprod, withSign_of_isInf hinf]

/-- The product with +0 of a finite value is a zero. -/
theorem magOf_fmul_posZero {w : Word} (h : isFinite w = true) : magOf (fmul posZero w) = 0 := by
  rw [fmul_of_isFinite (by decide) h, show magOf posZero = 0 by decide, Nat.zero_mul, magOf_roundTo, roundMag_zero]
  decide

/-- The sum with a zero keeps the value. Its sign may change where the value is a zero itself. -/
theorem fadd_zero {a z : Word} (ha : isNaN a = false) (hz : magOf z = 0) :
    isNaN (fadd a z) = false ∧ unitsOf (fadd a z) = unitsOf a := by
  have hzfin : isFinite z = true := isFinite_of_magOf_lt (by omega)
  rcases isFinite_or_isInf ha with hfin | hinf
  · have hunits := natAbs_unitsOf z
    obtain ⟨hsfin, hlo, hhi⟩ := finiteWithin_iff.1 <| finiteWithin_of_nearestTo (lo := a) (hi := a) Nat.one_pos
      (nearestTo_fadd hfin hzfin) hfin hfin (by omega) (by omega)
    exact ⟨isNaN_of_isFinite hsfin, by omega⟩
  · have hsum : fadd a z = a := by
      simp [fadd, ha, hinf, isNaN_of_isFinite hzfin, isInf_of_isFinite hzfin]
    rw [hsum]
    exact ⟨ha, rfl⟩

theorem fsub_zero {a z : Word} (ha : isNaN a = false) (hz : magOf z = 0) :
    isNaN (fsub a z) = false ∧ unitsOf (fsub a z) = unitsOf a :=
  fadd_zero ha ((magOf_fneg z).trans hz)

theorem sideScale_of_zero {c : Cfg} (hc : c.num.ok) {width : Word} (h : width = posZero ∨ isNaN width = true) :
    sideScale c width = posZero := by
  have hclamp : fclamp width posZero lit1 = posZero := by
    rcases h with rfl | hnan
    · exact fclamp_of_within (by decide +kernel)
    · exact fclamp_of_isNaN hnan _ _
  rw [sideScale, hclamp, show fmul litHalfPi posZero = posZero by decide +kernel, hc.sin_zero]

theorem midScale_posZero : midScale posZero = lit1 := by decide +kernel

/-- At width 0 the side part of either output is a zero, and the mid part is the mid sum. -/
theorem mixStereo_of_zero {c : Cfg} (hc : c.num.ok) {width : Word} (h : width = posZero ∨ isNaN width = true)
    {v : Vector Word 8} (hmid : isNaN (mixMid c v) = false) :
    mixStereo c v width
      = (fadd (mixMid c v) (fmul posZero (mixSide c v)), fsub (mixMid c v) (fmul posZero (mixSide c v))) := by
  rw [mixStereo, sideScale_of_zero hc h, midScale_posZero, fmul_lit1_left hmid]

/-- What the two result registers of FMIX hold. -/
theorem State.putRes_pair (s : State) (l r : Word) :
    ((s.putRes 0 l).putRes 1 r).res[(0 : Fin 8)] = sealNaN s.draws (.res 0) l
      ∧ ((s.putRes 0 l).putRes 1 r).res[(1 : Fin 8)] = sealNaN s.draws (.res 1) r := by
  refine ⟨?_, State.putRes_get _ _ _⟩
  rw [State.putRes_res_other (by decide), State.putRes_get]
  rfl

/-- Settles O56: both outputs are the mid sum and a zero, added or subtracted. -/
theorem widthZeroIsMono : Obligations.WidthZeroIsMono := by
  intro v width s t h hwidth hside hmid ht
  rw [exec_fmix h, mixStereo_of_zero (c := cfg) cfgDefault_ok.2.num hwidth hmid, Host.Outcome.next.injEq] at ht
  have hz := magOf_fmul_posZero hside
  generalize fmul posZero (mixSide cfg v) = z at ht hz
  obtain ⟨hlnan, hl⟩ := fadd_zero hmid hz
  obtain ⟨hrnan, hr⟩ := fsub_zero hmid hz
  obtain ⟨hres0, hres1⟩ := s.putRes_pair (fadd (mixMid cfg v) z) (fsub (mixMid cfg v) z)
  rw [ht, sealNaN_of_not_isNaN hlnan] at hres0
  rw [ht, sealNaN_of_not_isNaN hrnan] at hres1
  show feq t.res[(0 : Fin 8)] t.res[(1 : Fin 8)] = true ∧ feq t.res[(0 : Fin 8)] (mixMid cfg v) = true
  rw [hres0, hres1]
  exact ⟨feq_iff.2 ⟨hlnan, hrnan, hl.trans hr.symm⟩, feq_iff.2 ⟨hlnan, hmid, hl⟩⟩

end Sys2Proof.Machine

/-! The smoothers (spec/45_smoother.md R141 to R143): what SMSET and SMNEXT do to one smoother, an equation a case, and
the ramp as an invariant over its remaining samples. -/

namespace Sys2Proof.Machine

/-! ## One smoother (R141, R142) -/

section
variable {m : Smoother} {d k : Nat}

theorem Smoother.toward_of_ignored {t : Word} (h : isNaN t = true ∨ feq t m.target = true) (smN : Nat) :
    m.toward d k smN t = m := by
  rw [Smoother.toward, if_pos (Bool.or_eq_true_iff.2 h)]

theorem Smoother.toward_of_new {t : Word} (hnan : isNaN t = false) (hnew : feq t m.target = false) (smN : Nat) :
    m.toward d k smN t
      = { m with target := t, count := smN, step := sealNaN d (.smStep k) (fdiv (fsub t m.cur) (floatOf smN)) } := by
  rw [Smoother.toward, hnan, hnew]
  rfl

theorem Smoother.advanced_of_count_zero (h : m.count = 0) : m.advanced d k = m := by
  simp only [Smoother.advanced, h]

theorem Smoother.advanced_of_count_one (h : m.count = 1) :
    m.advanced d k = { m with cur := m.target, count := 0 } := by
  simp only [Smoother.advanced, h]

theorem Smoother.advanced_of_two_le_count (h : 2 ≤ m.count) :
    m.advanced d k = { m with cur := sealNaN d (.smCur k) (fadd m.cur m.step), count := m.count - 1 } := by
  obtain ⟨c, hc⟩ := Nat.exists_eq_add_of_le' h
  simp only [Smoother.advanced, hc, Nat.add_succ_sub_one]

theorem Smoother.advanced_count : (m.advanced d k).count = m.count - 1 := by
  rcases m with ⟨cur, target, step, _ | _ | c⟩ <;> rfl

theorem Smoother.advanced_target : (m.advanced d k).target = m.target := by
  rcases m with ⟨cur, target, step, _ | _ | c⟩ <;> rfl

/-- The last sample of a ramp lands on the target, and a smoother that rests on its target stays there. -/
theorem Smoother.advanced_cur_of_count_le_one (hle : m.count ≤ 1) (hrest : m.count = 0 → m.cur = m.target) :
    (m.advanced d k).cur = m.target := by
  rcases Nat.le_one_iff_eq_zero_or_eq_one.1 hle with h0 | h1
  · rw [Smoother.advanced_of_count_zero h0, hrest h0]
  · rw [Smoother.advanced_of_count_one h1]

end

/-! ## SMSET, SMNEXT and SMSNAP -/

theorem State.setSM_self (s : State) (k : Fin 2) : s.setSM k s.sm[k] = s := by
  rw [State.setSM, Fin.getElem_fin, Vector.set_getElem_self]

/-- Settles O27: the two cases of R141, the new step sealed. -/
theorem smsetStartsARamp : Obligations.SmsetStartsARamp := by
  intro k t s h
  refine ⟨rfl, fun hignored => ?_, fun hnan hnew => ⟨_, holds_sealNaN s.draws (.smStep k) _, ?_⟩⟩
  · rw [exec_smset h, Smoother.toward_of_ignored hignored, State.setSM_self]
  · rw [exec_smset h, Smoother.toward_of_new hnan hnew]
    rfl

/-- Settles O28: SMNEXT by the count, the sum of a running ramp sealed. -/
theorem smnextAdvancesAndSmsnapJumps : Obligations.SmnextAdvancesAndSmsnapJumps := by
  intro k s h
  refine ⟨rfl, rfl, fun h0 => ?_, fun h1 => ?_, fun h2 => ⟨_, holds_sealNaN s.draws (.smCur k) _, ?_⟩, exec_smsnap h k⟩
  · rw [exec_smnext h, Smoother.advanced_of_count_zero h0, State.setSM_self]
    rfl
  · rw [exec_smnext h, Smoother.advanced_of_count_one h1]
    rfl
  · rw [exec_smnext h, Smoother.advanced_of_two_le_count h2]
    rfl

/-! ## A whole ramp -/

/-- `SM[k]` of a prepared core has `c` samples to go to `target`. At 0 it stands there, as `RES[0]` says. -/
structure OnRamp (k : Fin 2) (target : Word) (c : Nat) (s : State) : Prop where
  prepared : s.status.prepared = true
  hasTarget : s.sm[k].target = target
  remaining : s.sm[k].count = c
  landed : c = 0 → s.sm[k].cur = target ∧ s.res[(0 : Fin 8)] = target

section
variable {k : Fin 2} {target : Word} {s t : State}

/-- SMSET to a new target puts the smoother on a ramp of `SM_N` samples. -/
theorem onRamp_of_smset (h : s.status.prepared = true) (hN : 1 ≤ s.smN) (hnan : isNaN target = false)
    (hnew : feq target s.sm[k].target = false) (ht : exec (.smset k target) s = .next t) :
    OnRamp k target s.smN t := by
  rw [exec_smset h, Smoother.toward_of_new hnan hnew, Host.Outcome.next.injEq] at ht
  subst ht
  refine ⟨h, ?_, ?_, fun h0 => absurd h0 (Nat.ne_of_gt hN)⟩ <;> rw [State.setSM_sm, get_set_same]

/-- SMNEXT takes one sample off a ramp. -/
theorem OnRamp.smnext {c : Nat} (h : OnRamp k target c s) (ht : exec (.smnext k) s = .next t) :
    OnRamp k target (c - 1) t := by
  rw [exec_smnext h.prepared, Host.Outcome.next.injEq] at ht
  subst ht
  have hsm (m : Smoother) (w : Word) : ((s.setSM k m).copyRes 0 w).sm[k] = m := by
    rw [State.copyRes_sm, State.setSM_sm, get_set_same]
  refine ⟨h.prepared, ?_, ?_, fun hlast => ?_⟩
  · rw [hsm, Smoother.advanced_target, h.hasTarget]
  · rw [hsm, Smoother.advanced_count, h.remaining]
  · have hcur : (s.sm[k].advanced s.draws k).cur = target :=
      (Smoother.advanced_cur_of_count_le_one (h.remaining ▸ Nat.sub_eq_zero_iff_le.1 hlast)
        fun h0 => (h.landed (h.remaining ▸ h0)).1.trans h.hasTarget.symm).trans h.hasTarget
    rw [hsm, State.copyRes_res, get_set_same]
    exact ⟨hcur, hcur⟩

end

/-- Settles O57, by induction on the SMNEXT commands: after `j` of them `SM_N - j` samples of the ramp are left. -/
theorem rampLandsOnItsTarget : Obligations.RampLandsOnItsTarget := by
  intro k target s S h hN hnan hnew hset hnext
  have hramp : ∀ j, OnRamp k target (s.smN - j) (S j) := by
    intro j
    induction j with
    | zero => exact onRamp_of_smset h hN hnan hnew hset
    | succ j ih => exact ih.smnext (hnext j)
  exact ⟨fun j _ => (hramp j).remaining, fun j hj => (hramp j).landed (Nat.sub_eq_zero_of_le hj)⟩

end Sys2Proof.Machine

/-! The interface commands EPREP, ERST and ESETP (spec/46_engine.md R146 to R148). EPREP's checks bound the sample rate,
so the stored rate ratio is no NaN and every size is computed from the quotient itself. -/

namespace Sys2Proof.Machine

/-! ## Banks -/

theorem vector_ext_fin {α : Type} {n : Nat} {v w : Vector α n} (h : ∀ i : Fin n, v[i] = w[i]) : v = w :=
  Vector.ext fun i hi => h ⟨i, hi⟩

theorem get_replicate {α : Type} {n : Nat} (x : α) (i : Fin n) : (Vector.replicate n x)[i] = x := by simp

/-! ## EPREP (R146) -/

/-- The rate ratio of an accepted sample rate is no NaN, so it is stored as it is computed. -/
theorem sizingOf_fsr {fs64 : DWord} (h : RateOk (narrow64 fs64)) (c : Cfg) (draw : Nat) :
    (sizingOf c draw fs64).fsr = fdiv (narrow64 fs64) lit48000 := by
  refine sealNaN_of_not_isNaN ?_ _ _
  rw [fdiv_of_isFinite h.positive.1 (by decide) (by decide +kernel)]
  exact isNaN_roundTo _ _ _

/-- The checks of R146, spelled out. -/
theorem prepareAllowed_iff {c : Cfg} {nch : Nat} {fs64 : DWord} {maxBlock : Word} {z : Sizing} :
    prepareAllowed c nch fs64 maxBlock z = true ↔
      (nch = 1 ∨ nch = 2) ∧ (isNaN64 fs64 = false ∧ flt64 fs64 c.fsMin = false ∧ flt64 c.fsMax fs64 = false)
        ∧ (maxBlock ≠ 0 ∧ maxBlock.toNat ≤ c.blockMax)
        ∧ z.predelayMax + 4 ≤ c.capMax ∧ ∀ i : Fin 8, z.apLen[i] + 4 ≤ c.capMax ∧ z.fdnMax[i] + 4 ≤ c.capMax := by
  rw [← Sizing.fits_iff]
  simp only [prepareAllowed, Bool.and_eq_true, Bool.or_eq_true, Bool.not_eq_true', Bool.or_eq_false_iff, beq_iff_eq,
    beq_eq_false_iff_ne, decide_eq_false_iff_not, not_lt, u32, and_assoc]

section
variable (z : Sizing)

theorem preparedLines_predelay {u : Fin 18} (h : u.val < 2) :
    (preparedLines z)[u] = DelayLine.prepared z.predelayMax := by
  rw [preparedLines, get_ofFn, dif_pos h]

theorem preparedLines_apLine (a : Fin 8) : (preparedLines z)[apLine a] = allpassLine z.apLen[a] := by
  have hval : (apLine a).val = 2 + a.val := rfl
  rw [preparedLines, get_ofFn, dif_neg (by omega), dif_pos (by omega)]
  simp [apLine]

theorem preparedLines_fdnLine (i : Fin 8) : (preparedLines z)[fdnLine i] = DelayLine.prepared z.fdnMax[i] := by
  have hval : (fdnLine i).val = 10 + i.val := rfl
  rw [preparedLines, get_ofFn, dif_neg (by omega), dif_neg (by omega)]
  simp [fdnLine]

theorem preparedLines_empty (u : Fin 18) : (preparedLines z)[u].w = 0 ∧ (preparedLines z)[u].ram = [] := by
  rw [preparedLines, get_ofFn]
  split
  · exact ⟨rfl, rfl⟩
  · split <;> exact ⟨rfl, rfl⟩

variable (s : State) (c : Cfg) (nch : Nat) (fs64 : DWord) (maxBlock : Word)

theorem State.prepare_line_empty (u : Fin 18) :
    (s.prepare c nch fs64 maxBlock z).dl[u].w = 0 ∧ (s.prepare c nch fs64 maxBlock z).dl[u].ram = [] := by
  obtain ⟨hw, hram⟩ := preparedLines_empty z u
  rw [State.prepare_dl, get_mapLanes]
  split
  · dsimp only
    exact ⟨hw, hram⟩
  · exact ⟨hw, hram⟩

theorem State.prepare_line_low {u : Fin 18} (h : u.val < 10) :
    (s.prepare c nch fs64 maxBlock z).dl[u] = (preparedLines z)[u] := by
  rw [State.prepare_dl, get_mapLanes_low _ _ h]

theorem State.prepare_line_lane (i : Fin 8) : (s.prepare c nch fs64 maxBlock z).dl[fdnLine i] =
    { DelayLine.prepared z.fdnMax[i] with base := laneLength c z.fsr lit1 (nextPow2 (z.fdnMax[i] + 4)) i } := by
  rw [State.prepare_dl, get_mapLanes_fdnLine, preparedLines_fdnLine]
  rfl

theorem State.prepare_gain (i : Fin 8) : (s.prepare c nch fs64 maxBlock z).fdn.g[i] =
    laneGain c z.fs lit1 (s.prepare c nch fs64 maxBlock z).dl[fdnLine i].base :=
  State.relength_gain _ c i

end

/-- Settles O1: the model's checks are the legal operands, for the sizes of an accepted rate are the rule's. A prepared
line is read off `preparedLines` and, for the network, the lengths of R123. -/
theorem eprepChecksThenPreparesEveryUnit : Obligations.EprepChecksThenPreparesEveryUnit := by
  intro nch fsHi fsLo maxBlock s fs64 fs fsr pdMax apLen fdnMax legal
  let z : Sizing :=
    { fs := fs, fsr := fsr, predelayMax := pdMax, apLen := Vector.ofFn apLen, fdnMax := Vector.ofFn fdnMax }
  have hz (h : RateOk fs) : sizingOf cfg s.draws fs64 = z := by
    have hfsr : sealNaN s.draws .fsr fsr = fsr := sizingOf_fsr h cfg s.draws
    dsimp only [sizingOf]
    rw [hfsr]
    rfl
  have hallowed : prepareAllowed cfg nch fs64 maxBlock (sizingOf cfg s.draws fs64) = true ↔ legal := by
    rw [prepareAllowed_iff]
    refine and_congr_right fun _ => and_congr_right fun hrate => and_congr_right fun _ => ?_
    obtain ⟨hnan, hlo, hhi⟩ := hrate
    rw [hz (rateOk_narrow64 hnan hlo hhi)]
    simp only [z, get_ofFn, forall_and]
  refine ⟨rfl, fun hbad => exec_next.2 (if_neg (mt hallowed.1 hbad)), fun hok => ?_⟩
  obtain ⟨-, ⟨hnan, hlo, hhi⟩, -⟩ := id hok
  refine ⟨s.prepare cfg nch fs64 maxBlock z, exec_next.2 ?_, rfl, rfl, rfl, rfl, rfl, holds_sealNaN _ _ _, rfl,
    fun u a => ?_, fun u hu => ?_, fun a => ?_, fun i => ?_, rfl, rfl, rfl, rfl, fun f => get_replicate _ f,
    fun i => get_replicate _ i, fun k => get_replicate _ k, rfl, rfl, rfl, rfl, rfl, rfl, rfl⟩
  · rw [← hz (rateOk_narrow64 hnan hlo hhi)]
    exact if_pos (hallowed.2 hok)
  · obtain ⟨hw, hram⟩ := s.prepare_line_empty z cfg nch fs64 maxBlock u
    rw [hw, hram]
    exact ⟨rfl, rfl⟩
  · rw [State.prepare_line_low _ _ _ _ _ _ (by omega), preparedLines_predelay z hu]
    exact ⟨rfl, rfl⟩
  · have hlow : (apLine a).val < 10 := by simp [apLine]; omega
    rw [State.prepare_line_low _ _ _ _ _ _ hlow, preparedLines_apLine]
    simp [z, allpassLine, DelayLine.prepared]
  · have hmax : z.fdnMax[i] = fdnMax i := get_ofFn _ _
    rw [State.prepare_gain, State.prepare_line_lane, hmax]
    exact ⟨rfl, rfl, rfl, get_replicate _ i, get_replicate _ i⟩

/-! ## ERST and ESETP (R147, R148) -/

/-- Settles O2: every line and filter is the cleared one. -/
theorem erstClearsEveryLineAndFilter : Obligations.ErstClearsEveryLineAndFilter := by
  intro s h
  refine ⟨rfl, _, exec_erst h, fun u a => ?_, fun u => ?_, fun f => ?_, rfl⟩
  · rw [State.clearAudio, get_ofFn]; rfl
  · rw [State.clearAudio, get_ofFn]; rfl
  · rw [State.clearAudio, get_ofFn]; rfl

theorem storedParams_get (p : Vector Word 13) {k : Fin 13} (hk : k.val < 12) : (storedParams p)[k] = p[k] := by
  have hne : (12 : Fin 13) ≠ k := fun h => by subst h; exact absurd hk (by decide)
  exact get_set_other p (i := 12) hne _

/-- Settles O3: the stored snapshot differs from the operands in word 12 alone. -/
theorem esetpStoresSnapshot : Obligations.EsetpStoresSnapshot := by
  intro p s h
  exact ⟨rfl, _, exec_esetp h p, fun k hk => storedParams_get p hk, get_set_same p 12 _, rfl⟩

end Sys2Proof.Machine

/-! The snapshot application in closed form (spec/46_engine.md R149, R150): what each unit holds after it, as a function
of the state before. That it changes nothing when it is repeated, and which parameter registers it does not read, follow
from the closed form. -/

namespace Sys2Proof.Machine

/-! ## The snapshot application in closed form (R150) -/

/-- The setters of R150 in their order, between the seeding and the end of a first application. -/
def State.applyParams (c : Cfg) (s : State) : State :=
  let s1 := s.setPredelay (predelaySamples s.fs s.prm[3])
  let s2 := s1.setDiffusion (diffusionGain s1.prm[4])
  let s3 := s2.setSize c s2.prm[2]
  let s4 := s3.setRT60 c s3.prm[1]
  let s5 := s4.setDamp c (fclamp s4.prm[7] lit1000 lit16000)
  let s6 := s5.setMod c (fclamp s5.prm[5] lit0_05 lit3) s5.prm[6]
  let s7 := s6.setFreeze (s6.prm[12].getLsbD 0)
  let s8 := (s7.setCutoff c 8 s7.prm[9]).setCutoff c 9 s7.prm[9]
  let s9 := s8.setTarget 0 (fdiv (fclamp s8.prm[0] posZero lit100) lit100)
  s9.setTarget 1 (fclamp s9.prm[10] posZero lit1)

/-- The size R150 sets. -/
def State.sizeParam (s : State) : Word := fclamp s.prm[2] lit0_5 lit1_5

/-- The decay time R150 sets. -/
def State.rt60Param (s : State) : Word := fclamp s.prm[1] lit0_1 lit60

/-- The base R150 gives line `u`, found as `d`: the predelay, a diffuser's own, the length of R123. -/
def State.lineBase (c : Cfg) (s : State) (u : Fin 18) (d : DelayLine) : Nat :=
  if u.val < 2 then min (predelaySamples s.fs s.prm[3]) (d.cap - 4)
  else if h : 10 ≤ u.val then laneLength c s.fsr s.sizeParam d.cap ⟨u.val - 10, by omega⟩
  else d.base

/-- The lines R150 leaves. -/
def State.paramLine (c : Cfg) (s : State) (u : Fin 18) : DelayLine :=
  { s.dl[u] with base := s.lineBase c u s.dl[u] }

/-- The gain R150 gives a network lane. -/
def State.lineGain (c : Cfg) (s : State) (i : Fin 8) : Word :=
  laneGain c s.fs s.rt60Param (s.paramLine c (fdnLine i)).base

/-- The cutoff R150 gives a filter, damping or post. -/
def State.filterCutoff (s : State) (f : Fin 10) : Word :=
  if f.val < 8 then fclamp s.prm[7] lit1000 lit16000 else s.prm[9]

/-- The filters R150 leaves. -/
def State.paramLP (c : Cfg) (s : State) (f : Fin 10) : OnePole :=
  s.lp[f].withCutoff c s.draws f s.fs (s.filterCutoff f)

/-- The modulators R150 leaves. -/
def State.paramLfo (c : Cfg) (s : State) (i : Fin 8) : Lfo := s.modLfo c (fclamp s.prm[5] lit0_05 lit3) s.prm[6] i

/-- The network's fields R150 leaves. -/
def State.paramFdn (c : Cfg) (s : State) : Fdn where
  g := Vector.ofFn (s.lineGain c)
  mode := Vector.ofFn (s.modMode c s.prm[6])
  xf := s.fdn.xf
  xfT := if s.prm[12].getLsbD 0 then lit1 else posZero
  scale := s.sizeParam
  rt60 := s.rt60Param

/-- The target R150 gives a smoother: the mix, the width. -/
def State.smootherTarget (s : State) (k : Fin 2) : Word :=
  if k = 0 then fdiv (fclamp s.prm[0] posZero lit100) lit100 else fclamp s.prm[10] posZero lit1

/-- The smoothers R150 leaves. -/
def State.paramSM (s : State) (k : Fin 2) : Smoother := s.sm[k].toward s.draws k s.smN (s.smootherTarget k)

/-- SMSET by whether the target moves (R141). -/
theorem Smoother.toward_eq_ite (d k smN : Nat) (t : Word) (m : Smoother) : m.toward d k smN t =
    if !isNaN t && !feq t m.target then
      { m with target := t, count := smN, step := sealNaN d (.smStep k) (fdiv (fsub t m.cur) (floatOf smN)) }
    else m := by
  unfold Smoother.toward
  cases isNaN t <;> cases feq t m.target <;> rfl

section
variable (s : State) (c : Cfg)

/-- The first application seeds the modulators before the setters, and snaps the smoothers after them. -/
theorem State.applySnapshot_of_first (h : s.status.first = true) :
    s.applySnapshot c = ((s.seedAll c).applyParams c).finishFirst := by
  unfold State.applySnapshot State.applyParams
  simp [h]

theorem State.applySnapshot_of_not_first (h : s.status.first = false) : s.applySnapshot c = s.applyParams c := by
  unfold State.applySnapshot State.applyParams
  simp [h]

/-- Both runs of R123 set the same lengths, since the first changes neither a capacity nor the size. -/
theorem State.mapLanes_setPredelay :
    let relengthed : Fin 8 → DelayLine → DelayLine := fun i d =>
      { d with base := laneLength c s.fsr s.sizeParam d.cap i }
    mapLanes (mapLanes (s.setPredelay (predelaySamples s.fs s.prm[3])).dl relengthed) relengthed
      = Vector.ofFn (s.paramLine c) := by
  intro relengthed
  refine vector_ext_fin fun u => ?_
  have hlow : (s.setPredelay (predelaySamples s.fs s.prm[3])).dl[u] =
      if u.val < 2 then s.dl[u].withBase (predelaySamples s.fs s.prm[3]) else s.dl[u] := by
    dsimp only [State.setPredelay, State.setDL]
    rw [get_set, get_set]
    by_cases h1 : 1 = u
    · subst h1; rfl
    · by_cases h0 : 0 = u
      · subst h0; rfl
      · rw [if_neg h1, if_neg h0, if_neg (by omega)]
  rw [get_ofFn]
  by_cases hlane : 10 ≤ u.val
  · rw [get_mapLanes, dif_pos hlane, get_mapLanes, dif_pos hlane, hlow, if_neg (by omega), State.paramLine,
      State.lineBase, if_neg (by omega), dif_pos hlane]
  · rw [get_mapLanes, dif_neg hlane, get_mapLanes, dif_neg hlane, hlow, State.paramLine, State.lineBase, dif_neg hlane]
    split <;> rfl

theorem State.setCutoff_setDamp_lp :
    (((s.setDamp c (fclamp s.prm[7] lit1000 lit16000)).setCutoff c 8 s.prm[9]).setCutoff c 9 s.prm[9]).lp
      = Vector.ofFn (s.paramLP c) := by
  refine vector_ext_fin fun f => ?_
  dsimp only [State.setDamp, State.setCutoff, State.setLP]
  rw [get_ofFn, State.paramLP, State.filterCutoff]
  by_cases h9 : 9 = f
  · subst h9
    rw [get_set_same, get_set_other _ (by decide), get_mapDamp]
    rfl
  · rw [get_set_other _ h9]
    by_cases h8 : 8 = f
    · subst h8
      rw [get_set_same, get_mapDamp]
      rfl
    · rw [get_set_other _ h8, get_mapDamp, dif_pos (by omega), if_pos (by omega)]

theorem State.setTarget_setTarget_sm :
    ((s.setTarget 0 (fdiv (fclamp s.prm[0] posZero lit100) lit100)).setTarget 1 (fclamp s.prm[10] posZero lit1)).sm
      = Vector.ofFn s.paramSM := by
  refine vector_ext_fin fun k => ?_
  dsimp only [State.setTarget, State.setSM]
  rw [get_ofFn, State.paramSM, State.smootherTarget]
  by_cases h1 : 1 = k
  · subst h1
    rw [get_set_same, get_set_other _ (by decide)]
    rfl
  · obtain rfl : 0 = k := by omega
    rw [get_set_other _ h1, get_set_same]
    rfl

/-- The setters of R150 in closed form. A setter finds what it reads as the state before them all had it, but for the gains
of R123, which follow the lengths just set. -/
theorem State.applyParams_eq : s.applyParams c = { s with
    dl := Vector.ofFn (s.paramLine c)
    apG := Vector.replicate 8 (allpassGain (diffusionGain s.prm[4]))
    lp := Vector.ofFn (s.paramLP c)
    lfo := Vector.ofFn (s.paramLfo c)
    fdn := s.paramFdn c
    sm := Vector.ofFn s.paramSM } := by
  have hdl := s.mapLanes_setPredelay c
  rw [← s.setCutoff_setDamp_lp, ← s.setTarget_setTarget_sm]
  dsimp only [State.applyParams, State.setPredelay, State.setDiffusion, State.setSize, State.setRT60, State.relength,
    State.newGains, State.newLines, State.setFdn, State.setDamp, State.setMod, State.modLfo, State.modMode,
    State.setFreeze, State.setCutoff, State.setTarget, State.setSM, State.setLP, State.setDL,
    State.sizeParam] at hdl ⊢
  simp only [hdl, get_ofFn]
  rfl

/-- A modulator as R150 finds it: the first application seeds it. -/
def State.seededLfo (i : Fin 8) : Lfo := if s.status.first then s.lfo[i].seeded c i s.prm[11] else s.lfo[i]

/-- The modulators a snapshot application leaves. -/
def State.snapshotLfo (i : Fin 8) : Lfo :=
  ((s.seededLfo c i).withRate s.draws i s.fs (laneRate (fclamp s.prm[5] lit0_05 lit3) i)).withDepth
    (laneDepth c s.fs s.prm[6] i)

theorem State.paramLfo_eq (h : s.status.first = false) : s.paramLfo c = s.snapshotLfo c := by
  funext i
  rw [State.snapshotLfo, State.seededLfo, h, if_neg Bool.false_ne_true]
  rfl

theorem State.paramLfo_seedAll (h : s.status.first = true) : (s.seedAll c).paramLfo c = s.snapshotLfo c := by
  funext i
  rw [State.snapshotLfo, State.seededLfo, h, if_pos rfl, State.paramLfo, State.modLfo]
  dsimp only [State.seedAll]
  rw [get_ofFn]

/-- The smoothers a snapshot application leaves: the first one snaps them. -/
def State.snapshotSM (k : Fin 2) : Smoother := if s.status.first then (s.paramSM k).snapped else s.paramSM k

theorem State.snapshotSM_target (k : Fin 2) : (s.snapshotSM k).target = (s.paramSM k).target := by
  unfold State.snapshotSM
  split <;> rfl

/-- The snapshot application in closed form. -/
theorem State.applySnapshot_eq : s.applySnapshot c = { s with
    dl := Vector.ofFn (s.paramLine c)
    apG := Vector.replicate 8 (allpassGain (diffusionGain s.prm[4]))
    lp := Vector.ofFn (s.paramLP c)
    lfo := Vector.ofFn (s.snapshotLfo c)
    fdn := s.paramFdn c
    sm := Vector.ofFn s.snapshotSM
    status := s.status.afterFirst } := by
  cases h : s.status.first with
  | true =>
    have hsm : s.snapshotSM = fun k => (s.paramSM k).snapped := funext fun k => by rw [State.snapshotSM, if_pos h]
    rw [s.applySnapshot_of_first c h, State.applyParams_eq, State.finishFirst, s.paramLfo_seedAll c h, hsm]
    simp only [get_ofFn]
    rfl
  | false =>
    have hsm : s.snapshotSM = s.paramSM := funext fun k => by rw [State.snapshotSM, h, if_neg Bool.false_ne_true]
    have hstatus : s.status.afterFirst = s.status := by rw [Status.afterFirst, ← h]
    rw [s.applySnapshot_of_not_first c h, State.applyParams_eq, s.paramLfo_eq c h, hsm, hstatus]

theorem State.lineBase_fdnLine (i : Fin 8) (d : DelayLine) :
    s.lineBase c (fdnLine i) d = laneLength c s.fsr s.sizeParam d.cap i := by
  have hval : (fdnLine i).val = 10 + i.val := rfl
  rw [State.lineBase, if_neg (by omega), dif_pos (by omega)]
  congr 1
  simp [fdnLine]

end

theorem laneDepth_default (fs depthMs : Word) (i : Fin 8) : laneDepth cfg fs depthMs i =
    if 4 ≤ i.val then fdiv (fmul (fclamp depthMs posZero lit10) fs) lit1000 else posZero := by
  show (if decide (4 ≤ i.val) = true then _ else _) = _
  simp only [decide_eq_true_eq]

/-- Settles O5: each clause reads one unit of the closed form. A sealed value is one the formula allows, and the two
cases of a smoother are those of SMSET. -/
theorem snapshotSetsEveryParameter : Obligations.SnapshotSetsEveryParameter := by
  intro s t first pd gap coef rate depth targets
  have ht : t = _ := s.applySnapshot_eq cfg
  clear_value t
  subst ht
  refine ⟨fun u => ?_, fun u hu => ?_, fun u hlo hhi => ?_, fun a => get_replicate _ a, rfl, rfl, fun i => ?_,
    fun f => ?_, fun i => ?_, rfl, rfl, fun k => ?_, rfl⟩
  · rw [get_ofFn]; rfl
  · rw [get_ofFn]; exact if_pos hu
  · rw [get_ofFn]; exact (if_neg (by omega)).trans (dif_neg (by omega))
  · rw [get_ofFn]; exact ⟨s.lineBase_fdnLine cfg i _, get_ofFn _ i⟩
  · rw [get_ofFn]; exact ⟨rfl, holds_sealNaN _ _ _⟩
  · intro di
    rw [get_ofFn, show di = laneDepth cfg s.fs s.prm[6] i from (laneDepth_default _ _ _).symm]
    refine ⟨?_, ?_, rfl, holds_sealNaN _ _ _, depthStored_eq _, get_ofFn _ i⟩
    · exact apply_ite Lfo.phase _ _ _
    · exact apply_ite Lfo.js _ _ _
  · intro m moved
    rw [get_ofFn]
    have hrun : s.paramSM k = if moved then { m with
        target := targets k, count := s.smN
        step := sealNaN s.draws (.smStep k) (fdiv (fsub (targets k) m.cur) (floatOf s.smN)) } else m :=
      Smoother.toward_eq_ite _ _ _ _ _
    refine ⟨?_, fun hfirst => ?_, fun hlater => ?_⟩
    · rw [State.snapshotSM_target, hrun]
      exact apply_ite Smoother.target _ _ _
    · rw [State.snapshotSM, if_pos hfirst]
      exact ⟨rfl, rfl, rfl⟩
    · rw [State.snapshotSM, if_neg (Bool.not_eq_true _ ▸ hlater), hrun]
      cases moved with
      | true => exact ⟨rfl, rfl, holds_sealNaN _ _ _⟩
      | false => exact ⟨rfl, rfl, rfl⟩

/-! ## A second application (R149, R150) -/

/-- A target that SMSET has set is not a new one. -/
theorem Smoother.toward_settled {d k smN d' k' smN' : Nat} {t : Word} {m m' : Smoother}
    (h : m'.target = (m.toward d k smN t).target) : m'.toward d' k' smN' t = m' := by
  apply Smoother.toward_of_ignored
  cases hnan : isNaN t with
  | true => exact .inl rfl
  | false =>
    refine .inr ?_
    rw [h]
    cases hnew : feq t m.target with
    | true => rw [Smoother.toward_of_ignored (.inr hnew), hnew]
    | false => rw [Smoother.toward_of_new hnan hnew]; exact feq_iff.2 ⟨hnan, hnan, rfl⟩

section
variable (s : State) (c : Cfg)

theorem State.lineBase_settled (u : Fin 18) (d : DelayLine) :
    s.lineBase c u { d with base := s.lineBase c u d } = s.lineBase c u d := by
  unfold State.lineBase
  split
  · rfl
  · split <;> rfl

/-- What one application leaves in a unit is what a second one would leave there. -/
theorem State.paramLine_applySnapshot (u : Fin 18) : (s.applySnapshot c).paramLine c u = s.paramLine c u := by
  have hline : (s.applySnapshot c).dl[u] = s.paramLine c u := by rw [State.applySnapshot_eq, get_ofFn]
  have hbase (d : DelayLine) : (s.applySnapshot c).lineBase c u d = s.lineBase c u d := by
    rw [State.applySnapshot_eq]
    rfl
  rw [State.paramLine, hline, hbase, State.paramLine, State.lineBase_settled]

theorem State.lineGain_applySnapshot (i : Fin 8) : (s.applySnapshot c).lineGain c i = s.lineGain c i := by
  rw [State.lineGain, State.paramLine_applySnapshot, State.applySnapshot_eq]
  rfl

theorem State.paramLP_applySnapshot (f : Fin 10) : (s.applySnapshot c).paramLP c f = s.paramLP c f := by
  rw [State.applySnapshot_eq, State.paramLP]
  dsimp only
  rw [get_ofFn]
  rfl

theorem State.paramLfo_applySnapshot (i : Fin 8) : (s.applySnapshot c).paramLfo c i = s.snapshotLfo c i := by
  rw [State.applySnapshot_eq, State.paramLfo, State.modLfo]
  dsimp only
  rw [get_ofFn]
  rfl

theorem State.paramSM_applySnapshot (k : Fin 2) : (s.applySnapshot c).paramSM k = s.snapshotSM k := by
  rw [State.applySnapshot_eq, State.paramSM]
  dsimp only
  rw [get_ofFn]
  exact Smoother.toward_settled (s.snapshotSM_target k)

/-- The snapshot application leaves nothing for a second one to change. -/
theorem State.applySnapshot_twice : (s.applySnapshot c).applySnapshot c = s.applySnapshot c := by
  have hfirst : (s.applySnapshot c).status.first = false := by rw [State.applySnapshot_eq]; rfl
  have hfdn : (s.applySnapshot c).paramFdn c = s.paramFdn c := by
    rw [State.paramFdn, funext (s.lineGain_applySnapshot c), State.applySnapshot_eq]
    rfl
  rw [State.applySnapshot_of_not_first _ c hfirst, State.applyParams_eq, funext (s.paramLine_applySnapshot c),
    funext (s.paramLP_applySnapshot c), funext (s.paramLfo_applySnapshot c), funext (s.paramSM_applySnapshot c), hfdn,
    State.applySnapshot_eq]

theorem State.applySnapshot_endBlock : s.endBlock.applySnapshot c = (s.applySnapshot c).endBlock := by
  rw [State.applySnapshot_eq, State.applySnapshot_eq]
  rfl

end

/-! ## The checks of EPROC (R151) -/

/-- The first of EPROC's checks that fails (R168, R151). -/
def State.eprocFault (s : State) (nch : Nat) (numSamples : Word) : Option Cause :=
  if !s.status.prepared then some .notPrepared
  else if !s.status.pvalid then some .noParams
  else if nch < 1 ∨ u32 s.nch < nch then some .badCount
  else if u32 s.maxBlock < u32 numSamples then some .badCount
  else none

theorem eproc_eq_elim (c : Cfg) (s : State) (nch : Nat) (numSamples : Word) : eproc c nch numSamples s =
    (s.eprocFault nch numSamples).elim
      (State.samples c nch (u32 numSamples) (s.applySnapshot c).beginBlock).endBlock s.faulted := by
  unfold eproc whenPrepared State.eprocFault
  cases s.status.prepared with
  | false => rfl
  | true =>
    cases s.status.pvalid with
    | false => rfl
    | true =>
      simp only [Bool.not_true, Bool.false_eq_true, if_false, if_true]
      split
      · rfl
      · split <;> rfl

theorem eproc_of_fault {c : Cfg} {s : State} {nch : Nat} {numSamples : Word} {e : Cause}
    (h : s.eprocFault nch numSamples = some e) : eproc c nch numSamples s = s.faulted e := by
  rw [eproc_eq_elim, h]
  rfl

theorem eprocRuns_of_no_fault {s : State} {nch : Nat} {numSamples : Word}
    (h : s.eprocFault nch numSamples = none) : s.EprocRuns nch numSamples := by
  unfold State.eprocFault at h
  split_ifs at h with hp hv hc hn
  exact ⟨by simpa using hp, by simpa using hv, by omega, by omega, by omega⟩

/-- Settles O51: a fault changes none of the registers the checks read, so it is raised again. A block of no samples is
the snapshot application. -/
theorem reapplyingASnapshotChangesNothing : Obligations.ReapplyingASnapshotChangesNothing := by
  intro nch s t ht
  obtain rfl := exec_next.1 ht
  refine exec_next.2 ?_
  show eproc cfg nch 0 (eproc cfg nch 0 s) = eproc cfg nch 0 s
  cases hfault : s.eprocFault nch 0 with
  | some e =>
    rw [eproc_of_fault hfault]
    exact eproc_of_fault (s := s.faulted e) hfault
  | none =>
    have hblock {r : State} (h : r.EprocRuns nch 0) : eproc cfg nch 0 r = (r.applySnapshot cfg).endBlock :=
      eproc_of_runs h
    rw [hblock (eprocRuns_of_no_fault hfault), hblock ?_, State.applySnapshot_endBlock, State.applySnapshot_twice]
    · rfl
    · rw [State.applySnapshot_eq]; exact eprocRuns_of_no_fault hfault

/-! ## The parameter registers no command reads (R150, R197) -/

/-- The state with other parameter registers. -/
def State.withPrm (s : State) (p : Vector Word 13) : State := { s with prm := p }

section
variable {s : State} {p : Vector Word 13}

theorem whenPrepared_withPrm {k k' : State} (h : k' = k.withPrm p) :
    whenPrepared (s.withPrm p) k' = (whenPrepared s k).withPrm p := by
  rw [h]
  exact (apply_ite (State.withPrm · p) (s.status.prepared = true) k (raise .notPrepared s)).symm

theorem onUnit_withPrm {limit u : Nat} {k k' : Fin limit → State} (h : ∀ i, k' i = (k i).withPrm p) :
    onUnit limit u (s.withPrm p) k' = (onUnit limit u s k).withPrm p := by
  refine whenPrepared_withPrm ?_
  cases unitIndex limit u with
  | some i => exact h i
  | none => rfl

theorem ite_raise_withPrm {q : Prop} [Decidable q] {e : Cause} {t t' : State} (h : t' = t.withPrm p) :
    (if q then raise e (s.withPrm p) else t') = (if q then raise e s else t).withPrm p := by
  rw [h]
  exact (apply_ite (State.withPrm · p) q (raise e s) t).symm

theorem eprep_withPrm (c : Cfg) (nch : Nat) (fsHi fsLo maxBlock : Word) :
    eprep c nch fsHi fsLo maxBlock (s.withPrm p) = (eprep c nch fsHi fsLo maxBlock s).withPrm p := by
  unfold eprep
  dsimp only
  rw [apply_ite (State.withPrm · p)]
  rfl

theorem State.putRes_withPrm (i : Fin 8) (v : Word) : (s.withPrm p).putRes i v = (s.putRes i v).withPrm p := rfl

theorem fmix_eq (c : Cfg) (v : Vector Word 8) (width : Word) (s : State) : fmix c v width s =
    whenPrepared s ((s.putRes 0 (mixStereo c v width).1).putRes 1 (mixStereo c v width).2) := by
  simp only [fmix]

/-- No command but ESETP and EPROC reads or writes a parameter register. -/
theorem execIn_withPrm (c : Cfg) (i : Instr) (hset : i.op ≠ .esetp) (hproc : i.op ≠ .eproc) :
    execIn c i (s.withPrm p) = (execIn c i s).withPrm p := by
  cases i with
  | esetp _ => exact absurd rfl hset
  | eproc _ _ => exact absurd rfl hproc
  | eprep nch fsHi fsLo maxBlock => exact eprep_withPrm c nch fsHi fsLo maxBlock
  | fmix v width =>
    rw [execIn, execIn, fmix_eq, fmix_eq]
    exact whenPrepared_withPrm (by rw [State.putRes_withPrm, State.putRes_withPrm])
  | erst | fsetsize _ | fsetrt60 _ | fsetdamp _ | fsetmod _ _ | fsetfrz _ | ftick _  =>
    exact whenPrepared_withPrm rfl
  | dlprep _ _ | apprep _ _ => exact onUnit_withPrm fun _ => ite_raise_withPrm rfl
  | dlrst _ | dlsetd _ _ | dlpush _ _ | dlrdlin _ _ _ | dlrdlag _ _ _ | dlproc _ _ _ _ _ | aprst _ | apsetg _ _
  | approc _ _ | lprst _ | lpsetc _ _ | lpproc _ _ | lfoseed _ _ | lfosetr _ _ | lfosetd _ _ | lfonext _ | smset _ _
  | smnext _ | smsnap _ => exact onUnit_withPrm fun _ => rfl

end

section
variable (s : State) (p : Vector Word 13) (c : Cfg)

theorem State.predelay_withPrm (u : Fin 18) (x : Word) :
    (s.withPrm p).predelay u x = ((s.predelay u x).1, (s.predelay u x).2.withPrm p) := Prod.ext rfl rfl

theorem State.allpass_withPrm (a : Fin 8) (x : Word) :
    (s.withPrm p).allpass a x = ((s.allpass a x).1, (s.allpass a x).2.withPrm p) := Prod.ext rfl rfl

theorem State.tick_withPrm (x : Word) :
    (s.withPrm p).tick c x = ((s.tick c x).1, (s.tick c x).2.withPrm p) := Prod.ext rfl rfl

theorem State.lowpass_withPrm (f : Fin 10) (x : Word) :
    (s.withPrm p).lowpass f x = ((s.lowpass f x).1, (s.lowpass f x).2.withPrm p) := Prod.ext rfl rfl

theorem State.smooth_withPrm (k : Fin 2) : (s.withPrm p).smooth k = ((s.smooth k).1, (s.smooth k).2.withPrm p) :=
  Prod.ext rfl rfl

theorem State.diffuse_withPrm (l : List (Fin 8)) (x : Word) :
    (s.withPrm p).diffuse l x = ((s.diffuse l x).1, (s.diffuse l x).2.withPrm p) := by
  induction l generalizing s x with
  | nil => rfl
  | cons a l ih => rw [State.diffuse, State.diffuse, State.allpass_withPrm, ih]

theorem State.render_withPrm (dry : Word × Word) :
    (s.withPrm p).render c dry = ((s.render c dry).1, (s.render c dry).2.withPrm p) := by
  simp only [State.render, State.network, State.wetPair, State.predelay_withPrm, State.diffuse_withPrm,
    State.tick_withPrm, State.smooth_withPrm, State.lowpass_withPrm]

theorem State.writeBack_withPrm (nch n : Nat) (l r : Word) :
    (s.withPrm p).writeBack c nch n l r = (s.writeBack c nch n l r).withPrm p := rfl

/-- A sample reads no parameter register. -/
theorem State.sample_withPrm (nch n : Nat) :
    State.sample c nch n (s.withPrm p) = (State.sample c nch n s).withPrm p := by
  rw [State.sample_eq_render, State.sample_eq_render, show (s.withPrm p).dryInput c nch n = s.dryInput c nch n from rfl,
    State.render_withPrm, State.writeBack_withPrm]

theorem State.advance_withPrm : (s.withPrm p).advance = s.advance.withPrm p := rfl

theorem State.samples_withPrm (nch k : Nat) :
    State.samples c nch k (s.withPrm p) = (State.samples c nch k s).withPrm p := by
  induction k generalizing s with
  | zero => rfl
  | succ k ih =>
    rw [State.samples, State.samples, State.sample_withPrm, State.advance_withPrm, ih,
      show (s.withPrm p).n = s.n from rfl]

/-- The snapshot application reads neither `PRM[8]` nor, once one has been made, `PRM[11]`. -/
theorem State.applySnapshot_withPrm {s : State} {p : Vector Word 13}
    (h : ∀ (k : Nat) (hk : k < 13), k ≠ 8 → k ≠ 11 → p[k] = s.prm[k])
    (h11 : s.status.first = true → p[11] = s.prm[11]) :
    (s.withPrm p).applySnapshot c = (s.applySnapshot c).withPrm p := by
  have hline : (s.withPrm p).paramLine c = s.paramLine c := funext fun u => by
    simp (disch := decide) only [State.paramLine, State.lineBase, State.sizeParam, State.withPrm, h]
  have hlp : (s.withPrm p).paramLP c = s.paramLP c := funext fun f => by
    simp (disch := decide) only [State.paramLP, State.filterCutoff, State.withPrm, h]
  have hlfo : (s.withPrm p).snapshotLfo c = s.snapshotLfo c := funext fun i => by
    have hseed : (s.withPrm p).seededLfo c i = s.seededLfo c i := by
      unfold State.seededLfo State.withPrm
      dsimp only
      split
      · next hfirst => rw [h11 hfirst]
      · rfl
    rw [State.snapshotLfo, hseed, State.snapshotLfo]
    simp (disch := decide) only [State.withPrm, h]
  have hfdn : (s.withPrm p).paramFdn c = s.paramFdn c := by
    have hgain : (s.withPrm p).lineGain c = s.lineGain c := funext fun i => by
      rw [State.lineGain, hline]
      simp (disch := decide) only [State.lineGain, State.rt60Param, State.withPrm, h]
    have hmode : (s.withPrm p).modMode c = s.modMode c := rfl
    rw [State.paramFdn, hgain, hmode]
    simp (disch := decide) only [State.paramFdn, State.sizeParam, State.rt60Param, State.withPrm, h]
  have hsm : (s.withPrm p).snapshotSM = s.snapshotSM := funext fun k => by
    simp (disch := decide) only [State.snapshotSM, State.paramSM, State.smootherTarget, State.withPrm, h]
  rw [State.applySnapshot_eq, State.applySnapshot_eq, hline, hlp, hlfo, hfdn, hsm]
  simp (disch := decide) only [State.withPrm, h]

end

theorem eproc_withPrm {s : State} {p : Vector Word 13} (c : Cfg) (nch : Nat) (numSamples : Word)
    (hsnap : (s.withPrm p).applySnapshot c = (s.applySnapshot c).withPrm p) :
    eproc c nch numSamples (s.withPrm p) = (eproc c nch numSamples s).withPrm p := by
  have hblock : (State.samples c nch (u32 numSamples) ((s.withPrm p).applySnapshot c).beginBlock).endBlock
      = (State.samples c nch (u32 numSamples) (s.applySnapshot c).beginBlock).endBlock.withPrm p := by
    rw [hsnap]
    exact congrArg State.endBlock (State.samples_withPrm (s.applySnapshot c).beginBlock p c nch (u32 numSamples))
  exact whenPrepared_withPrm (ite_raise_withPrm (ite_raise_withPrm (ite_raise_withPrm hblock)))

/-- Settles O52: only the snapshot application reads parameter registers, and neither of the two. -/
theorem unreadParametersHaveNoEffect : Obligations.UnreadParametersHaveNoEffect := by
  intro i s t w hset ht
  obtain rfl := exec_next.1 ht
  rw [execIn_prm hset]
  have hunread (p : Vector Word 13) (hsnap : (s.withPrm p).applySnapshot cfg = (s.applySnapshot cfg).withPrm p) :
      exec i (s.withPrm p) = .next ((execIn cfg i s).withPrm p) := by
    refine exec_next.2 ?_
    by_cases hproc : i.op = .eproc
    · cases i with
      | eproc nch numSamples => exact eproc_withPrm cfg nch numSamples hsnap
      | _ => cases hproc
    · exact execIn_withPrm cfg i hset hproc
  refine ⟨hunread _ (State.applySnapshot_withPrm cfg (fun k _ h8 _ => ?_) fun _ => ?_),
    fun hlater => hunread _ (State.applySnapshot_withPrm cfg (fun k _ _ h11 => ?_) fun hfirst => ?_)⟩
  · exact Vector.getElem_set_ne _ _ h8.symm
  · exact Vector.getElem_set_ne _ _ (by decide)
  · exact Vector.getElem_set_ne _ _ h11.symm
  · rw [hlater] at hfirst
    cases hfirst

end Sys2Proof.Machine

/-! EPROC sample by sample (spec/46_engine.md R151 to R161): the loop, the pipeline of one sample, and a one-channel
block beside a two-channel block, whose states differ in `BUF` alone. -/

namespace Sys2Proof.Machine

/-! ## The block of EPROC (R151) -/

section
variable (s : State) (c : Cfg) (nch : Nat)

theorem State.runBlock_zero : s.runBlock c nch 0 = { s.applySnapshot c with n := some 0 } := rfl

theorem State.runBlock_step (k : Nat) : s.runBlock c nch (k + 1) = (s.runBlock c nch k).sampleStep c nch k := by
  rw [State.runBlock, List.range_succ, List.foldl_concat, ← State.runBlock]

/-- The sample counter is the number of samples that have run (R22). -/
theorem State.runBlock_n (k : Nat) : (s.runBlock c nch k).n = some k := by
  induction k with
  | zero => rfl
  | succ k ih =>
    rw [State.runBlock_step, State.sampleStep, State.advance, State.sample_n, ih]
    rfl

theorem State.runBlock_succ (k : Nat) : s.runBlock c nch (k + 1) =
    { State.sample c nch k (s.runBlock c nch k) with n := some (k + 1), draws := (s.runBlock c nch k).draws + 1 } := by
  rw [State.runBlock_step, State.sampleStep, State.advance, State.sample_n, State.runBlock_n, State.sample_draws]
  rfl

theorem State.applySnapshot_res : (s.applySnapshot c).res = s.res := by
  rw [State.applySnapshot_eq]

theorem State.runBlock_res (k : Nat) : (s.runBlock c nch k).res = s.res := by
  induction k with
  | zero => exact s.applySnapshot_res c
  | succ k ih => rw [State.runBlock_step, State.sampleStep, State.advance_res, State.sample_res, ih]

theorem eproc_eq_runBlock {s : State} {nch : Nat} {numSamples : Word} (h : s.EprocRuns nch numSamples) :
    eproc c nch numSamples s = { s.runBlock c nch (u32 numSamples) with n := none } := by
  rw [eproc_of_runs h, State.samples_eq_foldl rfl, ← List.range_eq_range', State.runBlock, State.endBlock]

end

/-- Settles O4: the states between the samples are those of `State.runBlock`. -/
theorem eprocChecksThenRunsEachSample : Obligations.EprocChecksThenRunsEachSample := by
  intro nch numSamples s h
  refine ⟨rfl, fun hvalid => ?_, fun hvalid hbad => ?_, fun hvalid hmin hmax hcount => ?_⟩
  · rw [exec_eproc h, hvalid]
    rfl
  · rw [exec_eproc h, hvalid, if_neg (by decide), ← ite_or, if_pos (by tauto)]
  · exact ⟨fun k => s.runBlock cfg nch k, s.runBlock_zero cfg nch, s.runBlock_succ cfg nch, s.runBlock_res cfg nch,
      exec_next.2 (eproc_eq_runBlock cfg ⟨h, hvalid, hmin, hmax, hcount⟩)⟩

/-! ## One sample (R152 to R160) -/

/-- The network of one sample, both predelay lines read before either push (R153 to R155). -/
theorem State.network_eq (s : State) (c : Cfg) (inL inR : Word) :
    s.network c inL inR =
      let pushed := (s.setDL 0 (s.dl[0].push inL)).setDL 1 (s.dl[1].push inR)
      let dL := pushed.diffuse [0, 1, 2, 3] (s.dl[0].readLinear (floatOf s.dl[0].base) posZero)
      let dR := dL.2.diffuse [4, 5, 6, 7] (s.dl[1].readLinear (floatOf s.dl[1].base) posZero)
      let r := dR.2.tick c (fmul lit0_5 (fadd dL.1 dR.1))
      (dL.1, dR.1, r.1, r.2) := by
  dsimp only [State.network]
  rw [State.predelay_pair]
  rfl

theorem State.render_draws (s : State) (c : Cfg) (dry : Word × Word) : (s.render c dry).2.draws = s.draws := by
  simp [State.render, State.network, State.wetPair]

/-- Settles O6: a sample renders its dry input and writes the two outputs back. -/
theorem samplePipelineFollowsItsSteps : Obligations.SamplePipelineFollowsItsSteps := by
  intro nch n s at' inL inR pdL pdR s2 a0 a1 a2 a3 a4 a5 a6 a7 dL dR net width mixed hcL hcR clean wetL wetR mix blend
  refine ⟨_, _, holds_sealNaN s.draws (.buf 0) _, holds_sealNaN s.draws (.buf 1) _, ?_⟩
  have hnet : s.network cfg inL inR = (dL, dR, net.1, net.2) := s.network_eq cfg inL inR
  have hrender : s.render cfg (inL, inR) = ((blend inL wetL, blend inR wetR), mix.2) := by
    rw [State.render, hnet]
    rfl
  rw [State.sample_eq_render, show s.dryInput cfg nch n = (inL, inR) from rfl,
    State.writeBack_eq cfg nch n _ _ ((ignoresBuf_render cfg _).buf_eq s) (s.render_maxBlock _) (s.render_draws cfg _),
    hrender]

/-! ## Mix 0 (R158, R159) -/

theorem isFinite_scrub (w : Word) : isFinite (scrub w) = true := by
  unfold scrub
  split
  · assumption
  · decide

/-- A zero is one of the two zeros. -/
theorem eq_posZero_or_negZero {a : Word} (h : magOf a = 0) : a = posZero ∨ a = negZero := by
  rw [magOf_eq] at h
  have hpat : a.toNat % 2 ^ 31 = 0 := patMag_strictMono.injective (h.trans (show 0 = patMag 0 by decide +kernel))
  have hself := withSign_self a
  rw [hpat] at hself
  cases hs : signOf a with
  | false => exact .inl (by rw [← hself, hs]; rfl)
  | true => exact .inr (by rw [← hself, hs]; rfl)

/-- The sum with a zero is the operand itself, unless that is −0. -/
theorem fadd_zero_eq {a z : Word} (ha : isFinite a = true) (hne : a ≠ negZero) (hz : magOf z = 0) : fadd a z = a := by
  by_cases h0 : magOf a = 0
  · obtain rfl := (eq_posZero_or_negZero h0).resolve_right hne
    obtain rfl | rfl := eq_posZero_or_negZero hz <;> decide +kernel
  · have hunits : unitsOf z = 0 := Int.natAbs_eq_zero.1 ((natAbs_unitsOf z).trans hz)
    have hne0 : unitsOf a ≠ 0 := fun h => h0 (by rw [← natAbs_unitsOf, h, Int.natAbs_zero])
    obtain ⟨neg, hneg, hsum⟩ := fadd_of_isFinite ha (isFinite_of_magOf_lt (w := z) (by omega))
    rw [hunits, add_zero] at hneg hsum
    rw [hsum, hneg hne0, ← signOf_eq_of_unitsOf_ne_zero hne0, natAbs_unitsOf]
    simpa using roundTo_magOf (isNaN_of_isFinite ha) 0

/-- Settles O55: at mix 0 the dry gain is 1 and the wet product is a zero. -/
theorem mixZeroReturnsTheDryInput : Obligations.MixZeroReturnsTheDryInput := by
  intro dry wet hdry hne
  refine ⟨isFinite_scrub wet, ?_⟩
  rw [wetDry, show fsub lit1 posZero = lit1 by decide +kernel, show fmul posZero lit1_2 = posZero by decide +kernel,
    fmul_lit1_left (isNaN_of_isFinite hdry)]
  exact fadd_zero_eq hdry hne (magOf_fmul_posZero (isFinite_scrub wet))

/-! ## One and two channels (R161) -/

/-- The buffers of a one-channel and a two-channel block of `k` samples after `n` of them: the left channels agree, and
the samples to come stand on the right one as well. The layout is `PLANAR`, the model's choice (log 3). -/
structure MonoStereo (maxBlock k n : Nat) (b1 b2 : Mem) : Prop where
  wf1 : Memory.wf b1 = true
  wf2 : Memory.wf b2 = true
  left : ∀ j, j < k → memRead b2 (cfg.bufAddr maxBlock 2 0 j) = memRead b1 (cfg.bufAddr maxBlock 2 0 j)
  right : ∀ j, n ≤ j → j < k → memRead b2 (cfg.bufAddr maxBlock 2 1 j) = memRead b1 (cfg.bufAddr maxBlock 2 0 j)

/-- Sample `n` writes its left output in both blocks and a right one in the two-channel block. -/
theorem MonoStereo.write {maxBlock k n : Nat} {b1 b2 : Mem} (h : MonoStereo maxBlock k n b1 b2) (hk : k ≤ maxBlock)
    (hn : n < k) (l r : Word) :
    MonoStereo maxBlock k (n + 1) (memWrite b1 (cfg.bufAddr maxBlock 2 0 n) l)
      (memWrite (memWrite b2 (cfg.bufAddr maxBlock 2 0 n) l) (cfg.bufAddr maxBlock 2 1 n) r) := by
  have hdistinct {c j : Nat} (hc : c < 2) (hj : j < k) {c' : Nat} (hc' : c' < 2) (hne : c ≠ c' ∨ j ≠ n) :
      cfg.bufAddr maxBlock 2 c j ≠ cfg.bufAddr maxBlock 2 c' n := fun heq => by
    have := cfgDefault_ok.2.layout _ _ _ _ _ _ (Nat.le_refl 2) hc hc' (by omega) (by omega) heq
    omega
  have hwf := Memory.wf_memWrite h.wf2 (cfg.bufAddr maxBlock 2 0 n) l
  refine ⟨Memory.wf_memWrite h.wf1 _ _, Memory.wf_memWrite hwf _ _, fun j hj => ?_, fun j hlow hj => ?_⟩
  · rw [memRead_memWrite_other _ (hdistinct (by omega) hj (by omega) (.inl (by omega))), memRead_memWrite h.wf2,
      memRead_memWrite h.wf1, h.left j hj]
  · rw [memRead_memWrite_other _ (hdistinct (by omega) hj (by omega) (.inr (by omega))),
      memRead_memWrite_other _ (hdistinct (by omega) hj (by omega) (.inl (by omega))),
      memRead_memWrite_other _ (hdistinct (by omega) hj (by omega) (.inr (by omega))), h.right j (by omega) hj]

theorem State.advance_writeBack_withBuf (s : State) (b : Mem) (c : Cfg) (nch n : Nat) (l r : Word) :
    ((s.withBuf b).writeBack c nch n l r).advance
      = s.advance.withBuf ((s.withBuf b).writeBack c nch n l r).buf := rfl

/-- A sample on a state whose `BUF` is `b`: what it renders does not look at `b`. -/
theorem State.sampleStep_withBuf (s : State) (b : Mem) (c : Cfg) (nch n : Nat) {dry : Word × Word}
    (hdry : (s.withBuf b).dryInput c nch n = dry) :
    (s.withBuf b).sampleStep c nch n = (s.render c dry).2.advance.withBuf
      (((s.render c dry).2.withBuf b).writeBack c nch n (s.render c dry).1.1 (s.render c dry).1.2).buf := by
  rw [State.sampleStep, State.sample_eq_render, hdry, ignoresBuf_render]
  exact State.advance_writeBack_withBuf _ _ _ _ _ _ _

section
variable (s : State) (b : Mem) (n : Nat) (l r : Word)

theorem State.writeBack_mono_buf : ((s.withBuf b).writeBack cfg 1 n l r).buf =
    memWrite b (cfg.bufAddr (u32 s.maxBlock) 2 0 n) (sealNaN s.draws (.buf 0) l) := rfl

theorem State.writeBack_stereo_buf : ((s.withBuf b).writeBack cfg 2 n l r).buf =
    memWrite (memWrite b (cfg.bufAddr (u32 s.maxBlock) 2 0 n) (sealNaN s.draws (.buf 0) l))
      (cfg.bufAddr (u32 s.maxBlock) 2 1 n) (sealNaN s.draws (.buf 1) r) := rfl

end

theorem State.dryInput_of_monoStereo {s : State} {k n : Nat} {b1 b2 : Mem}
    (h : MonoStereo (u32 s.maxBlock) k n b1 b2) (hn : n < k) :
    (s.withBuf b2).dryInput cfg 2 n = (s.withBuf b1).dryInput cfg 1 n :=
  Prod.ext (h.left n hn) (h.right n (Nat.le_refl n) hn)

/-- After `n` samples the two blocks differ in `BUF` alone. -/
theorem State.runBlock_monoStereo (s : State) {b1 b2 : Mem} {k : Nat} (hk : k ≤ u32 s.maxBlock)
    (h : MonoStereo (u32 s.maxBlock) k 0 b1 b2) {n : Nat} (hn : n ≤ k) : ∃ (t : State) (b1' b2' : Mem),
      (s.withBuf b1).runBlock cfg 1 n = t.withBuf b1' ∧ (s.withBuf b2).runBlock cfg 2 n = t.withBuf b2'
        ∧ t.maxBlock = s.maxBlock ∧ MonoStereo (u32 s.maxBlock) k n b1' b2' := by
  induction n with
  | zero =>
    refine ⟨(s.applySnapshot cfg).beginBlock, b1, b2, ?_, ?_, s.applySnapshot_maxBlock cfg, h⟩ <;>
    · rw [State.runBlock, bufBlind_applySnapshot]
      rfl
  | succ n ih =>
    obtain ⟨t, b1', b2', h1, h2, hmax, hbufs⟩ := ih (by omega)
    have hdry := State.dryInput_of_monoStereo (hmax ▸ hbufs) hn
    rw [State.runBlock_step, State.runBlock_step, h1, h2, State.sampleStep_withBuf t b1' cfg 1 n rfl,
      State.sampleStep_withBuf t b2' cfg 2 n hdry, State.writeBack_mono_buf, State.writeBack_stereo_buf,
      State.render_maxBlock, hmax]
    exact ⟨_, _, _, rfl, rfl, (State.advance_maxBlock _).trans ((t.render_maxBlock _).trans hmax),
      hbufs.write hk hn _ _⟩

theorem State.eprocFault_of_channels (s : State) {nch : Nat} (hmin : 1 ≤ nch) (hmax : nch ≤ u32 s.nch)
    (numSamples : Word) : s.eprocFault nch numSamples = s.eprocFault 1 numSamples := by
  unfold State.eprocFault
  rw [if_neg (show ¬ (nch < 1 ∨ u32 s.nch < nch) by omega), if_neg (show ¬ (1 < 1 ∨ u32 s.nch < 1) by omega)]

/-- Settles O53: the checks answer alike for one and two channels, and the blocks keep their states alike but for
`BUF`. -/
theorem monoBlockIsTheLeftOfAStereoBlock : Obligations.MonoBlockIsTheLeftOfAStereoBlock := by
  intro s t1 t2 b1 b2 numSamples at' hwf1 hwf2 hnch hinput h1 h2
  obtain rfl := exec_next.1 h1
  obtain rfl := exec_next.1 h2
  have hbufs : MonoStereo (u32 s.maxBlock) (u32 numSamples) 0 b1 b2 :=
    ⟨hwf1, hwf2, fun n hn => (hinput n hn).1, fun n _ hn => (hinput n hn).2⟩
  have hfaults := s.eprocFault_of_channels (nch := 2) (by omega) hnch numSamples
  cases hfault : s.eprocFault 1 numSamples with
  | some e =>
    have hrun1 : execIn cfg (.eproc 1 numSamples) (s.withBuf b1) = (s.withBuf b1).faulted e := eproc_of_fault hfault
    have hrun2 : execIn cfg (.eproc 2 numSamples) (s.withBuf b2) = (s.withBuf b2).faulted e :=
      eproc_of_fault (hfaults.trans hfault)
    rw [State.withBuf] at hrun1 hrun2
    rw [hrun1, hrun2]
    exact ⟨fun n hn => (hbufs.left n hn).symm, rfl⟩
  | none =>
    have hruns := eprocRuns_of_no_fault hfault
    obtain ⟨t, b1', b2', hblock1, hblock2, -, hbufs'⟩ := s.runBlock_monoStereo hruns.le_maxBlock hbufs (Nat.le_refl _)
    have hrun1 : execIn cfg (.eproc 1 numSamples) (s.withBuf b1) = { t.withBuf b1' with n := none } := by
      rw [← hblock1]
      exact eproc_eq_runBlock cfg (State.eprocRuns_withBuf.2 hruns)
    have hrun2 : execIn cfg (.eproc 2 numSamples) (s.withBuf b2) = { t.withBuf b2' with n := none } := by
      rw [← hblock2]
      exact eproc_eq_runBlock cfg (State.eprocRuns_withBuf.2 (eprocRuns_of_no_fault (hfaults.trans hfault)))
    rw [State.withBuf] at hrun1 hrun2
    rw [hrun1, hrun2]
    exact ⟨fun n hn => (hbufs'.left n hn).symm, rfl⟩

end Sys2Proof.Machine


/-! Faults (spec/60_exceptions.md R165 to R171), the words of the opcode map, and hardware reset: a command faults or
leaves `ERR` and `CAUSE`, an unprepared core runs EPREP alone, a faulted core discards one word a step, and the
invariants that every step keeps start at reset. -/

namespace Sys2Proof.Machine

/-! ## A fault or no trace of one (R167) -/

/-- The fault bits of `t` are those of `s`, or `t` is `s` with a fault and nothing else. -/
def FaultOnly (s t : State) : Prop :=
  (t.status.err = s.status.err ∧ t.status.cause = s.status.cause) ∨ ∃ e, e ≠ .noFault ∧ t = s.faulted e

section
variable {s t : State}

theorem faultOnly_of_status (h : t.status = s.status) : FaultOnly s t := .inl ⟨by rw [h], by rw [h]⟩

theorem faultOnly_faulted (s : State) (e : Cause) (he : e ≠ .noFault) : FaultOnly s (s.faulted e) :=
  .inr ⟨e, he, rfl⟩

theorem faultOnly_whenPrepared (h : FaultOnly s t) : FaultOnly s (whenPrepared s t) :=
  whenPrepared_keeps (faultOnly_faulted s) fun _ => h

theorem faultOnly_onUnit {limit u : Nat} {k : Fin limit → State} (h : ∀ i, FaultOnly s (k i)) :
    FaultOnly s (onUnit limit u s k) :=
  onUnit_keeps (faultOnly_faulted s) h

end

/-- A block changes no bit of `STATUS` but `FIRST` (R150, R151). -/
theorem State.block_status (s : State) (c : Cfg) (nch k : Nat) :
    (State.samples c nch k (s.applySnapshot c).beginBlock).endBlock.status = s.status.afterFirst := by
  rw [State.endBlock_status, State.samples_keeps _ State.status c nch (fun m t => t.sample_status c nch m)
    (fun t => t.advance_status), State.beginBlock_status, State.applySnapshot_eq]

theorem State.prepare_status (s : State) (c : Cfg) (nch : Nat) (fs64 : DWord) (maxBlock : Word) (z : Sizing) :
    (s.prepare c nch fs64 maxBlock z).status = s.status.afterPrepare := by
  dsimp only [State.prepare, State.setStatus, State.relength]

theorem execIn_faultOnly (c : Cfg) (i : Instr) (s : State) : FaultOnly s (execIn c i s) := by
  cases i with
  | eprep _ _ _ _ =>
    exact eprep_cases (P := FaultOnly s) (faultOnly_faulted s _ (by decide)) fun _ =>
      .inl (by rw [State.prepare_status]; exact ⟨rfl, rfl⟩)
  | eproc nch n =>
    exact eproc_keeps (P := FaultOnly s) (faultOnly_faulted s) (.inl (by rw [State.block_status]; exact ⟨rfl, rfl⟩))
  | esetp _ => exact faultOnly_whenPrepared (.inl ⟨rfl, rfl⟩)
  | erst | fsetsize _ | fsetrt60 _ | fsetdamp _ | fsetmod _ _ | fsetfrz _ | ftick _ | fmix _ _ =>
    exact faultOnly_whenPrepared (faultOnly_of_status (by simp))
  | dlprep _ _ | apprep _ _ =>
    exact faultOnly_onUnit fun _ => capacityCheck_keeps (P := FaultOnly s) (faultOnly_faulted s) fun _ =>
      faultOnly_of_status (by simp)
  | dlrst _ | dlsetd _ _ | dlpush _ _ | dlrdlin _ _ _ | dlrdlag _ _ _ | dlproc _ _ _ _ _ | aprst _ | apsetg _ _
  | approc _ _ | lprst _ | lpsetc _ _ | lpproc _ _ | lfoseed _ _ | lfosetr _ _ | lfosetd _ _ | lfonext _ | smset _ _
  | smnext _ | smsnap _ => exact faultOnly_onUnit fun _ => faultOnly_of_status (by simp)

/-! ## A faulted core (R167, R171) -/

theorem step_of_err {s : State} (h : s.status.err = true) : step s = .next (s.dropWords 1) := by
  rw [step, fetchAndRun, if_pos h]

/-- Settles O35: every command faults or keeps `ERR` and `CAUSE`, whatever its checks answer; the port discards before
it decodes. -/
theorem faultsArePreciseAndSticky : Obligations.FaultsArePreciseAndSticky := by
  refine ⟨fun i s t h => ?_, fun s h => step_of_err h, fun s => ?_⟩
  · obtain rfl := exec_next.1 h
    exact execIn_faultOnly cfg i s
  · exact State.hostRead_eq (.inr (.inl (by decide)))

/-- A run goes through its first step. -/
theorem core_run_succ {s t : State} (h : step s = .next t) (k : Nat) : core.run (k + 1) s = core.run k t := by
  simp only [Host.Core.run, core, h]

/-- Settles O38, by induction on the number of steps: each discards one word, and `ERR` is still 1. -/
theorem noStepEndsAFault : Obligations.NoStepEndsAFault := by
  intro k
  induction k with
  | zero => exact fun _ _ => rfl
  | succ k ih =>
    intro s h
    have hrest : core.run k (s.dropWords 1) = .next ({ s with cmd := (s.cmd.drop 1).drop k } : State) :=
      ih (s.dropWords 1) h
    rw [core_run_succ (step_of_err h), hrest, List.drop_drop, Nat.add_comm]

/-! ## An unprepared core (R168) -/

/-- Every command but EPREP makes the check of R168 first. -/
theorem execIn_of_not_prepared (c : Cfg) {i : Instr} {s : State} (hi : i.op ≠ .eprep)
    (h : s.status.prepared = false) : execIn c i s = s.faulted .notPrepared := by
  cases i with
  | eprep _ _ _ _ => exact absurd rfl hi
  | erst | esetp _ | eproc _ _ | fsetsize _ | fsetrt60 _ | fsetdamp _ | fsetmod _ _ | fsetfrz _ | ftick _
  | fmix _ _ => exact whenPrepared_of_not h _
  | _ => exact onUnit_of_not h _ _ _

/-- Settles O36: the check of `PREPARED` comes before every other; EPREP prepares or refuses its operands. -/
theorem onlyEprepRunsUnprepared : Obligations.OnlyEprepRunsUnprepared := by
  intro i s h
  refine ⟨fun hi => exec_next.2 (execIn_of_not_prepared cfg hi h), fun hi => ⟨_, exec_eq i s, ?_⟩⟩
  obtain ⟨nch, fsHi, fsLo, maxBlock, rfl⟩ | hne := eprep_or_not i
  · exact eprep_cases (P := fun t => t.status.prepared = true ∨ t = s.faulted .badConfig) (.inr rfl) fun _ =>
      .inl (by rw [State.prepare_status]; rfl)
  · exact absurd hi hne

/-! ## Words of the opcode map (R71 to R73) -/

/-- The words of a well-formed command, however they are written, decode to it. -/
theorem decode_of_encode_eq {i : Instr} {ws : List Word} (hwf : i.wf = true) (hws : encode i = ws) :
    decode ws = .command i [] := by
  rw [← hws, ← List.append_nil (encode i)]
  exact decode_encode_append hwf []

/-- Settles O34: each list is what its well-formed command encodes to. -/
theorem wordsFromTheMapDecode : Obligations.WordsFromTheMapDecode := by
  refine ⟨?_, ?_, ?_, ?_, ?_, ?_, ?_, ?_⟩
  all_goals exact decode_of_encode_eq (by decide) (by decide)

/-! ## Hardware reset (R36) -/

theorem reset_lines : State.reset.Lines fun _ d => d = DelayLine.reset := fun u => get_replicate _ u

theorem memoryInv_reset (c : Cfg) : MemoryInv c State.reset :=
  ⟨rfl, fun u => .inl (congrArg DelayLine.cap (reset_lines u)), nofun⟩

theorem registersOk_reset : RegistersOk State.reset where
  fault := ⟨fun _ => rfl, fun _ => rfl⟩
  flag := by
    rw [FlagOk, show State.reset.prm[12] = 0 from get_replicate _ (12 : Fin 13)]
    rfl
  fdn := ⟨fun i => by rw [show State.reset.fdn.g[i] = 0 from get_replicate _ i]; decide +kernel, .inl rfl⟩
  diffusers a := by rw [show State.reset.apG[a] = 0 from get_replicate _ a]; decide +kernel
  depths i := by rw [show State.reset.lfo[i] = Lfo.reset from get_replicate _ i]; exact ⟨rfl, by decide⟩
  ramps k := by rw [show State.reset.sm[k] = Smoother.reset from get_replicate _ k]; exact Nat.le_refl 0

/-- Settles O49: every line has `cap` 0, the core is not prepared, and every register with an invariant is 0. -/
theorem resetMeetsTheInvariants : Obligations.ResetMeetsTheInvariants :=
  ⟨memoryInv_reset cfg, registerInv_iff.2 ⟨registersOk_reset, rfl⟩, nofun, by decide +kernel, by decide +kernel,
    .inl rfl⟩

end Sys2Proof.Machine


/-! The modulator commands with the default generator (spec/43_modulator.md R111, R112, R115), FSETMOD (spec/44_fdn8.md
R127) and the mixer, whose butterfly stages each pair the lanes one, two and four places apart (R130). -/

namespace Sys2Proof.Machine

/-! ## The default generator (R112) -/

/-- `u24` as R112 writes it. -/
theorem u24_eq (w : Word) : u24 w = fdiv (floatOf (w.toNat / 256)) (floatOf (2 ^ 24)) := by
  have hbits : (w.extractLsb 31 8).toNat = w.toNat / 256 := by
    rw [BitVec.extractLsb_toNat, Nat.shiftRight_eq_div_pow]
    omega
  rw [u24, hbits, show floatOf (2 ^ 24) = 0x4B800000#32 by decide +kernel]

/-- Settles O17: the default generator starts the jitter state, and its upper 24 bits are the phase. -/
theorem lfoseedSetsPhaseAndJitterState : Obligations.LfoseedSetsPhaseAndJitterState := by
  intro i seed s h js
  refine ⟨rfl, ?_⟩
  rw [exec_lfoseed h, ← u24_eq]
  rfl

/-- Settles O19: the offset on the old phase goes sealed into `RES[0]`, the advanced phase sealed into the modulator. -/
theorem lfonextReturnsOffsetAndAdvances : Obligations.LfonextReturnsOffsetAndAdvances := by
  intro i s h l a b unit out p
  have hout : l.offset cfg = out := by
    simp only [out, unit, ← u24_eq]
    rfl
  refine ⟨rfl, _, _, holds_sealNaN s.draws (.res 0) out,
    holds_sealNaN s.draws (.lfoPhase i) (phaseAdvanced l.phase l.inc), ?_⟩
  rw [exec_lfonext h, ← hout]
  rfl

/-! ## FSETMOD (R127) -/

/-- Settles O22: FSETMOD stores on each lane the rate of LFOSETR and the depth of LFOSETD; the default mask modulates
lanes 4 to 7. -/
theorem fsetmodSetsRatesDepthsAndModes : Obligations.FsetmodSetsRatesDepthsAndModes := by
  intro rateHz depthMs s h dsamp
  refine ⟨rfl, _, exec_fsetmod h rateHz depthMs, fun i => ?_, rfl⟩
  intro di
  have hdi : di = laneDepth cfg s.fs depthMs i := (laneDepth_default _ _ _).symm
  have hlfo : (s.setMod cfg rateHz depthMs).lfo[i] = s.modLfo cfg rateHz depthMs i := get_ofFn _ i
  rw [hlfo, hdi]
  exact ⟨rfl, rfl, holds_sealNaN _ _ _, depthStored_eq _, get_ofFn _ i⟩

/-! ## The mixer (R130) -/

/-- The stage of stride 1: a sum and a difference of each lane and its neighbour. -/
theorem butterfly_one (a : Vector Word 8) : butterfly 1 a = #v[fadd a[0] a[1], fsub a[0] a[1], fadd a[2] a[3],
    fsub a[2] a[3], fadd a[4] a[5], fsub a[4] a[5], fadd a[6] a[7], fsub a[6] a[7]] := rfl

/-- The stage of stride 2. -/
theorem butterfly_two (a : Vector Word 8) : butterfly 2 a = #v[fadd a[0] a[2], fadd a[1] a[3], fsub a[0] a[2],
    fsub a[1] a[3], fadd a[4] a[6], fadd a[5] a[7], fsub a[4] a[6], fsub a[5] a[7]] := rfl

/-- The stage of stride 4. -/
theorem butterfly_four (a : Vector Word 8) : butterfly 4 a = #v[fadd a[0] a[4], fadd a[1] a[5], fadd a[2] a[6],
    fadd a[3] a[7], fsub a[0] a[4], fsub a[1] a[5], fsub a[2] a[6], fsub a[3] a[7]] := rfl

theorem hadamard8_eq_map (r : Vector Word 8) :
    hadamard8 r = (butterfly 4 (butterfly 2 (butterfly 1 r))).map (fmul · litInvSqrt8) := by
  refine Vector.ext fun i hi => ?_
  simp [hadamard8]

/-- Settles O25: the three stages in closed form, put into one another, give the groupings of the statement. -/
theorem hadamardMixesInThreeStages : Obligations.HadamardMixesInThreeStages := by
  intro r pair quad all
  rw [hadamard8_eq_map, butterfly_one, butterfly_two, butterfly_four]
  simp [all, quad, pair]

end Sys2Proof.Machine
